-- ==== Sys2Proof/Word.lean ====
section
/-! DEFINITION. The block's data widths (spec/00_scope.md R8): the native word of the shared region, the
collaborator registers' width, the byte of the region. -/

namespace Sys2Proof

/-- The native word, `W = 32` bits (R8, D1). Every field of the region is one unsigned word (R20). -/
abbrev Word := BitVec 32

/-- A collaborator register, `REGW = 32` bits (R8). -/
abbrev Reg := BitVec 32

/-- One byte of the shared region (R50). -/
abbrev Byte := BitVec 8

/-- `N = W/8`, the native word size in bytes (R8). -/
abbrev wordBytes : Nat := 4

end Sys2Proof
end

