-- ==== Sys2Proof/Config.lean ====
section
/-! DEFINITION. The implementation parameters the source leaves to the platform (spec/00_scope.md R8), and the
opaque constants that stand for the values no source gives. -/

namespace Sys2Proof

/-- The open parameters of R8. A model "takes each as a configuration field". No step changes them (log 3). -/
structure Config where
  /-- `REGION_BYTES`: size in bytes of the backing memory region (R8, R20). -/
  regionBytes : Nat
  /-- `BASE_K`: address of the region in the privileged mapping (R8); no rule reads it. Its width is the
  model's choice (log 30). -/
  baseK : Word
  /-- `BASE_U`: address of the region in the producer's mapping, the handle of `MAP_BUFFER` (R8, R165),
  one word (R88). -/
  baseU : Word
  /-- `INITIAL_TICKS`: the "initial tick value" of `START` (R8, R140). -/
  initialTicks : Reg
  /-- `PARK_VALUE`: the "disabled/parked value" of the countdown register (R8, R35). -/
  parkValue : Reg
  /-- `TICK_HZ` (R8); no rule depends on it. -/
  tickHz : Nat
  /-- `TMR_LOAD_ADDR` (R8, R197); no rule depends on it. -/
  tmrLoadAddr : Word
  /-- `OUT_SET_ADDR` (R8, R197); no rule depends on it. -/
  outSetAddr : Word
  /-- `OUT_CLR_ADDR` (R8, R197); no rule depends on it. -/
  outClrAddr : Word
  /-- `TMR_ACK` (R8, R197): where the acknowledge is; no rule depends on it. -/
  tmrAckAddr : Word
  /-- `CB_SWITCH` (R8, R197): where the callback switch is; no rule depends on it. -/
  cbSwitchAddr : Word
deriving DecidableEq, Repr

/-- `REGION_BYTES` of this machine: OPEN in R8, no value (log 3). -/
opaque Platform.regionBytes : Nat
/-- The word number of `BASE_K`; the base is a multiple of `N` (R8, D7). -/
opaque Platform.baseKWord : BitVec 30
/-- The word number of `BASE_U`; the base is a multiple of `N` (R8, D7). -/
opaque Platform.baseUWord : BitVec 30
/-- `INITIAL_TICKS` of this machine: OPEN in R8 (log 3). -/
opaque Platform.initialTicks : Reg
/-- `PARK_VALUE` of this machine: OPEN in R8 (log 3). -/
opaque Platform.parkValue : Reg
/-- `TICK_HZ` of this machine: OPEN in R8 (log 3). -/
opaque Platform.tickHz : Nat
/-- The collaborator registers' addresses, by number: OPEN in R8 (log 3). -/
opaque Platform.registerAddr : Nat → Word
/-- `map_ok` at the `n`-th platform attempt, once the inputs held in State are used up: a free value (R165, U17, log 14). -/
opaque Platform.mapOkFree : Nat → Bool

/-- The configuration of the machine at attach: every field an opaque constant (log 3). -/
def Config.platform : Config where
  regionBytes := Platform.regionBytes
  baseK := Platform.baseKWord ++ 0#2
  baseU := Platform.baseUWord ++ 0#2
  initialTicks := Platform.initialTicks
  parkValue := Platform.parkValue
  tickHz := Platform.tickHz
  tmrLoadAddr := Platform.registerAddr 0
  outSetAddr := Platform.registerAddr 1
  outClrAddr := Platform.registerAddr 2
  tmrAckAddr := Platform.registerAddr 3
  cbSwitchAddr := Platform.registerAddr 4

end Sys2Proof
end

