-- ==== Sys2Proof/Syntax.lean ====
section
/-! DEFINITION. The operations of spec/30_encoding.md R86 and the Cell of R82: one constructor per row of
spec/opcode_table.json. -/

namespace Sys2Proof

/-- A Cell, "the atomic unit of scheduled work" (R3, R27, R82): three unsigned words, every pattern legal. -/
structure Cell where
  /-- "hardware timer ticks to wait": loaded into the countdown when the cell is executed (R82, R133). -/
  delay : Word
  /-- Output bits to drive low (R82). -/
  clearMask : Word
  /-- Output bits to drive high (R82). -/
  setMask : Word
deriving DecidableEq, Repr

/-- The operations, in the order of the operation map R86; the Cell as work item (R133) is the last row. -/
inductive Instr where
  /-- `INIT capacity` (R100). -/
  | init (capacity : Word)
  /-- `MAP_BUFFER size` (R165). -/
  | mapBuffer (size : Word)
  /-- `START` (R140). -/
  | start
  /-- `STOP` (R142). -/
  | stop
  /-- `RESET` (R101). -/
  | reset
  /-- `GET_STATUS` (R110). -/
  | getStatus
  /-- `PUSH delay, clear_mask, set_mask` (R102, R103). -/
  | push (delay clearMask setMask : Word)
  /-- `POP` (R104). -/
  | pop
  /-- `SET_STATUS s` (R109). -/
  | setStatus (s : Word)
  /-- `TICK` (R131). -/
  | tick
  /-- `TIMER_EXPIRY` (R136). -/
  | timerExpiry
  /-- `CELL (delay, clear_mask, set_mask)` as executed work item (R133). -/
  | cell (delay clearMask setMask : Word)
deriving DecidableEq, Repr

end Sys2Proof
end

