-- ==== Sys2Proof/WellFormed.lean ====
section
/-! DEFINITION. Which operations and which configurations the spec calls legal. -/

namespace Sys2Proof

/-- An operation whose operands the spec does not reserve: `SET_STATUS s` has `s` one of 0, 1, 2 (R90, R109);
every operand of every other operation is legal (R82, R90). -/
def Instr.wf : Instr → Bool
  | .setStatus s => decide (s.toNat ≤ 2)
  | _ => true

/-- A configuration R8 allows: both mappings' bases are multiples of `N` (R8, R54). -/
def Config.wf (c : Config) : Bool :=
  decide (c.baseK.toNat % wordBytes = 0) && decide (c.baseU.toNat % wordBytes = 0)

end Sys2Proof
end

