-- ==== Sys2Proof/Decode.lean ====
section
/-! DEFINITION. The operation code space of spec/30_encoding.md (R85 to R91): decoder and encoder of frames of words,
the Cell format (R82), and the byte order of a word (R52). -/

namespace Sys2Proof

/-! ## Words and bytes -/

/-- Little-endian assembly: the byte at the lowest address holds bits `[7:0]` (R52). -/
def wordOfBytes (b0 b1 b2 b3 : Byte) : Word := b3 ++ b2 ++ b1 ++ b0

/-- Byte `k` (0 to 3) of a word in little-endian order: bits `[8k+7 : 8k]` (R52). -/
def byteOfWord (w : Word) (k : Nat) : Byte := w.extractLsb' (8 * k) 8

/-- The whole words of a byte image; bytes that do not fill a word are dropped (R52, R53). -/
def wordsOfBytes : List Byte → List Word
  | b0 :: b1 :: b2 :: b3 :: rest => wordOfBytes b0 b1 b2 b3 :: wordsOfBytes rest
  | _ => []

/-- The byte image of a list of words (R52). -/
def bytesOfWords (ws : List Word) : List Byte :=
  ws.flatMap fun w => [byteOfWord w 0, byteOfWord w 1, byteOfWord w 2, byteOfWord w 3]

/-! ## Frames -/

/-- Why a frame is rejected, by name. -/
inductive Reject where
  /-- There is no word 0. -/
  | empty
  /-- Word 0 names no operation: a reserved code or a non-zero bit in `[31:8]` (R89). -/
  | reservedCode
  /-- The frame ends before the length its code fixes (R87). -/
  | truncated
  /-- `SET_STATUS s` with `s > 2` (R90). -/
  | reservedStatus
deriving DecidableEq, Repr

/-- What the decoder reads at the head of a stream of words. -/
inductive Decoded where
  /-- An operation, and the words after its frame. -/
  | ok (i : Instr) (rest : List Word)
  /-- A rejected frame, and the words after it. -/
  | reject (why : Reject) (rest : List Word)
deriving DecidableEq, Repr

/-- A frame whose code takes one operand word (R87). -/
def oneOperand (k : Word → Instr) : List Word → Decoded
  | a :: rest => .ok (k a) rest
  | [] => .reject .truncated []

/-- A frame whose code takes the three words of a Cell (R87). -/
def threeOperands (k : Word → Word → Word → Instr) : List Word → Decoded
  | a :: b :: c :: rest => .ok (k a b c) rest
  | _ => .reject .truncated []

/-- `SET_STATUS`: one operand, 0, 1 or 2; a larger one is reserved (R90). -/
def statusOperand : List Word → Decoded
  | a :: rest => if (Instr.setStatus a).wf then .ok (.setStatus a) rest else .reject .reservedStatus rest
  | [] => .reject .truncated []

/-- The operation map R86: word 0 is compared whole (mask `2^W - 1`), the operands follow in the order of R87. A frame
with a reserved word 0 has no length of its own: one word is taken for it (log 9). -/
def decodeFrame (code : Word) (ops : List Word) : Decoded :=
  if code = 0x01#32 then oneOperand .init ops
  else if code = 0x02#32 then oneOperand .mapBuffer ops
  else if code = 0x03#32 then .ok .start ops
  else if code = 0x04#32 then .ok .stop ops
  else if code = 0x05#32 then .ok .reset ops
  else if code = 0x06#32 then .ok .getStatus ops
  else if code = 0x10#32 then threeOperands .push ops
  else if code = 0x11#32 then .ok .pop ops
  else if code = 0x12#32 then statusOperand ops
  else if code = 0x20#32 then .ok .tick ops
  else if code = 0x21#32 then .ok .timerExpiry ops
  else .reject .reservedCode ops

/-- Read one frame from the head of a stream: word 0, then as many operand words as its code fixes (R91). -/
def decode : List Word → Decoded
  | [] => .reject .empty []
  | code :: ops => decodeFrame code ops

/-- The decoder on a byte image of a stream (R52). -/
def decodeBytes (bs : List Byte) : Decoded := decode (wordsOfBytes bs)

/-- The Cell format: three words, no code, every pattern legal (R82). -/
def decodeCell : List Word → Option Cell
  | d :: k :: s :: _ => some ⟨d, k, s⟩
  | _ => none

/-- The length in words of the frame a code begins (R87, R91); one word for a reserved code (log 9). -/
def frameLength (code : Word) : Nat :=
  if code = 0x01#32 ∨ code = 0x02#32 ∨ code = 0x12#32 then 2
  else if code = 0x10#32 then 4
  else 1

/-- The words of an operation: its frame (R86, R87), or for a Cell its three words (R82). -/
def encode : Instr → List Word
  | .init capacity => [0x01#32, capacity]
  | .mapBuffer size => [0x02#32, size]
  | .start => [0x03#32]
  | .stop => [0x04#32]
  | .reset => [0x05#32]
  | .getStatus => [0x06#32]
  | .push d k s => [0x10#32, d, k, s]
  | .pop => [0x11#32]
  | .setStatus s => [0x12#32, s]
  | .tick => [0x20#32]
  | .timerExpiry => [0x21#32]
  | .cell d k s => [d, k, s]

/-- Whether an operation is written as a frame (R80 (c)); a Cell is not (R80 (b)). -/
def Instr.isFrame : Instr → Bool
  | .cell _ _ _ => false
  | _ => true

/-! ## The table's numbering -/

/-- The four words (the longest frame, R87) of an instruction whose bits are `w`, bit 0 the least significant bit of
word 0; every bit from `nbits` up is 0. -/
def tableWords (nbits w : Nat) : List Word :=
  let v := w % 2 ^ nbits
  [BitVec.ofNat 32 v, BitVec.ofNat 32 (v / 2 ^ 32), BitVec.ofNat 32 (v / 2 ^ 64), BitVec.ofNat 32 (v / 2 ^ 96)]

/-- Whether a row of the table with this many bits is the Cell's: a frame row gives word 0 whole, 32 bits, and a frame is
one, two or four words long; only the Cell is three words (96 bits) or has fewer than 32 fixed bits (R82, R86, log 20). -/
def isCellRow (nbits : Nat) : Bool := decide (nbits = 96) || decide (nbits < 32)

/-- The instruction the decoder reads from the table's `w`: a frame by its word 0, a Cell row by the Cell format. -/
def decodeTableWord (nbits w : Nat) : Option Instr :=
  if isCellRow nbits then
    (decodeCell (tableWords nbits w)).map fun c => .cell c.delay c.clearMask c.setMask
  else
    match decode (tableWords nbits w) with
    | .ok i _ => some i
    | .reject _ _ => none

end Sys2Proof
end

