-- ==== Sys2Proof/Machine/State.lean ====
section
/-! DEFINITION. The machine's state (spec/10_state.md), the reasons a step can stop, and the state at device attach
(R43, first column). -/

namespace Sys2Proof.Machine

/-- Why the machine stops with a fault: the "fault" treatments of spec/93_implementation_defined.md. A fault is the
fault mark of R42: it ends the run, so it is never cleared (log 8). -/
inductive Fault where
  /-- A read of region bytes at `off` that nothing has written: raised by every load of the region (U10, R211). Safe:
  the spec's own choice is "fault on a read". -/
  | unwrittenRead (off : Nat)
  /-- A load or store at `off` that does not lie inside the `REGION_BYTES` bytes of the region (R50, R113): raised by
  every load and store. Safe: the address does not exist. -/
  | outsideRegion (off : Nat)
  /-- `RB.status` holds a reserved value: raised by every operation that reads the status (U4, R25). Safe. -/
  | reservedStatus (value : Word)
  /-- A cursor is not below `RB.capacity`: raised by `PUSH` and `POP` where they form a cell address (U5, R113). Safe. -/
  | cursorOutOfRange (cursor capacity : Word)
deriving DecidableEq, Repr

/-- Why a step has no meaning. The block's own refusals (R42, R89) are next states with the refusal mark set, not
this (log 7). -/
inductive Refusal where
  /-- Raised by `exec` for an instruction that has no meaning yet; no arm raises it. Safe. -/
  | notModelled (mnemonic : String)
deriving DecidableEq, Repr

/-- The three states of the engine, the values of `RB.status` (R25, R84, R130). -/
inductive Status where
  | stopped
  | running
  | errorUnderrun
deriving DecidableEq, Repr

/-- The synchronous errors (R181 to R184). -/
inductive ErrorKind where
  /-- `CapacityError` (R181). -/
  | capacity
  /-- `InvalidStateError` (R182). -/
  | invalidState
  /-- `SizeError` (R183). -/
  | size
  /-- `MappingError` (R184). -/
  | mapping
deriving DecidableEq, Repr

/-- What an operation of class `0x0` or `0x1` returns (R88). -/
inductive Result where
  /-- `OK` without payload. -/
  | ok
  /-- `OK` and the status value (`GET_STATUS`). -/
  | okStatus (value : Word)
  /-- `OK` and the handle `BASE_U` (`MAP_BUFFER`). -/
  | okHandle (base : Word)
  /-- `OK` and `some(cell)` (`POP`). -/
  | okSome (c : Cell)
  /-- `OK` and `none` (`POP`). -/
  | okNone
  /-- A failing operation returns only its code. -/
  | failed (e : ErrorKind)
deriving DecidableEq, Repr

/-- Why an operation was refused: no state change and no result code, the refusal mark set (R42, R89). -/
inductive RefusedBy where
  /-- A reserved code or a non-zero upper bit of word 0 (R89). -/
  | reservedCode
  /-- A frame shorter than its code's length (R87). -/
  | truncatedFrame
  /-- `SET_STATUS s` with `s > 2` (R90). -/
  | reservedStatusOperand
  /-- An operation other than `INIT` before the first successful `INIT` (R41, R111, R162). -/
  | notInitialised
  /-- `PUSH`, or a load of the producer, without a mapping (R102, R166). -/
  | notMapped
  /-- `PUSH` or `MAP_BUFFER` after a `MappingError` (R41, R165). -/
  | mappingFailed
  /-- A direct `POP` while the status is RUNNING (R105). -/
  | popWhileRunning
  /-- A stand-alone `SET_STATUS` (R109, D37). -/
  | standAloneSetStatus
  /-- A load of the producer through its mapping at an address that is not word aligned (R54, U7). -/
  | misalignedLoad
  /-- A load of the producer at an address outside the structure its mapping covers (R56, R166, log 29). -/
  | outsideMapping
deriving DecidableEq, Repr

/-- Which of the steps 2 to 5 of a `PUSH` is next (R103). -/
inductive PushStage where
  /-- Step 2: store `cells[w].delay`. -/
  | storeDelay
  /-- Step 3: store `cells[w].clear_mask`. -/
  | storeClear
  /-- Step 4: store `cells[w].set_mask`. -/
  | storeSet
  /-- Step 5: release-store `write_index`. -/
  | publish
deriving DecidableEq, Repr

/-- A `PUSH` whose step 1 is done: the next step, the loaded `w` and `c`, and the operands (R103). -/
structure PushInProgress where
  stage : PushStage
  /-- The loaded `write_index`. -/
  w : Word
  /-- The loaded `capacity`. -/
  c : Word
  cell : Cell
deriving DecidableEq, Repr

/-- The bytes of the shared region that have been written, addresses (offsets) strictly rising. -/
abbrev Memory := List Host.Cell

/-- The state: the shared region (R20 to R31), the collaborators (R32), the hidden device state (R41), the `PUSH` in
progress (R103), the refusal mark (R42), the results returned (R88), and the model's inputs. -/
structure State where
  /-- The platform parameters of R8; no step changes them. -/
  cfg : Config
  /-- The shared region (R20, R50): control words and cells at the offsets of R51. -/
  mem : Memory
  /-- `TMR.count` (R32). -/
  tmrCount : Reg
  /-- `TMR.armed` (R32). -/
  tmrArmed : Bool
  /-- `TMR.expiry_pending` (R32, R187). -/
  tmrExpiryPending : Bool
  /-- `CB.enable` (R32, R39, R187). -/
  cbEnable : Bool
  /-- `OUT.level` (R32). -/
  outLevel : Reg
  /-- `DEV.initialized` (R41). -/
  devInitialized : Bool
  /-- `DEV.mapped` (R41). -/
  devMapped : Bool
  /-- `DEV.map_failed` (R41). -/
  devMapFailed : Bool
  /-- The `PUSH` in progress, between its step 1 and its step 5 (R103). -/
  push : Option PushInProgress
  /-- The refused operations so far, oldest first; the refusal mark of R42 is set when there is one. -/
  refusals : List RefusedBy
  /-- The results returned so far, oldest first (R88). -/
  results : List Result
  /-- Input: the frames still to be executed, in the total order of steps (R63, R85, R91). -/
  trace : List Word
  /-- Input: at each point where a `PUSH` is in progress and the next frame is a step of C or T, whether that frame is
  taken before the `PUSH` goes on (R103, log 10). -/
  preempt : List Bool
  /-- Input: `map_ok` at the next platform attempts (R165). -/
  mapOk : List Bool
  /-- How many platform attempts have been made; the argument of the free value `Platform.mapOkFree` (log 14). -/
  mapDraws : Nat
  /-- Input: at each point where no `PUSH` is in progress, the address of a word the producer loads through its mapping
  before the next frame, or none (R166, log 23). -/
  loads : List (Option Word)
  /-- The words the producer has loaded through its mapping so far, oldest first (R166). -/
  loaded : List Word
deriving DecidableEq, Repr

/-- Device attach, before `INIT` (R43 first column, R211): nothing of the region written, the timer idle, the callback
off, not initialised, not mapped. `tmrCount` and `outLevel` are unspecified there; 0 is the model's choice (log 5). -/
def State.reset : State where
  cfg := Config.platform
  mem := []
  tmrCount := 0#32
  tmrArmed := false
  tmrExpiryPending := false
  cbEnable := false
  outLevel := 0#32
  devInitialized := false
  devMapped := false
  devMapFailed := false
  push := none
  refusals := []
  results := []
  trace := []
  preempt := []
  mapOk := []
  mapDraws := 0
  loads := []
  loaded := []

end Sys2Proof.Machine
end

