-- ==== Sys2Proof/Machine/Operands.lean ====
section
/-! DEFINITION. Effective addresses (R51, R113), operand assembly (R83), cursor arithmetic (R106) and the numbers of
the status values (R84) and result frames (R88). -/

namespace Sys2Proof.Machine

/-! ## Offsets in the region (R11, R51) -/

/-- `OFF_RD`, the offset of `read_index`. -/
def offRd : Nat := 0
/-- `OFF_WR`, the offset of `write_index`. -/
def offWr : Nat := wordBytes
/-- `OFF_CAP`, the offset of `capacity`. -/
def offCap : Nat := 2 * wordBytes
/-- `OFF_ST`, the offset of `status`. -/
def offSt : Nat := 3 * wordBytes
/-- `OFF_CELL(i)`, the offset of slot `i`. -/
def offCell (i : Nat) : Nat := 4 * wordBytes + 3 * wordBytes * i
/-- The offset of `cells[i].delay`. -/
def offDelay (i : Nat) : Nat := offCell i
/-- The offset of `cells[i].clear_mask`. -/
def offClear (i : Nat) : Nat := offCell i + wordBytes
/-- The offset of `cells[i].set_mask`. -/
def offSet (i : Nat) : Nat := offCell i + 2 * wordBytes

/-- `BUFFER_BYTES`, the size of the structure with this capacity (R51), as an exact number (log 25). -/
def bufferBytes (capacity : Word) : Nat := 4 * wordBytes + 3 * wordBytes * capacity.toNat

/-- `CAP_MAX`, the number of whole cells that fit after the control words (R8, R24); 0 where not even those fit. -/
def capMax (cfg : Config) : Nat := (cfg.regionBytes - 4 * wordBytes) / (3 * wordBytes)

/-! ## Operand assembly and cursor arithmetic -/

/-- The value a collaborator register receives from a field: its low 32 bits (R83); the whole field at `W = 32`. -/
def regOfField (v : Word) : Reg := v.setWidth 32

/-- `next(x) = (x + 1) mod capacity` (R106), computed exactly and narrowed. -/
def nextIndex (x capacity : Word) : Word := BitVec.ofNat 32 ((x.toNat + 1) % capacity.toNat)

/-! ## Numbers of status values and results -/

/-- The status encoding (R25, R84). -/
def statusWord : Status → Word
  | .stopped => 0#32
  | .running => 1#32
  | .errorUnderrun => 2#32

/-- The status a word encodes; `3 .. 2^W - 1` are reserved (R25, R84). -/
def statusOfWord (w : Word) : Option Status :=
  if w = 0#32 then some .stopped
  else if w = 1#32 then some .running
  else if w = 2#32 then some .errorUnderrun
  else none

/-- The result code of an error (R88). -/
def errorCode : ErrorKind → Word
  | .capacity => 1#32
  | .invalidState => 2#32
  | .size => 3#32
  | .mapping => 4#32

/-- The result frame of a result: word 0 its code, then the payload (R88). -/
def resultFrame : Result → List Word
  | .ok => [0#32]
  | .okStatus v => [0#32, v]
  | .okHandle b => [0#32, b]
  | .okSome c => [0#32, 1#32, c.delay, c.clearMask, c.setMask]
  | .okNone => [0#32, 0#32]
  | .failed e => [errorCode e]

end Sys2Proof.Machine
end

