-- ==== Sys2Proof/Machine/Ops.lean ====
section
/-! DEFINITION. The named operations over the region and the collaborators (R11, R33 to R39), the ways an operation
ends (result, error, refusal), and entering and leaving the timer's handler (R187, R190, R191). -/

namespace Sys2Proof.Machine

/-! ## Bytes of the region -/

/-- What a byte reads as that nothing has written: no value (U10, R211, log 4). -/
def unlisted (_ : Nat) : Option Byte := none

/-- The byte at an offset. -/
def readByte : Memory → Nat → Option Byte
  | [], a => unlisted a
  | (x, b) :: m, a => if x = a then some b else readByte m a

/-- Store a byte at an offset, keeping the offsets strictly rising. No byte equals what an unlisted offset reads as, so
no entry is ever removed. -/
def writeByte : Memory → Nat → Byte → Memory
  | [], a, b => [(a, b)]
  | (x, v) :: m, a, b =>
    if a < x then (a, b) :: (x, v) :: m
    else if a = x then (a, b) :: m
    else (x, v) :: writeByte m a b

/-- The canonical form of a region: offsets strictly rising, no entry equal to what an unlisted offset reads as. -/
def Memory.wf : Memory → Bool
  | [] => true
  | (x, b) :: m => decide (unlisted x ≠ some b) && m.all (fun e => decide (x < e.1)) && Memory.wf m

/-- The word whose lowest byte is at `off`, little-endian (R52); none if one of its bytes has no value. -/
def loadWord (m : Memory) (off : Nat) : Option Word :=
  match readByte m off, readByte m (off + 1), readByte m (off + 2), readByte m (off + 3) with
  | some b0, some b1, some b2, some b3 => some (wordOfBytes b0 b1 b2 b3)
  | _, _, _, _ => none

/-- Store the four bytes of a word at `off`, little-endian (R52). -/
def storeWord (m : Memory) (off : Nat) (v : Word) : Memory :=
  writeByte (writeByte (writeByte (writeByte m off (byteOfWord v 0))
    (off + 1) (byteOfWord v 1)) (off + 2) (byteOfWord v 2)) (off + 3) (byteOfWord v 3)

/-! ## Accesses to the region (R11, R53) -/

/-- Whether the word at `off` lies inside the region (R50). -/
def inRegion (s : State) (off : Nat) : Bool := decide (off + wordBytes ≤ s.cfg.regionBytes)

/-- `MemRead(off, N)`: a plain word load (R11). -/
def memRead (s : State) (off : Nat) : Except Fault Word :=
  if inRegion s off then
    match loadWord s.mem off with
    | some v => .ok v
    | none => .error (.unwrittenRead off)
  else .error (.outsideRegion off)

/-- `MemReadAcq(off, N)`: an acquire load; in the total order of R63 it is a load (R59, log 17). -/
def memReadAcq (s : State) (off : Nat) : Except Fault Word := memRead s off

/-- `MemWrite(off, N, v)`: a plain word store (R11). -/
def memWrite (s : State) (off : Nat) (v : Word) : Except Fault State :=
  if inRegion s off then .ok { s with mem := storeWord s.mem off v }
  else .error (.outsideRegion off)

/-- `MemWriteRel(off, N, v)`: a release store; in the total order of R63 it is a store (R58, log 17). -/
def memWriteRel (s : State) (off : Nat) (v : Word) : Except Fault State := memWrite s off v

/-! ## The collaborators -/

/-- `TimerLoad(v)` (R33). A load does not clear a pending expiry; a load of 0 expires at once (D12, log 18). -/
def timerLoad (v : Reg) (s : State) : State :=
  if v = 0#32 then { s with tmrCount := v, tmrArmed := false, tmrExpiryPending := true }
  else { s with tmrCount := v, tmrArmed := true }

/-- `TimerPark()` (R35). -/
def timerPark (s : State) : State :=
  { s with tmrArmed := false, tmrExpiryPending := false, tmrCount := s.cfg.parkValue }

/-- `TimerAck()` (R36). -/
def timerAck (s : State) : State := { s with tmrExpiryPending := false }

/-- The effect of one tick on the timer (R34). -/
def timerTick (s : State) : State :=
  if s.tmrArmed then
    if s.tmrCount - 1#32 = 0#32 then
      { s with tmrCount := s.tmrCount - 1#32, tmrArmed := false, tmrExpiryPending := true }
    else { s with tmrCount := s.tmrCount - 1#32 }
  else s

/-- `OutClear(m)` (R37). -/
def outClear (m : Reg) (s : State) : State := { s with outLevel := s.outLevel &&& ~~~m }

/-- `OutSet(m)` (R38). -/
def outSet (m : Reg) (s : State) : State := { s with outLevel := s.outLevel ||| m }

/-- `CallbackEnable(b)` (R39). -/
def callbackEnable (b : Bool) (s : State) : State := { s with cbEnable := b }

/-! ## How an operation ends -/

/-- `return`: the operation's result frame goes out (R88). -/
def reply (r : Result) (s : State) : State := { s with results := s.results ++ [r] }

/-- `return <Error>`: a synchronous error, with no side effect of its own (R180). -/
def fail (e : ErrorKind) (s : State) : State := reply (.failed e) s

/-- A refused operation: no state change, no result code, the refusal mark set (R42, R89, log 7). -/
def refuse (why : RefusedBy) (s : State) : State := { s with refusals := s.refusals ++ [why] }

/-- The refusal mark of R42. -/
def refusalMark (s : State) : Bool := !s.refusals.isEmpty

/-- The outcome of a computation that may have met undefined behaviour. -/
def finish : Except Fault State → Host.Outcome State Fault Refusal
  | .ok s => .next s
  | .error f => .fault f

/-- Admission: every operation but `INIT`, the events among them, needs `DEV.initialized` (R41, R111, R162, R211; log 13). -/
def whenInitialised (s : State) (k : Except Fault State) : Except Fault State :=
  if s.devInitialized then k else .ok (refuse .notInitialised s)

/-! ## The timer interrupt (R187 to R191) -/

/-- Taking the interrupt: entry saves nothing and changes no state (R190), and the handler's first step acknowledges
the expiry, exactly once (R136 step 1, R222). -/
def enterHandler (s : State) : State := timerAck s

/-- Returning from the handler: "return control immediately", nothing is re-enabled (R136 step 3, R191). -/
def leaveHandler (s : State) : State := s

end Sys2Proof.Machine
end

