-- ==== Sys2Proof/Machine/Flags.lean ====
section
/-! DEFINITION. The conditions the operations test: the status (R25), the derived condition EMPTY (R29) and the
handler's enabling condition (R135). There is no FULL flag and no count (R29). -/

namespace Sys2Proof.Machine

/-- Read `RB.status`; a reserved value faults at the operation that reads it (R25, U4). -/
def readStatus (s : State) : Except Fault Status := do
  let w ← memRead s offSt
  match statusOfWord w with
  | some st => .ok st
  | none => .error (.reservedStatus w)

/-- `SET_STATUS` as the internal primitive: the store `MemWrite(OFF_ST, N, s)` (R109). -/
def setStatus (s : State) (st : Status) : Except Fault State := memWrite s offSt (statusWord st)

/-- EMPTY: the cursors are equal (R29). -/
def isEmpty (readIndex writeIndex : Word) : Bool := decide (readIndex = writeIndex)

/-- OCCUPANCY: `(write_index - read_index) mod capacity` (R14, R29), for cursors below the capacity. No operation
computes it (R106). -/
def occupancy (readIndex writeIndex capacity : Word) : Nat :=
  (writeIndex.toNat + capacity.toNat - readIndex.toNat) % capacity.toNat

/-- Whether the handler runs: the expiry is pending, the callback enabled, the status RUNNING (R135, R187). -/
def handlerEnabled (s : State) : Except Fault Bool :=
  if s.tmrExpiryPending && s.cbEnable then do
    let st ← readStatus s
    .ok (decide (st = .running))
  else .ok false

/-- The cursors address cells only if they are below the capacity (R28, R113, U5). -/
def checkCursor (cursor capacity : Word) : Except Fault Unit :=
  if cursor < capacity then .ok () else .error (.cursorOutOfRange cursor capacity)

end Sys2Proof.Machine
end

