-- ==== Sys2Proof/Machine/Control.lean ====
section
/-! DEFINITION. The control surface's own operation (spec/42_producer_control.md), `MAP_BUFFER`, and what the mapping it
gives lets the producer do besides `PUSH`: load any word of the structure. -/

namespace Sys2Proof.Machine

/-- The environment input `map_ok` of this platform attempt (R165, U17): the next input, or a free value (log 14). -/
def mapOkInput (s : State) : Bool :=
  match s.mapOk with
  | b :: _ => b
  | [] => Platform.mapOkFree s.mapDraws

/-- The input `map_ok` of this attempt is used up. -/
def consumeMapOk (s : State) : State := { s with mapOk := s.mapOk.tail, mapDraws := s.mapDraws + 1 }

/-- The platform attempt of `MAP_BUFFER` (R165): success exposes the region, failure is a `MappingError` (R184). -/
def attemptMapping (s : State) : State :=
  if mapOkInput s then reply (.okHandle s.cfg.baseU) { consumeMapOk s with devMapped := true }
  else fail .mapping { consumeMapOk s with devMapFailed := true, devMapped := false }

/-- `MAP_BUFFER size` (R165): dead session refused, then the size, then the platform attempt (R189). -/
def execMapBuffer (size : Word) (s : State) : Host.Outcome State Fault Refusal :=
  finish (whenInitialised s (
    if s.devMapFailed then .ok (refuse .mappingFailed s)
    else do
      let c ← memRead s offCap
      if bufferBytes c < size.toNat then .ok (fail .size s)
      else .ok (attemptMapping s)))

/-! ## Loads through the mapping (R166) -/

/-- The offset in the region of an address of the producer's mapping, which lies at `BASE_U` (R50, R166). DESIGN CHOICE
(log 30): the spec gives `BASE_U` as one word (R88) but does not say how wide `BASE_U + offset` is; here it is 32
bits wide and wraps at `2^32`, so an address below `BASE_U` can lie inside a structure that crosses the top. -/
def mappedOffset (addr : Word) (s : State) : Nat := (addr - s.cfg.baseU).toNat

/-- The access a load of the producer makes: an acquire load of `read_index`, the cursor it does not own (R59), and a
plain load of every other word (R110). -/
def producerRead (s : State) (off : Nat) : Except Fault Word :=
  if off = offRd then memReadAcq s off else memRead s off

/-- A load of the producer through its mapping (R166): "load and store access to every word of the structure at
`BASE_U + offset`". It has no side effect (R66); its value goes to the producer. What it covers and refuses is log 29.
DESIGN CHOICE (log 31): a load of the status word (R110's second way to read it) that finds a reserved value gives that
value and does not fault with U4, because it is no operation. -/
def producerLoad (addr : Word) (s : State) : Except Fault State :=
  whenInitialised s (
    if s.devMapped then do
      let c ← memRead s offCap
      if mappedOffset addr s % wordBytes ≠ 0 then .ok (refuse .misalignedLoad s)
      else if bufferBytes c < mappedOffset addr s + wordBytes then .ok (refuse .outsideMapping s)
      else do
        let v ← producerRead s (mappedOffset addr s)
        .ok { s with loaded := s.loaded ++ [v] }
    else .ok (refuse .notMapped s))

/-- A load of the producer, as the outcome of a step of P. -/
def stepLoad (addr : Word) (s : State) : Host.Outcome State Fault Refusal := finish (producerLoad addr s)

end Sys2Proof.Machine
end

