-- ==== Sys2Proof/Machine/RingBuffer.lean ====
section
/-! DEFINITION. The Shared Ring Buffer operations (spec/40_ring_buffer_ops.md): `INIT`, `RESET`, `PUSH`, `POP`,
`SET_STATUS`, `GET_STATUS`. -/

namespace Sys2Proof.Machine

/-! ## INIT and RESET -/

/-- The stores of `INIT`: cursors zero, capacity fixed, status STOPPED (R100). -/
def initRegion (capacity : Word) (s : State) : Except Fault State := do
  let s ← memWrite s offRd 0#32
  let s ← memWrite s offWr 0#32
  let s ← memWrite s offCap capacity
  setStatus s .stopped

/-- The stores of `RESET`: cursors zero, status STOPPED (R101). -/
def zeroRegion (s : State) : Except Fault State := do
  let s ← memWrite s offRd 0#32
  let s ← memWrite s offWr 0#32
  setStatus s .stopped

/-- Whether `INIT` meets a running engine: the status is read only on an initialised device (R100). -/
def initMeetsRunning (s : State) : Except Fault Bool :=
  if s.devInitialized then do
    let st ← readStatus s
    .ok (decide (st = .running))
  else .ok false

/-- `INIT capacity` (R100): the capacity is checked first, then the status. -/
def execInit (capacity : Word) (s : State) : Host.Outcome State Fault Refusal :=
  finish (
    if capacity = 0#32 then .ok (fail .capacity s)
    else if capMax s.cfg < capacity.toNat then .ok (fail .capacity s)
    else do
      let busy ← initMeetsRunning s
      if busy then .ok (fail .invalidState s)
      else do
        let s ← initRegion capacity s
        .ok (reply .ok { s with devInitialized := true, devMapFailed := false }))

/-- `RESET` (R101): rejected while RUNNING; cells and capacity are kept. -/
def execReset (s : State) : Host.Outcome State Fault Refusal :=
  finish (whenInitialised s do
    let st ← readStatus s
    if st = .running then .ok (fail .invalidState s)
    else do
      let s ← zeroRegion s
      .ok (reply .ok s))

/-! ## PUSH -/

/-- Step 1 of a `PUSH` (R103): load `write_index` and `capacity`. -/
def beginPush (cell : Cell) (s : State) : Except Fault State := do
  let w ← memRead s offWr
  let c ← memRead s offCap
  checkCursor w c
  .ok { s with push := some ⟨.storeDelay, w, c, cell⟩ }

/-- `PUSH delay, clear_mask, set_mask` (R102): admission (R41, R111), then step 1 of R103; the steps 2 to 5 are
`continuePush`. -/
def execPush (delay clearMask setMask : Word) (s : State) : Host.Outcome State Fault Refusal :=
  finish (whenInitialised s (
    if s.devMapFailed then .ok (refuse .mappingFailed s)
    else if s.devMapped then beginPush ⟨delay, clearMask, setMask⟩ s
    else .ok (refuse .notMapped s)))

/-- Steps 2 to 5 of a `PUSH` (R103): the three words of the cell in ascending order, then the release store of
`write_index`, after which the operation returns `OK`. -/
def pushStep (p : PushInProgress) (s : State) : Except Fault State :=
  match p.stage with
  | .storeDelay => do
    let s ← memWrite s (offDelay p.w.toNat) p.cell.delay
    .ok { s with push := some { p with stage := .storeClear } }
  | .storeClear => do
    let s ← memWrite s (offClear p.w.toNat) p.cell.clearMask
    .ok { s with push := some { p with stage := .storeSet } }
  | .storeSet => do
    let s ← memWrite s (offSet p.w.toNat) p.cell.setMask
    .ok { s with push := some { p with stage := .publish } }
  | .publish => do
    let s ← memWriteRel s offWr (nextIndex p.w p.c)
    .ok (reply .ok { s with push := none })

/-- One further step of the `PUSH` in progress, as the outcome of a step of P (R103). -/
def continuePush (p : PushInProgress) (s : State) : Host.Outcome State Fault Refusal := finish (pushStep p s)

/-! ## POP -/

/-- The three words of slot `i` (R104, R113). -/
def readCell (s : State) (i : Word) : Except Fault Cell := do
  let d ← memRead s (offDelay i.toNat)
  let k ← memRead s (offClear i.toNat)
  let m ← memRead s (offSet i.toNat)
  .ok ⟨d, k, m⟩

/-- `POP` on a buffer that is not empty: read slot `r`, advance `read_index` with a release store (R104). -/
def takeCell (r w : Word) (s : State) : Except Fault (State × Option Cell) := do
  let c ← memRead s offCap
  checkCursor r c
  checkCursor w c
  let cell ← readCell s r
  let s ← memWriteRel s offRd (nextIndex r c)
  .ok (s, some cell)

/-- The body of `POP` (R104), shared by the direct `POP` and the handler: terminal in ERROR_UNDERRUN; an empty buffer
records the underrun. -/
def popCell (s : State) : Except Fault (State × Option Cell) := do
  let st ← readStatus s
  if st = .errorUnderrun then .ok (s, none)
  else do
    let r ← memRead s offRd
    let w ← memReadAcq s offWr
    if isEmpty r w then do
      let s ← setStatus s .errorUnderrun
      .ok (s, none)
    else takeCell r w s

/-- The result of a `POP` (R88). -/
def popResult : Option Cell → Result
  | some c => .okSome c
  | none => .okNone

/-- A direct `POP` (R104): refused while RUNNING, when the handler is the one consumer (R105). -/
def execPop (s : State) : Host.Outcome State Fault Refusal :=
  finish (whenInitialised s do
    let st ← readStatus s
    if st = .running then .ok (refuse .popWhileRunning s)
    else do
      let (s, cell) ← popCell s
      .ok (reply (popResult cell) s))

/-! ## SET_STATUS and GET_STATUS -/

/-- A stand-alone `SET_STATUS` frame: refused, whatever its operand and the state (R109, R90, D37). The store itself is
the internal primitive `setStatus`. -/
def execSetStatus (_value : Word) (s : State) : Host.Outcome State Fault Refusal :=
  finish (.ok (refuse .standAloneSetStatus s))

/-- `GET_STATUS` (R110). -/
def execGetStatus (s : State) : Host.Outcome State Fault Refusal :=
  finish (whenInitialised s do
    let st ← readStatus s
    .ok (reply (.okStatus (statusWord st)) s))

end Sys2Proof.Machine
end

