-- ==== Sys2Proof/Machine/Engine.lean ====
section
/-! DEFINITION. The Consumer Engine (spec/41_consumer_engine.md): the Cell as executed work item, `TICK`,
`TIMER_EXPIRY`, `START`, `STOP`. -/

namespace Sys2Proof.Machine

/-- Executing one Cell (R133): countdown load, then clear, then set, in this order (R223). -/
def runCell (c : Cell) (s : State) : State :=
  outSet (regOfField c.setMask) (outClear (regOfField c.clearMask) (timerLoad (regOfField c.delay) s))

/-- `CELL (delay, clear_mask, set_mask)` as work item (R133). -/
def execCell (delay clearMask setMask : Word) (s : State) : Host.Outcome State Fault Refusal :=
  finish (.ok (runCell ⟨delay, clearMask, setMask⟩ s))

/-- `TICK` (R131): enabled in every status; refused only before the first `INIT` (R41, log 13). -/
def execTick (s : State) : Host.Outcome State Fault Refusal := finish (whenInitialised s (.ok (timerTick s)))

/-- The handler of the timer interrupt (R136): acknowledge; pop; execute the cell, or park the timer and disable the
callback; return. -/
def runHandler (s : State) : Except Fault State := do
  let (s, cell) ← popCell (enterHandler s)
  match cell with
  | some c => .ok (leaveHandler (runCell c s))
  | none => .ok (leaveHandler (callbackEnable false (timerPark s)))

/-- `TIMER_EXPIRY` (R136): the handler if it is enabled (R135); otherwise the consumer context takes no step and nothing
changes (log 12). Refused before the first `INIT` (R41, log 13). -/
def execTimerExpiry (s : State) : Host.Outcome State Fault Refusal :=
  finish (whenInitialised s do
    let due ← handlerEnabled s
    if due then runHandler s else .ok s)

/-- `START` (R140): from STOPPED only. -/
def execStart (s : State) : Host.Outcome State Fault Refusal :=
  finish (whenInitialised s do
    let st ← readStatus s
    if st = .stopped then do
      let s ← setStatus (callbackEnable true (timerLoad s.cfg.initialTicks s)) .running
      .ok (reply .ok s)
    else .ok (fail .invalidState s))

/-- `STOP` (R142): from RUNNING only; a pending expiry is discarded with the parking. -/
def execStop (s : State) : Host.Outcome State Fault Refusal :=
  finish (whenInitialised s do
    let st ← readStatus s
    if st = .running then do
      let s ← setStatus (callbackEnable false (timerPark s)) .stopped
      .ok (reply .ok s)
    else .ok (fail .invalidState s))

end Sys2Proof.Machine
end

