-- ==== Sys2Proof/Machine/Dispatch.lean ====
section
/-! DEFINITION. One arm per row of spec/opcode_table.json. -/

namespace Sys2Proof.Machine

/-- The meaning of every operation. -/
def exec (i : Instr) (s : State) : Host.Outcome State Fault Refusal :=
  match i with
  | .init capacity => Sys2Proof.Machine.execInit capacity s
  | .mapBuffer size => Sys2Proof.Machine.execMapBuffer size s
  | .start => Sys2Proof.Machine.execStart s
  | .stop => Sys2Proof.Machine.execStop s
  | .reset => Sys2Proof.Machine.execReset s
  | .getStatus => Sys2Proof.Machine.execGetStatus s
  | .push delay clearMask setMask => Sys2Proof.Machine.execPush delay clearMask setMask s
  | .pop => Sys2Proof.Machine.execPop s
  | .setStatus v => Sys2Proof.Machine.execSetStatus v s
  | .tick => Sys2Proof.Machine.execTick s
  | .timerExpiry => Sys2Proof.Machine.execTimerExpiry s
  | .cell delay clearMask setMask => Sys2Proof.Machine.execCell delay clearMask setMask s

end Sys2Proof.Machine
end

