-- ==== Sys2Proof/Machine/Sequencer.lean ====
section
/-! DEFINITION. Who moves next. The frame stream is the total order of steps (R63, R85, R91); a `PUSH` in progress may be
interleaved with steps of C and T (R103); between frames the producer may load through its mapping (R166); with no frame
left the engine goes on by itself (R132). -/

namespace Sys2Proof.Machine

/-- The agents that take steps (R12). -/
inductive Agent where
  /-- P, the producer context. -/
  | producer
  /-- C, the consumer context. -/
  | consumer
  /-- T, the tick source. -/
  | ticks
deriving DecidableEq, Repr

/-- Whose step an operation is: control commands and `PUSH` are P's (R162, R102); `POP`, the handler and the Cell it
executes are C's (R104, R133, R136); `TICK` is T's (R131). A stand-alone `SET_STATUS` is nobody's (R109): it waits with
the frames of P. -/
def agentOf : Instr → Agent
  | .init _ => .producer
  | .mapBuffer _ => .producer
  | .start => .producer
  | .stop => .producer
  | .reset => .producer
  | .getStatus => .producer
  | .push _ _ _ => .producer
  | .pop => .consumer
  | .setStatus _ => .producer
  | .tick => .ticks
  | .timerExpiry => .consumer
  | .cell _ _ _ => .consumer

/-- The next thing to happen. -/
inductive Move where
  /-- The producer takes one more step of its `PUSH`. -/
  | pushOn (p : PushInProgress) (s : State)
  /-- An operation is executed, its frame taken off the stream. -/
  | run (i : Instr) (s : State)
  /-- The producer loads a word through its mapping. -/
  | load (addr : Word) (s : State)
  /-- A frame that names no operation is refused, taken off the stream. -/
  | reject (why : RefusedBy) (s : State)

/-- The name a rejected frame is refused by (R89, R90, R87). -/
def refusedBy : Reject → RefusedBy
  | .empty => .truncatedFrame
  | .reservedCode => .reservedCode
  | .truncated => .truncatedFrame
  | .reservedStatus => .reservedStatusOperand

/-- With no frame left and no `PUSH` in progress: C takes its enabled handler, otherwise T ticks (R132, log 11). -/
def idleMove (s : State) : Move :=
  match handlerEnabled s with
  | .ok false => .run .tick s
  | _ => .run .timerExpiry s

/-- The next move of the stream: the frame at its head. -/
def nextFrame (s : State) : Move :=
  match s.trace with
  | [] => idleMove s
  | _ =>
    match decode s.trace with
    | .ok i rest => .run i { s with trace := rest }
    | .reject why rest => .reject (refusedBy why) { s with trace := rest }

/-- The next move while a `PUSH` is in progress (R103): P issues nothing else, so every frame but one of C or T waits; for
one of C or T the next entry of `preempt` says whether it falls here (log 10). -/
def nextDuringPush (p : PushInProgress) (s : State) : Move :=
  match decode s.trace with
  | .ok i rest =>
    if agentOf i = .producer then .pushOn p s
    else
      match s.preempt with
      | true :: more => .run i { s with trace := rest, preempt := more }
      | _ => .pushOn p { s with preempt := s.preempt.tail }
  | .reject _ _ => .pushOn p s

/-- The next move while no `PUSH` is in progress: the next entry of `loads` says whether the producer loads a word here,
before the next frame (R166, log 23). A load is the producer's own step, so during a `PUSH` it waits (R103, R168). -/
def nextBetweenPushes (s : State) : Move :=
  match s.loads with
  | some addr :: more => .load addr { s with loads := more }
  | _ => nextFrame { s with loads := s.loads.tail }

/-- The next move. -/
def nextMove (s : State) : Move :=
  match s.push with
  | none => nextBetweenPushes s
  | some p => nextDuringPush p s

/-! ## Placing an instruction where the next step takes it -/

/-- The words of the frame the table's `w` stands for, cut to its length (R91). -/
def tableFrame (nbits w : Nat) : List Word :=
  match tableWords nbits w with
  | [] => []
  | code :: ops => (code :: ops).take (frameLength code)

/-- Place a frame: at the head of the stream, no `PUSH` in progress and no load before it. -/
def placeFrame (ws : List Word) (s : State) : State := { s with push := none, loads := [], trace := ws ++ s.trace }

/-- Place a Cell: a Cell is fetched by the handler from the slot `read_index` names (R26, R133), so the region is a fresh
one of 40 bytes (two slots) with the Cell pending in slot 0, the engine is RUNNING, its expiry pending, and the handler's
frame is next (log 20). -/
def placeCell (c : Cell) (s : State) : State :=
  let mem := storeWord (storeWord (storeWord (storeWord [] offRd 0#32) offWr 1#32) offCap 2#32) offSt (statusWord .running)
  let mem := storeWord (storeWord (storeWord mem (offDelay 0) c.delay) (offClear 0) c.clearMask) (offSet 0) c.setMask
  { s with
    cfg := { s.cfg with regionBytes := 40 }, mem := mem, devInitialized := true, cbEnable := true,
    tmrArmed := false, tmrExpiryPending := true, push := none, loads := [], trace := encode .timerExpiry ++ s.trace }

/-- Place the table's instruction so that the very next step runs it. -/
def placeInstr (nbits w : Nat) (s : State) : State :=
  if isCellRow nbits then
    match decodeCell (tableWords nbits w) with
    | some c => placeCell c s
    | none => s
  else placeFrame (tableFrame nbits w) s

end Sys2Proof.Machine
end

