-- ==== Sys2Proof/Machine/Step.lean ====
section
/-! DEFINITION. One step of the machine, and placing an instruction where the next step takes it. -/

namespace Sys2Proof.Machine

/-- One step of one agent: a further step of the `PUSH` in progress, an operation, a load of the producer, or a refused
frame (R63, R89, R103, R166). -/
def step (s : State) : Host.Outcome State Fault Refusal :=
  match nextMove s with
  | .pushOn p s' => continuePush p s'
  | .run i s' => exec i s'
  | .load addr s' => stepLoad addr s'
  | .reject why s' => .next (refuse why s')

/-- `s` with the instruction of the table's bits `w` placed where `step` takes its next one (log 9, log 20). -/
def State.withFetchWord (s : State) (nbits w : Nat) : State := placeInstr nbits w s

end Sys2Proof.Machine
end

