-- ==== Sys2Proof/Safety.lean ====
section
/-! DEFINITION. What a good state and a safe run are: the invariants the spec states of the region (R28) and of the
collaborators (R40), the pending cells as a queue (R14, R107), and the absence of faults. -/

namespace Sys2Proof.Machine

/-! ## The pending cells -/

/-- Slot number `j` counted from the read cursor: `(r + j) mod c` (R104, R106). -/
def slotFrom (r c : Word) (j : Nat) : Word := BitVec.ofNat 32 ((r.toNat + j) % c.toNat)

/-- The cursors and the capacity read as `r`, `w`, `c` and are legal: `0 <= r, w < c`, `1 <= c <= CAP_MAX` (R24, R28). -/
structure Cursors (s : State) (r w c : Word) : Prop where
  read : memRead s offRd = .ok r
  write : memRead s offWr = .ok w
  cap : memRead s offCap = .ok c
  readBelow : r < c
  writeBelow : w < c
  capLegal : c.toNat ≤ capMax s.cfg

/-- The cells pending in the buffer are `q`, the next one to be consumed first: occupancy many (R14, R29), cell `j` in
slot `(read_index + j) mod capacity`. -/
def HoldsQueue (s : State) (q : List Cell) : Prop :=
  ∃ r w c, Cursors s r w c ∧ q.length = occupancy r w c ∧
    ∀ j (h : j < q.length), readCell s (slotFrom r c j) = .ok q[j]

/-! ## The invariant -/

/-- The words of the cell a `PUSH` in progress has already stored in slot `w` (R103). -/
def StoredPrefix (s : State) (p : PushInProgress) : Prop :=
  match p.stage with
  | .storeDelay => True
  | .storeClear => memRead s (offDelay p.w.toNat) = .ok p.cell.delay
  | .storeSet => memRead s (offDelay p.w.toNat) = .ok p.cell.delay ∧
      memRead s (offClear p.w.toNat) = .ok p.cell.clearMask
  | .publish => memRead s (offDelay p.w.toNat) = .ok p.cell.delay ∧
      memRead s (offClear p.w.toNat) = .ok p.cell.clearMask ∧ memRead s (offSet p.w.toNat) = .ok p.cell.setMask

/-- The region of an initialised device (R28, R40): legal cursors, a legal status that is RUNNING exactly when the
callback is enabled, readable pending cells, and a `PUSH` in progress that loaded the present cursor and capacity. -/
structure RegionGood (s : State) : Prop where
  queue : ∃ q, HoldsQueue s q
  status : ∃ st, readStatus s = .ok st ∧ (st = .running ↔ s.cbEnable = true)
  push : ∀ p, s.push = some p →
    memRead s offWr = .ok p.w ∧ memRead s offCap = .ok p.c ∧ StoredPrefix s p

/-- The invariant of the machine: the memory's canonical form inside the region (R20, R50), the links between timer,
callback and status (R33, R40, R132), the device flags (R41), and the region of an initialised device (R28). -/
structure Inv (s : State) : Prop where
  memWf : s.mem.wf = true
  memInside : ∀ e ∈ s.mem, e.1 < s.cfg.regionBytes
  armedCounts : s.tmrArmed = true → s.tmrCount ≠ 0#32
  armedNotPending : s.tmrArmed = true → s.tmrExpiryPending = false
  callbackOff : s.cbEnable = false → s.tmrArmed = false ∧ s.tmrExpiryPending = false
  failedNotMapped : s.devMapFailed = true → s.devMapped = false
  uninitialised : s.devInitialized = false →
    s.cbEnable = false ∧ s.devMapped = false ∧ s.devMapFailed = false ∧ s.push = none
  initialised : s.devInitialized = true → RegionGood s

/-! ## Safe runs -/

/-- No fault at the next step: no undefined behaviour of spec/93_implementation_defined.md is met (R42). -/
def StepSafe (s : State) : Prop := ∀ f, step s ≠ .fault f

/-- No fault in the next `n` steps. -/
def RunSafe (n : Nat) (s : State) : Prop := ∀ f, Host.Core.run Sys2Proof.core n s ≠ .fault f

/-! ## Words for the statements -/

/-- `TICKS n`: `n` consecutive ticks (R93). -/
def ticks : Nat → State → State
  | 0, s => s
  | n + 1, s => ticks n (timerTick s)

/-- The collaborator state of R32 is the same in both states. -/
def SameCollaborators (s t : State) : Prop :=
  t.tmrCount = s.tmrCount ∧ t.tmrArmed = s.tmrArmed ∧ t.tmrExpiryPending = s.tmrExpiryPending ∧
    t.cbEnable = s.cbEnable ∧ t.outLevel = s.outLevel

/-- Every byte of the region at an offset `a` with `keep a` reads in `t` as in `s`. -/
def SameBytes (s t : State) (keep : Nat → Prop) : Prop := ∀ a, keep a → readByte t.mem a = readByte s.mem a

/-- No load of the producer comes before the next frame (log 23): the next entry of `loads`, if any, holds none. -/
def NoLoadNext (s : State) : Prop := ∀ addr more, s.loads ≠ some addr :: more

/-- The offsets outside the word at `off`. -/
def outsideWord (off a : Nat) : Prop := a < off ∨ off + wordBytes ≤ a

/-- The transition table of R130: the status values an operation of an initialised device may leave, by the status it
meets. -/
def statusAfter (i : Instr) (st : Status) : List Status :=
  match i with
  | .init _ => if st = .running then [.running] else [.stopped, st]
  | .mapBuffer _ => [st]
  | .start => if st = .stopped then [.running] else [st]
  | .stop => if st = .running then [.stopped] else [st]
  | .reset => if st = .running then [.running] else [.stopped]
  | .getStatus => [st]
  | .push _ _ _ => [st]
  | .pop => if st = .stopped then [.stopped, .errorUnderrun] else [st]
  | .setStatus _ => [st]
  | .tick => [st]
  | .timerExpiry => if st = .running then [.running, .errorUnderrun] else [st]
  | .cell _ _ _ => [st]

end Sys2Proof.Machine
end

