-- ==== Sys2Proof/Certificates/Slice0/Obligations.lean ====
section
/-! DEFINITION. The statements for the provers. Each docstring cites the rule of spec/ the statement formalises, or the
log entry of the model's choice it rests on. -/

open Sys2Proof Sys2Proof.Machine

/-! ## Encodings and the step -/

/-- R85 to R87, R91, R82: every well-formed operation's frame at the head of any stream decodes to it and leaves the
rest; a Cell's three words read back as the Cell. -/
def Obligations.DecodeReadsEveryEncodedOperation : Prop :=
  ∀ (i : Instr) (rest : List Word), i.wf = true →
    if i.isFrame then decode (encode i ++ rest) = .ok i rest
    else (decodeCell (encode i ++ rest)).map (fun c => Instr.cell c.delay c.clearMask c.setMask) = some i

/-- R86, R87, R90: what the decoder accepts is a well-formed frame, and the words it took are that operation's encoding:
no two frames share a meaning and no bit of a frame is ignored. -/
def Obligations.DecodedFramesAreTheirOwnEncodings : Prop :=
  ∀ (ws rest : List Word) (i : Instr), decode ws = .ok i rest →
    i.wf = true ∧ i.isFrame = true ∧ ws = encode i ++ rest

/-- R89: a reserved code, or a word 0 with a bit set in `[31:8]`, is refused: no state changes, the refusal mark is set,
no result is returned. (How many words of the stream it takes is log 9: the statement leaves it open.) -/
def Obligations.ReservedCodesAreRefused : Prop :=
  ∀ (s : State) (code : Word) (ops : List Word), s.push = none → NoLoadNext s → s.trace = code :: ops →
    (code.toNat = 0 ∨ (0x07 ≤ code.toNat ∧ code.toNat ≤ 0x0F) ∨ (0x13 ≤ code.toNat ∧ code.toNat ≤ 0x1F) ∨
      0x22 ≤ code.toNat) →
    ∃ rest t, step s = .next t ∧
      t = { s with trace := rest, loads := s.loads.tail, refusals := s.refusals ++ [.reservedCode] } ∧
      refusalMark t = true

/-- R86 and 95_test_vectors.md section 2.1: words written out from the spec's encodings decode to what they stand for. -/
def Obligations.SpecWordsDecode : Prop :=
  decode [0x00000001#32, 0x00000004#32] = .ok (.init 4#32) [] ∧
  decode [0x00000002#32, 0x00000040#32] = .ok (.mapBuffer 64#32) [] ∧
  decode [0x00000010#32, 0x0000000A#32, 0x00000000#32, 0x00000001#32] = .ok (.push 10#32 0#32 1#32) [] ∧
  decode [0x00000021#32] = .ok .timerExpiry [] ∧
  decode [0x00000103#32] = .reject .reservedCode []

/-- R63, R85, R91: with no `PUSH` in progress and no load of the producer first, the step executes the operation the
stream's head decodes to, with its frame taken off the stream (and the entry of `loads` used up, log 23) and nothing else
changed around it. R87 (the model's choice, log 9): a frame with fewer operand words than its code fixes is refused; how
many words it takes off the stream is left open here. -/
def Obligations.StepRunsTheDecodedFrame : Prop :=
  ∀ s : State, s.push = none → NoLoadNext s →
    (∀ (i : Instr) (rest : List Word), decode s.trace = .ok i rest →
      step s = exec i { s with trace := rest, loads := s.loads.tail }) ∧
    ∀ (code : Word) (ops : List Word), s.trace = code :: ops →
      (((code = 0x01#32 ∨ code = 0x02#32 ∨ code = 0x12#32) ∧ ops.length < 1) ∨ (code = 0x10#32 ∧ ops.length < 3)) →
      ∃ rest, step s =
        .next { s with trace := rest, loads := s.loads.tail, refusals := s.refusals ++ [.truncatedFrame] }

/-- R103: while a `PUSH` is in progress P issues nothing else. The statement says more than the rule, by the model's
choice: with no frame of C or T at the head of the stream the step is the next step of the `PUSH`, and the stream waits.
That is so for a frame of P (R103), for a reserved or truncated frame and an empty stream (log 10), and for a frame
`SET_STATUS` (log 26); loads of the producer wait as well (log 23). -/
def Obligations.ProducerFramesWaitForThePush : Prop :=
  ∀ (s : State) (p : PushInProgress), s.push = some p →
    (∀ i rest, decode s.trace = .ok i rest → agentOf i = .producer) → step s = continuePush p s

/-- R103: a step of C or T may fall between two steps of a `PUSH`; which of the two comes next is the input `preempt`
(log 10). -/
def Obligations.EventsMayFallInsideAPush : Prop :=
  ∀ (s : State) (p : PushInProgress) (i : Instr) (rest : List Word), s.push = some p →
    decode s.trace = .ok i rest → agentOf i ≠ .producer →
    (∀ more, s.preempt = true :: more → step s = exec i { s with trace := rest, preempt := more }) ∧
    (s.preempt.head? ≠ some true → step s = continuePush p { s with preempt := s.preempt.tail })

/-- R132, R135 (the model's choice, log 11): with an empty stream, no `PUSH` in progress and no load of the producer
first, C takes its enabled handler, otherwise T ticks. -/
def Obligations.IdleMachineRunsTheEngine : Prop :=
  ∀ s : State, s.push = none → NoLoadNext s → s.trace = [] →
    (handlerEnabled s = .ok true → step s = exec .timerExpiry { s with loads := s.loads.tail }) ∧
    (handlerEnabled s = .ok false → step s = exec .tick { s with loads := s.loads.tail })

/-! ## Formats and numbers -/

/-- R84: the status encoding; `3 .. 2^W - 1` are reserved. -/
def Obligations.StatusEncodingIsZeroOneTwo : Prop :=
  statusWord .stopped = 0#32 ∧ statusWord .running = 1#32 ∧ statusWord .errorUnderrun = 2#32 ∧
    (∀ st, statusOfWord (statusWord st) = some st) ∧ ∀ w : Word, 3 ≤ w.toNat → statusOfWord w = none

/-- R51 at `W = 32`: the offsets of the control words and of the three words of slot `i`, and `BUFFER_BYTES`. -/
def Obligations.RegionLayoutOffsets : Prop :=
  offRd = 0 ∧ offWr = 4 ∧ offCap = 8 ∧ offSt = 12 ∧
    (∀ i, offDelay i = 16 + 12 * i ∧ offClear i = 20 + 12 * i ∧ offSet i = 24 + 12 * i) ∧
    ∀ c : Word, bufferBytes c = 16 + 12 * c.toNat

/-- R88: the result frames: code 0 and the payload on success, the error's code alone on failure. -/
def Obligations.ResultFramesCarryTheCodes : Prop :=
  resultFrame .ok = [0#32] ∧ (∀ v, resultFrame (.okStatus v) = [0#32, v]) ∧ (∀ b, resultFrame (.okHandle b) = [0#32, b]) ∧
    (∀ c, resultFrame (.okSome c) = [0#32, 1#32, c.delay, c.clearMask, c.setMask]) ∧ resultFrame .okNone = [0#32, 0#32] ∧
    resultFrame (.failed .capacity) = [1#32] ∧ resultFrame (.failed .invalidState) = [2#32] ∧
    resultFrame (.failed .size) = [3#32] ∧ resultFrame (.failed .mapping) = [4#32]

/-! ## The collaborators -/

/-- R33: `TimerLoad(v)`. -/
def Obligations.TimerLoadArmsOrExpires : Prop :=
  ∀ (v : Reg) (s : State),
    (v = 0#32 → timerLoad v s = { s with tmrCount := 0#32, tmrArmed := false, tmrExpiryPending := true }) ∧
    (v ≠ 0#32 → timerLoad v s = { s with tmrCount := v, tmrArmed := true })

/-- R34: one tick, which `TICK` applies (on an initialised device, R41), and "a load of `v >= 1` is followed by exactly one expiry, after exactly `v`
ticks", after which the timer stays idle. -/
def Obligations.CountdownFiresOnceAfterExactlyVTicks : Prop :=
  (∀ s : State, s.devInitialized = true → exec .tick s = .next (timerTick s)) ∧
  (∀ s : State, s.tmrArmed = false → timerTick s = s) ∧
  (∀ s : State, s.tmrArmed = true → s.tmrCount - 1#32 ≠ 0#32 → timerTick s = { s with tmrCount := s.tmrCount - 1#32 }) ∧
  (∀ s : State, s.tmrArmed = true → s.tmrCount - 1#32 = 0#32 →
    timerTick s = { s with tmrCount := 0#32, tmrArmed := false, tmrExpiryPending := true }) ∧
  ∀ (v : Reg) (s : State) (n : Nat), v ≠ 0#32 →
    (n < v.toNat → ticks n (timerLoad v s) = { s with tmrCount := v - BitVec.ofNat 32 n, tmrArmed := true }) ∧
    (v.toNat ≤ n → ticks n (timerLoad v s) =
      { s with tmrCount := 0#32, tmrArmed := false, tmrExpiryPending := true })

/-- R35: `TimerPark()` disarms, discards a pending expiry, and a parked timer ignores ticks: no expiry until the next
load. -/
def Obligations.ParkedTimerIgnoresTicks : Prop :=
  ∀ (s : State) (n : Nat),
    timerPark s = { s with tmrArmed := false, tmrExpiryPending := false, tmrCount := s.cfg.parkValue } ∧
    ticks n (timerPark s) = timerPark s

/-- R39: `CallbackEnable(b)`; with `CB.enable == 0` the handler is never invoked: it is not enabled, whatever the rest of
the state (what a step then does is `HandlerTakesNoStepUnlessEnabled`). -/
def Obligations.CallbackSwitchGatesTheHandler : Prop :=
  (∀ (b : Bool) (s : State), callbackEnable b s = { s with cbEnable := b }) ∧
    ∀ s : State, s.cbEnable = false → handlerEnabled s = .ok false

/-- R37, R38: `OutClear(m)` and `OutSet(m)`, line by line. -/
def Obligations.OutputWritesTouchTheirMaskedLines : Prop :=
  ∀ (m : Reg) (s : State),
    outClear m s = { s with outLevel := s.outLevel &&& ~~~m } ∧ outSet m s = { s with outLevel := s.outLevel ||| m } ∧
    ∀ i < 32, m.getLsbD i = false →
      (outClear m s).outLevel.getLsbD i = s.outLevel.getLsbD i ∧ (outSet m s).outLevel.getLsbD i = s.outLevel.getLsbD i

/-! ## CELL and TICK -/

/-- R134, R133: executing a Cell loads the countdown with its delay and leaves the level `(L & ~k) | s`: a line in both
masks ends high; between the two register writes the level is `L & ~k`. It completes in every state and changes nothing
else. -/
def Obligations.CellSetsTimerAndLines : Prop :=
  ∀ (d k m : Word) (s : State), ∃ t, exec (.cell d k m) s = .next t ∧
    t = { timerLoad d s with outLevel := (s.outLevel &&& ~~~k) ||| m } ∧
    t = outSet m (outClear k (timerLoad d s)) ∧ (outClear k (timerLoad d s)).outLevel = s.outLevel &&& ~~~k ∧
    ∀ i < 32,
      (m.getLsbD i = true → t.outLevel.getLsbD i = true) ∧
      (m.getLsbD i = false → k.getLsbD i = true → t.outLevel.getLsbD i = false) ∧
      (m.getLsbD i = false → k.getLsbD i = false → t.outLevel.getLsbD i = s.outLevel.getLsbD i)

/-- R131: `TICK` completes in every state of an initialised device (before `INIT` it is refused, R41:
`OperationsBeforeInitAreRefused`); it changes the timer only, as one tick does. -/
def Obligations.TickCountsDownByOne : Prop :=
  ∀ s : State, s.devInitialized = true → ∃ t, exec .tick s = .next t ∧
    t = { s with tmrCount := t.tmrCount, tmrArmed := t.tmrArmed, tmrExpiryPending := t.tmrExpiryPending } ∧
    (s.tmrArmed = false → t = s) ∧
    (s.tmrArmed = true → t.tmrCount = s.tmrCount - 1#32) ∧
    (s.tmrArmed = true → s.tmrCount = 1#32 → t.tmrArmed = false ∧ t.tmrExpiryPending = true) ∧
    (s.tmrArmed = true → s.tmrCount ≠ 1#32 → t.tmrArmed = true ∧ t.tmrExpiryPending = s.tmrExpiryPending)

/-! ## INIT and RESET -/

/-- R100: a legal `INIT` of a device that is not RUNNING completes: cursors zero, capacity fixed, status STOPPED; cells,
timer, callback, outputs and the mapping are as before. -/
def Obligations.InitFixesTheRegion : Prop :=
  ∀ (c : Word) (s : State), c ≠ 0#32 → c.toNat ≤ capMax s.cfg →
    (s.devInitialized = true → ∃ st, readStatus s = .ok st ∧ st ≠ .running) →
    ∃ t, exec (.init c) s = .next t ∧ memRead t offRd = .ok 0#32 ∧ memRead t offWr = .ok 0#32 ∧
      memRead t offCap = .ok c ∧ readStatus t = .ok .stopped ∧ SameBytes s t (fun a => 16 ≤ a) ∧
      t = { s with mem := t.mem, devInitialized := true, devMapFailed := false, results := s.results ++ [.ok] }

/-- R100, R181: an illegal capacity gives `CapacityError` whatever the status, and changes nothing; no other operation
and no legal capacity gives it. -/
def Obligations.CapacityErrorOnlyFromIllegalInit : Prop :=
  (∀ (c : Word) (s : State), (c = 0#32 ∨ capMax s.cfg < c.toNat) →
    exec (.init c) s = .next { s with results := s.results ++ [.failed .capacity] }) ∧
  ∀ (i : Instr) (s t : State), exec i s = .next t → t.results = s.results ++ [.failed .capacity] →
    ∃ c, i = .init c ∧ (c = 0#32 ∨ capMax s.cfg < c.toNat)

/-- R182: where each control command is illegal it returns `InvalidStateError`, code 2, with no side effect. -/
def Obligations.InvalidStateErrorHasNoSideEffect : Prop :=
  errorCode .invalidState = 2#32 ∧
  ∀ (s : State) (st : Status), s.devInitialized = true → readStatus s = .ok st →
    (st ≠ .stopped → exec .start s = .next { s with results := s.results ++ [.failed .invalidState] }) ∧
    (st ≠ .running → exec .stop s = .next { s with results := s.results ++ [.failed .invalidState] }) ∧
    (st = .running → exec .reset s = .next { s with results := s.results ++ [.failed .invalidState] }) ∧
    (st = .running → ∀ c : Word, c ≠ 0#32 → c.toNat ≤ capMax s.cfg →
      exec (.init c) s = .next { s with results := s.results ++ [.failed .invalidState] })

/-- R101: `RESET` outside RUNNING completes: both cursors 0, status STOPPED; capacity, cells and everything else as
before. -/
def Obligations.ResetEmptiesTheBuffer : Prop :=
  ∀ (s : State) (st : Status), s.devInitialized = true → readStatus s = .ok st → st ≠ .running →
    ∃ t, exec .reset s = .next t ∧ memRead t offRd = .ok 0#32 ∧ memRead t offWr = .ok 0#32 ∧
      readStatus t = .ok .stopped ∧ SameBytes s t (fun a => (8 ≤ a ∧ a < 12) ∨ 16 ≤ a) ∧
      t = { s with mem := t.mem, results := s.results ++ [.ok] }

/-- R101: a second `RESET` in a row produces the same state (but for the second result). -/
def Obligations.ResetIsIdempotent : Prop :=
  ∀ (s : State) (st : Status), s.devInitialized = true → readStatus s = .ok st → st ≠ .running →
    ∃ t u, exec .reset s = .next t ∧ exec .reset t = .next u ∧ SameBytes t u (fun _ => True) ∧
      u = { t with mem := u.mem, results := t.results ++ [.ok] }

/-- R41, R111, R162, R211: before the first successful `INIT` every operation but `INIT` is refused, the events `TICK` and
`TIMER_EXPIRY` among them (log 13), with no state change and no result. (A stand-alone `SET_STATUS` is refused in every
state, see `StandAloneSetStatusIsRefused`.) -/
def Obligations.OperationsBeforeInitAreRefused : Prop :=
  ∀ (s : State), s.devInitialized = false → ∀ (i : Instr),
    (i = .start ∨ i = .stop ∨ i = .reset ∨ i = .getStatus ∨ i = .pop ∨ i = .tick ∨ i = .timerExpiry ∨
      (∃ z, i = .mapBuffer z) ∨ ∃ d k m, i = .push d k m) →
    exec i s = .next { s with refusals := s.refusals ++ [.notInitialised] }

/-! ## PUSH -/

/-- R102, R103 step 1: an admitted `PUSH` completes its first step: it loads `write_index` and `capacity`, and nothing
but the `PUSH` in progress changes. -/
def Obligations.PushLoadsCursorAndCapacity : Prop :=
  ∀ (d k m w c : Word) (s : State), s.devInitialized = true → s.devMapped = true → s.devMapFailed = false →
    memRead s offWr = .ok w → memRead s offCap = .ok c → w < c →
    exec (.push d k m) s = .next { s with push := some ⟨.storeDelay, w, c, ⟨d, k, m⟩⟩ }

/-- R103 steps 2 to 5: each further step stores exactly its one word, at the offset its stage names, and goes to the next
stage; the last one stores `next(w)` to `write_index`, ends the `PUSH` and returns `OK`. -/
def Obligations.PushStepStoresOneWord : Prop :=
  ∀ (p : PushInProgress) (s : State), p.w < p.c → p.c.toNat ≤ capMax s.cfg →
    ∃ t, continuePush p s = .next t ∧
      match p.stage with
      | .storeDelay => memRead t (offDelay p.w.toNat) = .ok p.cell.delay ∧
          SameBytes s t (outsideWord (offDelay p.w.toNat)) ∧
          t = { s with mem := t.mem, push := some { p with stage := .storeClear } }
      | .storeClear => memRead t (offClear p.w.toNat) = .ok p.cell.clearMask ∧
          SameBytes s t (outsideWord (offClear p.w.toNat)) ∧
          t = { s with mem := t.mem, push := some { p with stage := .storeSet } }
      | .storeSet => memRead t (offSet p.w.toNat) = .ok p.cell.setMask ∧
          SameBytes s t (outsideWord (offSet p.w.toNat)) ∧
          t = { s with mem := t.mem, push := some { p with stage := .publish } }
      | .publish => memRead t offWr = .ok (nextIndex p.w p.c) ∧ SameBytes s t (outsideWord offWr) ∧
          t = { s with mem := t.mem, push := none, results := s.results ++ [.ok] }

/-- R102, R103: an admitted `PUSH` whose frame is the whole stream is done after five steps: the cell stands in slot
`write_index`, `write_index` is `next(write_index)`, the result is `OK`, and no other byte and no other state changed. -/
def Obligations.PushTakesFiveSteps : Prop :=
  ∀ (d k m w c : Word) (s : State), s.push = none → NoLoadNext s → s.trace = encode (.push d k m) →
    s.devInitialized = true → s.devMapped = true → s.devMapFailed = false →
    memRead s offWr = .ok w → memRead s offCap = .ok c → w < c → c.toNat ≤ capMax s.cfg →
    ∃ t, Host.Core.run Sys2Proof.core 5 s = .next t ∧ readCell t w = .ok ⟨d, k, m⟩ ∧
      memRead t offWr = .ok (nextIndex w c) ∧
      SameBytes s t (fun a => outsideWord offWr a ∧ (a < offCell w.toNat ∨ offCell w.toNat + 12 ≤ a)) ∧
      t = { s with mem := t.mem, trace := [], loads := s.loads.tail, results := s.results ++ [.ok] }

/-- R41, R102: a `PUSH` after a `MappingError`, or without a mapping, is refused. -/
def Obligations.PushWithoutMappingIsRefused : Prop :=
  ∀ (d k m : Word) (s : State), s.devInitialized = true →
    (s.devMapFailed = true → exec (.push d k m) s = .next { s with refusals := s.refusals ++ [.mappingFailed] }) ∧
    (s.devMapFailed = false → s.devMapped = false →
      exec (.push d k m) s = .next { s with refusals := s.refusals ++ [.notMapped] })

/-! ## POP, SET_STATUS, GET_STATUS -/

/-- R104, R105: a direct `POP` of a STOPPED device whose buffer is not empty returns the cell at the head and advances
`read_index`; no other byte and no other state changes. -/
def Obligations.PopReturnsTheHeadCell : Prop :=
  ∀ (s : State) (x : Cell) (q : List Cell), s.devInitialized = true → readStatus s = .ok .stopped →
    HoldsQueue s (x :: q) →
    ∃ t r c, memRead s offRd = .ok r ∧ memRead s offCap = .ok c ∧ exec .pop s = .next t ∧
      memRead t offRd = .ok (nextIndex r c) ∧ HoldsQueue t q ∧ SameBytes s t (outsideWord offRd) ∧
      t = { s with mem := t.mem, results := s.results ++ [.okSome x] }

/-- R104 (d), R185: a direct `POP` of a STOPPED device whose cursors are equal returns `none` and records the underrun
in the status word, and nothing else. -/
def Obligations.PopOnEmptyBufferUnderruns : Prop :=
  ∀ (s : State) (r : Word), s.devInitialized = true → readStatus s = .ok .stopped →
    memRead s offRd = .ok r → memRead s offWr = .ok r →
    ∃ t, exec .pop s = .next t ∧ readStatus t = .ok .errorUnderrun ∧ SameBytes s t (outsideWord offSt) ∧
      t = { s with mem := t.mem, results := s.results ++ [.okNone] }

/-- R104 (a): in ERROR_UNDERRUN a direct `POP` returns `none` and changes nothing. -/
def Obligations.PopIsTerminalAfterUnderrun : Prop :=
  ∀ s : State, s.devInitialized = true → readStatus s = .ok .errorUnderrun →
    exec .pop s = .next { s with results := s.results ++ [.okNone] }

/-- R105: a direct `POP` is refused while the status is RUNNING. -/
def Obligations.PopWhileRunningIsRefused : Prop :=
  ∀ s : State, s.devInitialized = true → readStatus s = .ok .running →
    exec .pop s = .next { s with refusals := s.refusals ++ [.popWhileRunning] }

/-- R109, R90, D37: a stand-alone `SET_STATUS` is refused in every state: nothing but the refusal mark changes. So is its
frame at the head of the stream, with `s <= 2` and with a reserved `s > 2` (R90). Its store as the internal primitive writes
the status word and no other byte. -/
def Obligations.StandAloneSetStatusIsRefused : Prop :=
  (∀ (v : Word) (ops : List Word) (s : State), s.push = none → NoLoadNext s → s.trace = 0x12#32 :: v :: ops →
    step s = .next { s with
      trace := ops, loads := s.loads.tail,
      refusals := s.refusals ++ [if 2 < v.toNat then .reservedStatusOperand else .standAloneSetStatus] }) ∧
  (∀ (v : Word) (s : State), exec (.setStatus v) s = .next { s with refusals := s.refusals ++ [.standAloneSetStatus] }) ∧
  ∀ (st : Status) (s : State), offSt + wordBytes ≤ s.cfg.regionBytes →
    ∃ t, Sys2Proof.Machine.setStatus s st = .ok t ∧ readStatus t = .ok st ∧ SameBytes s t (outsideWord offSt) ∧
      t = { s with mem := t.mem }

/-- R110: `GET_STATUS` returns the status word and changes nothing. -/
def Obligations.GetStatusReturnsTheStatusWord : Prop :=
  ∀ (s : State) (st : Status), s.devInitialized = true → memRead s offSt = .ok (statusWord st) →
    exec .getStatus s = .next { s with results := s.results ++ [.okStatus (statusWord st)] }

/-! ## MAP_BUFFER -/

/-- R165: with a size that fits and a platform that can expose the memory, `MAP_BUFFER` completes with the handle; only
the mapping flag changes (and one input `map_ok` is used up). -/
def Obligations.MapBufferReturnsTheHandle : Prop :=
  ∀ (z c : Word) (s : State), s.devInitialized = true → s.devMapFailed = false → memRead s offCap = .ok c →
    z.toNat ≤ bufferBytes c → mapOkInput s = true →
    exec (.mapBuffer z) s = .next { s with
      devMapped := true, mapOk := s.mapOk.tail, mapDraws := s.mapDraws + 1,
      results := s.results ++ [.okHandle s.cfg.baseU] }

/-- R183: `SizeError`, code 3, comes from `MAP_BUFFER` with `size > BUFFER_BYTES` and from nothing else, with no side effect. -/
def Obligations.SizeErrorOnlyFromOversizedMapping : Prop :=
  errorCode .size = 3#32 ∧
  (∀ (z c : Word) (s : State), s.devInitialized = true → s.devMapFailed = false → memRead s offCap = .ok c →
    bufferBytes c < z.toNat → exec (.mapBuffer z) s = .next { s with results := s.results ++ [.failed .size] }) ∧
  ∀ (i : Instr) (s t : State), exec i s = .next t → t.results = s.results ++ [.failed .size] →
    ∃ z c, i = .mapBuffer z ∧ memRead s offCap = .ok c ∧ bufferBytes c < z.toNat

/-- R165, R184, R41: a platform failure returns `MappingError` and kills the session: `PUSH` and `MAP_BUFFER` are refused
in the state it leaves and in every state with the mark set, and no operation and no step of a `PUSH` clears the mark but a
successful `INIT`, which does. -/
def Obligations.MappingErrorKillsTheSession : Prop :=
  (∀ s : State, s.devInitialized = true → s.devMapFailed = true →
    (∀ d k m, exec (.push d k m) s = .next { s with refusals := s.refusals ++ [.mappingFailed] }) ∧
    ∀ y, exec (.mapBuffer y) s = .next { s with refusals := s.refusals ++ [.mappingFailed] }) ∧
  (∀ (i : Instr) (s t : State), exec i s = .next t → s.devMapFailed = true → t.devMapFailed = false →
    ∃ c, i = .init c ∧ t.results = s.results ++ [.ok]) ∧
  (∀ (p : PushInProgress) (s t : State), continuePush p s = .next t → t.devMapFailed = s.devMapFailed) ∧
  ∀ (z c : Word) (s : State), s.devInitialized = true → s.devMapFailed = false → memRead s offCap = .ok c →
    z.toNat ≤ bufferBytes c → mapOkInput s = false →
    ∃ t, exec (.mapBuffer z) s = .next t ∧
      t = { s with
        devMapFailed := true, devMapped := false, mapOk := s.mapOk.tail, mapDraws := s.mapDraws + 1,
        results := s.results ++ [.failed .mapping] } ∧
      (∀ d k m, exec (.push d k m) t = .next { t with refusals := t.refusals ++ [.mappingFailed] }) ∧
      (∀ y, exec (.mapBuffer y) t = .next { t with refusals := t.refusals ++ [.mappingFailed] }) ∧
      ∀ n u, exec (.init n) t = .next u → u.results = t.results ++ [.ok] → u.devMapFailed = false

/-! ## START, STOP and the handler -/

/-- R140: `START` from STOPPED completes: the countdown is loaded with `INITIAL_TICKS`, the callback enabled, the status
RUNNING; cursors, cells, outputs and everything else as before. -/
def Obligations.StartArmsTheEngine : Prop :=
  ∀ s : State, s.devInitialized = true → readStatus s = .ok .stopped →
    ∃ t, exec .start s = .next t ∧ readStatus t = .ok .running ∧ SameBytes s t (outsideWord offSt) ∧
      t = { timerLoad s.cfg.initialTicks s with
        mem := t.mem, cbEnable := true, results := s.results ++ [.ok] }

/-- R142: `STOP` from RUNNING completes: the timer is parked (a pending expiry discarded), the callback disabled, the
status STOPPED; cursors, cells and outputs as before. -/
def Obligations.StopParksTheEngine : Prop :=
  ∀ s : State, s.devInitialized = true → readStatus s = .ok .running →
    ∃ t, exec .stop s = .next t ∧ readStatus t = .ok .stopped ∧ SameBytes s t (outsideWord offSt) ∧
      t = { s with
        mem := t.mem, tmrCount := s.cfg.parkValue, tmrArmed := false, tmrExpiryPending := false,
        cbEnable := false, results := s.results ++ [.ok] }

/-- R39, R142 ("no `TIMER_EXPIRY` step is enabled until the next `START`"), R191: nothing but `START` enables the
callback. -/
def Obligations.OnlyStartEnablesTheCallback : Prop :=
  (∀ (i : Instr) (s t : State), exec i s = .next t → s.cbEnable = false → t.cbEnable = true → i = .start) ∧
  ∀ (p : PushInProgress) (s t : State), continuePush p s = .next t → t.cbEnable = s.cbEnable

/-- R136: on an initialised device with the handler enabled and a cell pending, `TIMER_EXPIRY` completes: the expiry is acknowledged, the head
cell consumed, the countdown loaded with its delay, and its masks applied, clear before set; the status stays RUNNING. -/
def Obligations.HandlerExecutesTheHeadCell : Prop :=
  ∀ (s : State) (x : Cell) (q : List Cell), s.devInitialized = true → s.tmrExpiryPending = true → s.cbEnable = true →
    readStatus s = .ok .running → HoldsQueue s (x :: q) →
    ∃ t r c, memRead s offRd = .ok r ∧ memRead s offCap = .ok c ∧ exec .timerExpiry s = .next t ∧
      memRead t offRd = .ok (nextIndex r c) ∧ HoldsQueue t q ∧ readStatus t = .ok .running ∧
      SameBytes s t (outsideWord offRd) ∧
      t = { s with
        mem := t.mem, tmrCount := x.delay, tmrArmed := decide (x.delay ≠ 0#32),
        tmrExpiryPending := decide (x.delay = 0#32),
        outLevel := (s.outLevel &&& ~~~x.clearMask) ||| x.setMask }

/-- R136 (b), R185: on an initialised device with the handler enabled and the cursors equal, `TIMER_EXPIRY` records the underrun, parks the timer
and disables the callback; the outputs and both cursors stay. -/
def Obligations.HandlerUnderrunsOnEmptyBuffer : Prop :=
  ∀ (s : State) (r : Word), s.devInitialized = true → s.tmrExpiryPending = true → s.cbEnable = true → readStatus s = .ok .running →
    memRead s offRd = .ok r → memRead s offWr = .ok r →
    ∃ t, exec .timerExpiry s = .next t ∧ readStatus t = .ok .errorUnderrun ∧ SameBytes s t (outsideWord offSt) ∧
      t = { s with
        mem := t.mem, tmrCount := s.cfg.parkValue, tmrArmed := false, tmrExpiryPending := false,
        cbEnable := false }

/-- R135: the handler takes no step unless the expiry is pending, the callback enabled and the status RUNNING (that a
frame `TIMER_EXPIRY` then changes nothing is log 12; before `INIT` it is refused, see `OperationsBeforeInitAreRefused`). -/
def Obligations.HandlerTakesNoStepUnlessEnabled : Prop :=
  ∀ s : State, s.devInitialized = true →
    (s.tmrExpiryPending = false → exec .timerExpiry s = .next s) ∧
    (s.cbEnable = false → exec .timerExpiry s = .next s) ∧
    ∀ st, readStatus s = .ok st → st ≠ .running → exec .timerExpiry s = .next s

/-- R138: on an initialised device, after the handler executed a cell, it is enabled again exactly `delay` ticks later (at once if the delay is
0), and not before. -/
def Obligations.NextExpiryComesExactlyDelayTicksLater : Prop :=
  ∀ (s : State) (x : Cell) (q : List Cell), s.devInitialized = true → s.tmrExpiryPending = true → s.cbEnable = true →
    readStatus s = .ok .running → HoldsQueue s (x :: q) →
    ∃ t, exec .timerExpiry s = .next t ∧ (∀ n < x.delay.toNat, handlerEnabled (ticks n t) = .ok false) ∧
      handlerEnabled (ticks x.delay.toNat t) = .ok true

/-- R138, R140: after `START` the handler is enabled exactly `INITIAL_TICKS` ticks later, for a timer that was idle. -/
def Obligations.FirstExpiryComesInitialTicksAfterStart : Prop :=
  ∀ s : State, s.devInitialized = true → readStatus s = .ok .stopped → s.tmrExpiryPending = false →
    ∃ t, exec .start s = .next t ∧ (∀ n < s.cfg.initialTicks.toNat, handlerEnabled (ticks n t) = .ok false) ∧
      handlerEnabled (ticks s.cfg.initialTicks.toNat t) = .ok true

/-! ## Whole-machine rules -/

/-- R130: no operation of an initialised device takes the status anywhere the transition table does not, and no step of a
`PUSH` changes it. -/
def Obligations.StatusFollowsTheTransitionTable : Prop :=
  (∀ (i : Instr) (s t : State) (st : Status), s.devInitialized = true → readStatus s = .ok st → exec i s = .next t →
    ∃ st', readStatus t = .ok st' ∧ st' ∈ statusAfter i st) ∧
  ∀ (p : PushInProgress) (s t : State), continuePush p s = .next t → readStatus t = readStatus s

/-- R112: from ERROR_UNDERRUN only `RESET` and `INIT` lead out, and only they change `read_index`. -/
def Obligations.UnderrunIsTerminalUntilResetOrInit : Prop :=
  (∀ (i : Instr) (s t : State), readStatus s = .ok .errorUnderrun → exec i s = .next t → i ≠ .reset →
    (∀ c, i ≠ .init c) → readStatus t = .ok .errorUnderrun ∧ memRead t offRd = memRead s offRd) ∧
  ∀ (p : PushInProgress) (s t : State), readStatus s = .ok .errorUnderrun → continuePush p s = .next t →
    readStatus t = .ok .errorUnderrun ∧ memRead t offRd = memRead s offRd

/-- R30, R27, R23: who may change which bytes of the region. No operation but a `PUSH` in progress changes a cell or
advances `write_index`; only `INIT` changes the capacity; only `INIT`, `RESET`, `POP` and the handler change
`read_index`; only these, `START` and `STOP` change the status. -/
def Obligations.OnlyOwnersChangeTheRegion : Prop :=
  (∀ (i : Instr) (s t : State), exec i s = .next t →
    SameBytes s t (fun a => 16 ≤ a) ∧
    ((∀ c, i ≠ .init c) → SameBytes s t (fun a => 8 ≤ a ∧ a < 12)) ∧
    ((∀ c, i ≠ .init c) → i ≠ .reset → SameBytes s t (fun a => 4 ≤ a ∧ a < 8)) ∧
    ((∀ c, i ≠ .init c) → i ≠ .reset → i ≠ .pop → i ≠ .timerExpiry → SameBytes s t (fun a => a < 4)) ∧
    ((∀ c, i ≠ .init c) → i ≠ .reset → i ≠ .pop → i ≠ .timerExpiry → i ≠ .start → i ≠ .stop →
      SameBytes s t (fun a => 12 ≤ a ∧ a < 16))) ∧
  ∀ (p : PushInProgress) (s t : State), continuePush p s = .next t → SameBytes s t (fun a => a < 4 ∨ (8 ≤ a ∧ a < 16))

/-- R32, R195, R30: only `START`, `STOP`, `TICK`, the handler and the Cell it executes change the collaborators; no step
of a `PUSH` and no other operation does. -/
def Obligations.ProducerNeverTouchesTheCollaborators : Prop :=
  (∀ (i : Instr) (s t : State), exec i s = .next t → i ≠ .start → i ≠ .stop → i ≠ .tick → i ≠ .timerExpiry →
    (∀ d k m, i ≠ .cell d k m) → SameCollaborators s t) ∧
  ∀ (p : PushInProgress) (s t : State), continuePush p s = .next t → SameCollaborators s t

/-- R214 ("only executing a cell changes it"), R134, R136 (b), R142, D24: the output level changes only by executing a
Cell, and then to that Cell's level: the Cell executed as such, or the cell in slot `read_index` of a buffer whose cursors
differ, executed by the enabled handler. No step of a `PUSH` changes it. -/
def Obligations.OutputsChangeOnlyByExecutingACell : Prop :=
  (∀ (i : Instr) (s t : State), exec i s = .next t → t.outLevel ≠ s.outLevel →
    ∃ x : Cell, t.outLevel = (s.outLevel &&& ~~~x.clearMask) ||| x.setMask ∧
      (i = .cell x.delay x.clearMask x.setMask ∨
       (i = .timerExpiry ∧ handlerEnabled s = .ok true ∧
        ∃ r w, memRead s offRd = .ok r ∧ memRead s offWr = .ok w ∧ r ≠ w ∧ readCell s r = .ok x))) ∧
  ∀ (p : PushInProgress) (s t : State), continuePush p s = .next t → t.outLevel = s.outLevel

/-- R8, R67: no step changes the platform parameters; the region is never resized. -/
def Obligations.StepKeepsTheConfiguration : Prop :=
  ∀ s t : State, step s = .next t → t.cfg = s.cfg

/-- R25 and U4: an operation that reads a reserved status faults, whichever of the seven that read it. R113 and U5, as
log 16 reads them (the model's inference: the fault comes where the cell address is formed, which in `PUSH` is its first
step, and `POP` checks both cursors): a cursor that is not below the capacity faults in `PUSH`, in a direct `POP` and in the
handler. No state of an initialised device that satisfies `Inv` is such a state. -/
def Obligations.UndefinedRegionStatesFault : Prop :=
  (∀ (s : State) (w : Word), s.devInitialized = true → memRead s offSt = .ok w → 3 ≤ w.toNat →
    ∀ i : Instr,
      (i = .start ∨ i = .stop ∨ i = .reset ∨ i = .getStatus ∨ i = .pop ∨
        (∃ c, i = .init c ∧ c ≠ 0#32 ∧ c.toNat ≤ capMax s.cfg) ∨
        (i = .timerExpiry ∧ s.tmrExpiryPending = true ∧ s.cbEnable = true)) →
      exec i s = .fault (.reservedStatus w)) ∧
  (∀ (d k m w c : Word) (s : State), s.devInitialized = true → s.devMapped = true → s.devMapFailed = false →
    memRead s offWr = .ok w → memRead s offCap = .ok c → c ≤ w →
    exec (.push d k m) s = .fault (.cursorOutOfRange w c)) ∧
  (∀ (r w c : Word) (s : State) (i : Instr), s.devInitialized = true →
    ((i = .pop ∧ readStatus s = .ok .stopped) ∨
      (i = .timerExpiry ∧ s.tmrExpiryPending = true ∧ s.cbEnable = true ∧ readStatus s = .ok .running)) →
    memRead s offRd = .ok r → memRead s offWr = .ok w → r ≠ w → memRead s offCap = .ok c →
    (c ≤ r → exec i s = .fault (.cursorOutOfRange r c)) ∧
    (r < c → c ≤ w → exec i s = .fault (.cursorOutOfRange w c))) ∧
  ∀ s : State, Inv s → s.devInitialized = true →
    ∃ st r w c, readStatus s = .ok st ∧ memRead s offRd = .ok r ∧ memRead s offWr = .ok w ∧ memRead s offCap = .ok c ∧
      r < c ∧ w < c

/-! ## Invariants and the queue -/

/-- R43 first column, R211: the state at attach. (`TMR.count` and `OUT.level` are the model's choice, log 5, and not
stated; that no byte of the region has a value there is R211's "treats a read as a fault", log 4.) -/
def Obligations.AttachStateIsUninitialisedAndIdle : Prop :=
  State.reset.tmrArmed = false ∧ State.reset.tmrExpiryPending = false ∧ State.reset.cbEnable = false ∧
    State.reset.devInitialized = false ∧ State.reset.devMapped = false ∧ State.reset.devMapFailed = false ∧
    State.reset.push = none ∧ ∀ a, readByte State.reset.mem a = none

/-- R28, R40, R41: the invariant holds at attach. -/
def Obligations.AttachStateSatisfiesInv : Prop := Inv State.reset

/-- R28, R40, R41, R50: every step of every agent keeps the invariant, under every interleaving. -/
def Obligations.EveryStepKeepsInv : Prop :=
  ∀ s t : State, Inv s → step s = .next t → Inv t

/-- R28, R42, R113: from a state that satisfies the invariant the next step completes: no undefined behaviour of
93_implementation_defined.md (reserved status, cursor out of range, unwritten or absent memory) is met by any operation or
frame, whatever the interleaving. The one fault there is comes from no operation: the producer itself loads a word of the
structure that nothing has written (U10, log 4). -/
def Obligations.StepFromInvNeverFaults : Prop :=
  ∀ s : State, Inv s →
    ((∀ addr s', nextMove s ≠ .load addr s') → StepSafe s ∧ ∃ t, step s = .next t) ∧
    ((∃ t, step s = .next t) ∨
      ∃ addr s', nextMove s = .load addr s' ∧ loadWord s.mem (mappedOffset addr s) = none ∧
        step s = .fault (.unwrittenRead (mappedOffset addr s)))

/-- R103, R221: no torn cell: while a `PUSH` is storing its cell, the pending cells are untouched. -/
def Obligations.UnpublishedPushLeavesThePendingCells : Prop :=
  ∀ (s t : State) (p : PushInProgress) (q : List Cell), Inv s → s.push = some p → p.stage ≠ .publish →
    HoldsQueue s q → continuePush p s = .next t → HoldsQueue t q

/-- R102, R220: the publishing store appends the cell to the pending ones; when `capacity - 1` cells were pending it
makes the cursors equal instead, and all of them are lost without a sign. -/
def Obligations.PublishAppendsOrLaps : Prop :=
  ∀ (s t : State) (p : PushInProgress) (q : List Cell), Inv s → s.push = some p → p.stage = .publish →
    HoldsQueue s q → continuePush p s = .next t →
    (q.length + 1 < p.c.toNat → HoldsQueue t (q ++ [p.cell])) ∧ (q.length + 1 = p.c.toNat → HoldsQueue t [])

/-- R57, R61, R63, R107, R220: under every interleaving of the three agents the buffer is a FIFO queue: a step leaves the
pending cells as they are, takes the first one (`POP` or the handler), appends the published one (or, when it laps, loses
them all), or empties the buffer (`RESET`, `INIT`). -/
def Obligations.EveryStepActsOnTheBufferAsAQueue : Prop :=
  ∀ (s t : State) (q : List Cell), Inv s → s.devInitialized = true → HoldsQueue s q → step s = .next t →
    ∃ q', HoldsQueue t q' ∧
      (q' = q ∨
       (∃ x s', q = x :: q' ∧ (nextMove s = .run .pop s' ∨ nextMove s = .run .timerExpiry s')) ∨
       (∃ p s', s.push = some p ∧ p.stage = .publish ∧ nextMove s = .pushOn p s' ∧
          q' = if q.length + 1 < p.c.toNat then q ++ [p.cell] else []) ∨
       (q' = [] ∧ ∃ s', nextMove s = .run .reset s' ∨ ∃ c, nextMove s = .run (.init c) s'))

/-! ## Loads of the producer -/

/-- R166, R59, R66, R110, R50 (the model's choices: where the load falls, log 23; what is refused, log 29; 32-bit addresses that wrap, log 30; that a
reserved status is returned and does not fault, log 31): between
frames the producer may load any word of the structure through its mapping. The load gives the word at
`address - BASE_U`, modulo `2^32`, and changes nothing but the list of loaded words; one that is misaligned (U7), outside the structure,
without a mapping or before `INIT` is refused, and no load changes anything else. -/
def Obligations.ProducerLoadsAnyWordOfTheStructure : Prop :=
  (∀ (s : State) (addr : Word) (more : List (Option Word)), s.push = none → s.loads = some addr :: more →
    step s = stepLoad addr { s with loads := more }) ∧
  (∀ (s : State) (addr c : Word), s.devInitialized = true → s.devMapped = true → memRead s offCap = .ok c →
    (∀ v : Word, (addr - s.cfg.baseU).toNat % 4 = 0 → (addr - s.cfg.baseU).toNat + 4 ≤ bufferBytes c →
      memRead s (addr - s.cfg.baseU).toNat = .ok v →
      stepLoad addr s = .next { s with loaded := s.loaded ++ [v] }) ∧
    ((addr - s.cfg.baseU).toNat % 4 ≠ 0 →
      stepLoad addr s = .next { s with refusals := s.refusals ++ [.misalignedLoad] }) ∧
    ((addr - s.cfg.baseU).toNat % 4 = 0 → bufferBytes c < (addr - s.cfg.baseU).toNat + 4 →
      stepLoad addr s = .next { s with refusals := s.refusals ++ [.outsideMapping] })) ∧
  (∀ (s : State) (addr : Word),
    (s.devInitialized = true → s.devMapped = false →
      stepLoad addr s = .next { s with refusals := s.refusals ++ [.notMapped] }) ∧
    (s.devInitialized = false → stepLoad addr s = .next { s with refusals := s.refusals ++ [.notInitialised] })) ∧
  ∀ (s t : State) (addr : Word), stepLoad addr s = .next t → t = { s with loaded := t.loaded, refusals := t.refusals }
end

