-- ==== Sys2Proof/Laws/Memory.lean ====
section
/-! SUPPORT. The laws of the shared region: bytes, words, the canonical form, and what each access can do. -/

namespace Sys2Proof.Machine

/-! ## Bytes -/

theorem readByte_writeByte (m : Memory) (a x : Nat) (b : Byte) :
    readByte (writeByte m a b) x = if a = x then some b else readByte m x := by
  induction m with
  | nil => simp [writeByte, readByte]
  | cons e m ih =>
    obtain ⟨y, v⟩ := e
    simp only [writeByte]
    split
    · simp only [readByte]
    · split
      · subst_vars; simp only [readByte]; split <;> simp_all
      · simp only [readByte, ih]
        split <;> split <;> simp_all

theorem readByte_writeByte_same (m : Memory) (a : Nat) (b : Byte) : readByte (writeByte m a b) a = some b := by
  simp [readByte_writeByte]

theorem readByte_writeByte_ne (m : Memory) {a x : Nat} (b : Byte) (h : a ≠ x) :
    readByte (writeByte m a b) x = readByte m x := by
  simp [readByte_writeByte, h]

/-- Every offset listed after a store was listed before or is the offset stored to. -/
theorem mem_writeByte {m : Memory} {a : Nat} {b : Byte} {e : Host.Cell} (h : e ∈ writeByte m a b) :
    e = (a, b) ∨ e ∈ m := by
  induction m with
  | nil => simpa [writeByte] using h
  | cons d m ih =>
    obtain ⟨x, v⟩ := d
    simp only [writeByte] at h
    split at h
    · simpa using h
    · split at h
      · simp only [List.mem_cons] at h ⊢; tauto
      · simp only [List.mem_cons] at h ⊢
        rcases h with h | h
        · tauto
        · rcases ih h with h | h <;> tauto

/-- A store keeps the canonical form. -/
theorem wf_writeByte {m : Memory} (a : Nat) (b : Byte) (h : m.wf = true) : (writeByte m a b).wf = true := by
  induction m with
  | nil => simp [writeByte, Memory.wf, unlisted]
  | cons e m ih =>
    obtain ⟨x, v⟩ := e
    simp only [Memory.wf, Bool.and_eq_true, List.all_eq_true, decide_eq_true_eq] at h
    obtain ⟨⟨hv, hx⟩, hm⟩ := h
    simp only [writeByte]
    split
    next hlt =>
      simp only [Memory.wf, Bool.and_eq_true, List.all_eq_true, decide_eq_true_eq, List.mem_cons]
      refine ⟨⟨by simp [unlisted], ?_⟩, ⟨hv, hx⟩, hm⟩
      rintro e (rfl | he)
      · exact hlt
      · exact hlt.trans (hx e he)
    next hnlt =>
      split
      next heq =>
        subst heq
        simp only [Memory.wf, Bool.and_eq_true, List.all_eq_true, decide_eq_true_eq]
        exact ⟨⟨by simp [unlisted], hx⟩, hm⟩
      next hne =>
        simp only [Memory.wf, Bool.and_eq_true, List.all_eq_true, decide_eq_true_eq]
        refine ⟨⟨hv, ?_⟩, ih hm⟩
        intro e he
        rcases mem_writeByte he with rfl | he
        · simp only; omega
        · exact hx e he

/-! ## Words -/

theorem wordOfBytes_byteOfWord (w : Word) :
    wordOfBytes (byteOfWord w 0) (byteOfWord w 1) (byteOfWord w 2) (byteOfWord w 3) = w := by
  apply BitVec.eq_of_getLsbD_eq
  intro i hi
  simp only [wordOfBytes, byteOfWord, BitVec.getLsbD_append, BitVec.getLsbD_extractLsb']
  repeat' split
  all_goals
    rw [decide_eq_true (by omega), Bool.true_and]
    congr 1
    omega

theorem loadWord_storeWord_same (m : Memory) (off : Nat) (v : Word) : loadWord (storeWord m off v) off = some v := by
  simp [loadWord, storeWord, readByte_writeByte, wordOfBytes_byteOfWord]

/-- Every byte outside the four stored ones reads as before. -/
theorem readByte_storeWord_outside (m : Memory) (off : Nat) (v : Word) {a : Nat} (h : a < off ∨ off + 4 ≤ a) :
    readByte (storeWord m off v) a = readByte m a := by
  simp only [storeWord, readByte_writeByte]
  repeat rw [if_neg (by omega)]

/-- A word that does not overlap the stored one reads as before. -/
theorem loadWord_storeWord_disjoint (m : Memory) (off : Nat) (v : Word) {x : Nat} (h : x + 4 ≤ off ∨ off + 4 ≤ x) :
    loadWord (storeWord m off v) x = loadWord m x := by
  simp only [loadWord]
  repeat rw [readByte_storeWord_outside _ _ _ (by omega)]

theorem wf_storeWord {m : Memory} (off : Nat) (v : Word) (h : m.wf = true) : (storeWord m off v).wf = true :=
  wf_writeByte _ _ (wf_writeByte _ _ (wf_writeByte _ _ (wf_writeByte _ _ h)))

/-- A store lists no offset but its own four. -/
theorem mem_storeWord {m : Memory} {off : Nat} {v : Word} {e : Host.Cell} (h : e ∈ storeWord m off v) :
    (off ≤ e.1 ∧ e.1 < off + 4) ∨ e ∈ m := by
  simp only [storeWord] at h
  rcases mem_writeByte h with rfl | h
  · left; simp only; omega
  rcases mem_writeByte h with rfl | h
  · left; simp only; omega
  rcases mem_writeByte h with rfl | h
  · left; simp only; omega
  rcases mem_writeByte h with rfl | h
  · left; simp only; omega
  · exact .inr h

/-! ## Accesses -/

theorem inRegion_iff (s : State) (off : Nat) : inRegion s off = true ↔ off + 4 ≤ s.cfg.regionBytes := by
  simp [inRegion]

/-- Everything a load can answer. -/
theorem memRead_ok_iff {s : State} {off : Nat} {v : Word} :
    memRead s off = .ok v ↔ off + 4 ≤ s.cfg.regionBytes ∧ loadWord s.mem off = some v := by
  simp only [memRead, inRegion, decide_eq_true_eq]
  split
  · split <;> simp_all
  · simp_all

/-- Everything a store can answer. -/
theorem memWrite_ok_iff {s t : State} {off : Nat} {v : Word} :
    memWrite s off v = .ok t ↔ off + 4 ≤ s.cfg.regionBytes ∧ t = { s with mem := storeWord s.mem off v } := by
  simp only [memWrite, inRegion, decide_eq_true_eq]
  split
  · simp_all [eq_comm]
  · simp_all

theorem memWrite_inside {s : State} {off : Nat} (v : Word) (h : off + 4 ≤ s.cfg.regionBytes) :
    memWrite s off v = .ok { s with mem := storeWord s.mem off v } :=
  memWrite_ok_iff.2 ⟨h, rfl⟩

@[simp] theorem memReadAcq_eq (s : State) (off : Nat) : memReadAcq s off = memRead s off := rfl
@[simp] theorem memWriteRel_eq (s : State) (off : Nat) (v : Word) : memWriteRel s off v = memWrite s off v := rfl

/-- A load depends on the region and its size only. -/
theorem memRead_congr {s t : State} (hc : t.cfg = s.cfg) (hm : t.mem = s.mem) (off : Nat) :
    memRead t off = memRead s off := by
  simp [memRead, inRegion, hc, hm]

/-- A load at the offset just stored to gives the stored value. -/
theorem memRead_store_same {s : State} {off : Nat} (v : Word) (h : off + 4 ≤ s.cfg.regionBytes) :
    memRead { s with mem := storeWord s.mem off v } off = .ok v :=
  memRead_ok_iff.2 ⟨h, loadWord_storeWord_same _ _ _⟩

/-- A load of a word that does not overlap the stored one is as before. -/
theorem memRead_store_disjoint (s : State) {off x : Nat} (v : Word) (h : x + 4 ≤ off ∨ off + 4 ≤ x) :
    memRead { s with mem := storeWord s.mem off v } x = memRead s x := by
  simp [memRead, inRegion, loadWord_storeWord_disjoint _ _ _ h]

/-! ## Offsets (R51) -/

theorem offRd_eq : offRd = 0 := rfl
theorem offWr_eq : offWr = 4 := rfl
theorem offCap_eq : offCap = 8 := rfl
theorem offSt_eq : offSt = 12 := rfl
theorem offDelay_eq (i : Nat) : offDelay i = 16 + 12 * i := rfl
theorem offClear_eq (i : Nat) : offClear i = 20 + 12 * i := by simp only [offClear, offCell, wordBytes]; omega
theorem offSet_eq (i : Nat) : offSet i = 24 + 12 * i := by simp only [offSet, offCell, wordBytes]; omega

/-- A slot below a legal capacity lies inside the region (R24, R113). -/
theorem slot_inside {cfg : Config} {i c : Nat} (hi : i < c) (hc : c ≤ capMax cfg) : offCell i + 12 ≤ cfg.regionBytes := by
  simp only [capMax, wordBytes, offCell] at *
  have h1 : c * 12 ≤ cfg.regionBytes - 16 := by
    have := Nat.div_mul_le_self (cfg.regionBytes - 4 * 4) (3 * 4)
    omega
  omega

/-- The control words lie inside a region that has room for a cell (R24). -/
theorem control_inside {cfg : Config} {c : Nat} (h0 : 0 < c) (hc : c ≤ capMax cfg) : 28 ≤ cfg.regionBytes := by
  have := slot_inside h0 hc
  simp only [offCell, wordBytes] at this
  omega

end Sys2Proof.Machine
end

