-- ==== Sys2Proof/Laws/State.lean ====
section
/-! SUPPORT. One lemma per field per update of State: what each primitive of the collaborators and each way an operation
ends does to every field. -/

namespace Sys2Proof.Machine

/-! ## `timerPark` -/

@[simp] theorem timerPark_cfg (s : State) : (timerPark s).cfg = s.cfg := rfl
@[simp] theorem timerPark_mem (s : State) : (timerPark s).mem = s.mem := rfl
@[simp] theorem timerPark_tmrCount (s : State) : (timerPark s).tmrCount = s.cfg.parkValue := rfl
@[simp] theorem timerPark_tmrArmed (s : State) : (timerPark s).tmrArmed = false := rfl
@[simp] theorem timerPark_tmrExpiryPending (s : State) : (timerPark s).tmrExpiryPending = false := rfl
@[simp] theorem timerPark_cbEnable (s : State) : (timerPark s).cbEnable = s.cbEnable := rfl
@[simp] theorem timerPark_outLevel (s : State) : (timerPark s).outLevel = s.outLevel := rfl
@[simp] theorem timerPark_devInitialized (s : State) : (timerPark s).devInitialized = s.devInitialized := rfl
@[simp] theorem timerPark_devMapped (s : State) : (timerPark s).devMapped = s.devMapped := rfl
@[simp] theorem timerPark_devMapFailed (s : State) : (timerPark s).devMapFailed = s.devMapFailed := rfl
@[simp] theorem timerPark_push (s : State) : (timerPark s).push = s.push := rfl
@[simp] theorem timerPark_refusals (s : State) : (timerPark s).refusals = s.refusals := rfl
@[simp] theorem timerPark_results (s : State) : (timerPark s).results = s.results := rfl
@[simp] theorem timerPark_trace (s : State) : (timerPark s).trace = s.trace := rfl
@[simp] theorem timerPark_preempt (s : State) : (timerPark s).preempt = s.preempt := rfl
@[simp] theorem timerPark_mapOk (s : State) : (timerPark s).mapOk = s.mapOk := rfl
@[simp] theorem timerPark_mapDraws (s : State) : (timerPark s).mapDraws = s.mapDraws := rfl
@[simp] theorem timerPark_loads (s : State) : (timerPark s).loads = s.loads := rfl
@[simp] theorem timerPark_loaded (s : State) : (timerPark s).loaded = s.loaded := rfl

/-! ## `timerAck` -/

@[simp] theorem timerAck_cfg (s : State) : (timerAck s).cfg = s.cfg := rfl
@[simp] theorem timerAck_mem (s : State) : (timerAck s).mem = s.mem := rfl
@[simp] theorem timerAck_tmrCount (s : State) : (timerAck s).tmrCount = s.tmrCount := rfl
@[simp] theorem timerAck_tmrArmed (s : State) : (timerAck s).tmrArmed = s.tmrArmed := rfl
@[simp] theorem timerAck_tmrExpiryPending (s : State) : (timerAck s).tmrExpiryPending = false := rfl
@[simp] theorem timerAck_cbEnable (s : State) : (timerAck s).cbEnable = s.cbEnable := rfl
@[simp] theorem timerAck_outLevel (s : State) : (timerAck s).outLevel = s.outLevel := rfl
@[simp] theorem timerAck_devInitialized (s : State) : (timerAck s).devInitialized = s.devInitialized := rfl
@[simp] theorem timerAck_devMapped (s : State) : (timerAck s).devMapped = s.devMapped := rfl
@[simp] theorem timerAck_devMapFailed (s : State) : (timerAck s).devMapFailed = s.devMapFailed := rfl
@[simp] theorem timerAck_push (s : State) : (timerAck s).push = s.push := rfl
@[simp] theorem timerAck_refusals (s : State) : (timerAck s).refusals = s.refusals := rfl
@[simp] theorem timerAck_results (s : State) : (timerAck s).results = s.results := rfl
@[simp] theorem timerAck_trace (s : State) : (timerAck s).trace = s.trace := rfl
@[simp] theorem timerAck_preempt (s : State) : (timerAck s).preempt = s.preempt := rfl
@[simp] theorem timerAck_mapOk (s : State) : (timerAck s).mapOk = s.mapOk := rfl
@[simp] theorem timerAck_mapDraws (s : State) : (timerAck s).mapDraws = s.mapDraws := rfl
@[simp] theorem timerAck_loads (s : State) : (timerAck s).loads = s.loads := rfl
@[simp] theorem timerAck_loaded (s : State) : (timerAck s).loaded = s.loaded := rfl

/-! ## `outClear` -/

@[simp] theorem outClear_cfg (m : Reg) (s : State) : (outClear m s).cfg = s.cfg := rfl
@[simp] theorem outClear_mem (m : Reg) (s : State) : (outClear m s).mem = s.mem := rfl
@[simp] theorem outClear_tmrCount (m : Reg) (s : State) : (outClear m s).tmrCount = s.tmrCount := rfl
@[simp] theorem outClear_tmrArmed (m : Reg) (s : State) : (outClear m s).tmrArmed = s.tmrArmed := rfl
@[simp] theorem outClear_tmrExpiryPending (m : Reg) (s : State) : (outClear m s).tmrExpiryPending = s.tmrExpiryPending := rfl
@[simp] theorem outClear_cbEnable (m : Reg) (s : State) : (outClear m s).cbEnable = s.cbEnable := rfl
@[simp] theorem outClear_outLevel (m : Reg) (s : State) : (outClear m s).outLevel = s.outLevel &&& ~~~m := rfl
@[simp] theorem outClear_devInitialized (m : Reg) (s : State) : (outClear m s).devInitialized = s.devInitialized := rfl
@[simp] theorem outClear_devMapped (m : Reg) (s : State) : (outClear m s).devMapped = s.devMapped := rfl
@[simp] theorem outClear_devMapFailed (m : Reg) (s : State) : (outClear m s).devMapFailed = s.devMapFailed := rfl
@[simp] theorem outClear_push (m : Reg) (s : State) : (outClear m s).push = s.push := rfl
@[simp] theorem outClear_refusals (m : Reg) (s : State) : (outClear m s).refusals = s.refusals := rfl
@[simp] theorem outClear_results (m : Reg) (s : State) : (outClear m s).results = s.results := rfl
@[simp] theorem outClear_trace (m : Reg) (s : State) : (outClear m s).trace = s.trace := rfl
@[simp] theorem outClear_preempt (m : Reg) (s : State) : (outClear m s).preempt = s.preempt := rfl
@[simp] theorem outClear_mapOk (m : Reg) (s : State) : (outClear m s).mapOk = s.mapOk := rfl
@[simp] theorem outClear_mapDraws (m : Reg) (s : State) : (outClear m s).mapDraws = s.mapDraws := rfl
@[simp] theorem outClear_loads (m : Reg) (s : State) : (outClear m s).loads = s.loads := rfl
@[simp] theorem outClear_loaded (m : Reg) (s : State) : (outClear m s).loaded = s.loaded := rfl

/-! ## `outSet` -/

@[simp] theorem outSet_cfg (m : Reg) (s : State) : (outSet m s).cfg = s.cfg := rfl
@[simp] theorem outSet_mem (m : Reg) (s : State) : (outSet m s).mem = s.mem := rfl
@[simp] theorem outSet_tmrCount (m : Reg) (s : State) : (outSet m s).tmrCount = s.tmrCount := rfl
@[simp] theorem outSet_tmrArmed (m : Reg) (s : State) : (outSet m s).tmrArmed = s.tmrArmed := rfl
@[simp] theorem outSet_tmrExpiryPending (m : Reg) (s : State) : (outSet m s).tmrExpiryPending = s.tmrExpiryPending := rfl
@[simp] theorem outSet_cbEnable (m : Reg) (s : State) : (outSet m s).cbEnable = s.cbEnable := rfl
@[simp] theorem outSet_outLevel (m : Reg) (s : State) : (outSet m s).outLevel = s.outLevel ||| m := rfl
@[simp] theorem outSet_devInitialized (m : Reg) (s : State) : (outSet m s).devInitialized = s.devInitialized := rfl
@[simp] theorem outSet_devMapped (m : Reg) (s : State) : (outSet m s).devMapped = s.devMapped := rfl
@[simp] theorem outSet_devMapFailed (m : Reg) (s : State) : (outSet m s).devMapFailed = s.devMapFailed := rfl
@[simp] theorem outSet_push (m : Reg) (s : State) : (outSet m s).push = s.push := rfl
@[simp] theorem outSet_refusals (m : Reg) (s : State) : (outSet m s).refusals = s.refusals := rfl
@[simp] theorem outSet_results (m : Reg) (s : State) : (outSet m s).results = s.results := rfl
@[simp] theorem outSet_trace (m : Reg) (s : State) : (outSet m s).trace = s.trace := rfl
@[simp] theorem outSet_preempt (m : Reg) (s : State) : (outSet m s).preempt = s.preempt := rfl
@[simp] theorem outSet_mapOk (m : Reg) (s : State) : (outSet m s).mapOk = s.mapOk := rfl
@[simp] theorem outSet_mapDraws (m : Reg) (s : State) : (outSet m s).mapDraws = s.mapDraws := rfl
@[simp] theorem outSet_loads (m : Reg) (s : State) : (outSet m s).loads = s.loads := rfl
@[simp] theorem outSet_loaded (m : Reg) (s : State) : (outSet m s).loaded = s.loaded := rfl

/-! ## `callbackEnable` -/

@[simp] theorem callbackEnable_cfg (b : Bool) (s : State) : (callbackEnable b s).cfg = s.cfg := rfl
@[simp] theorem callbackEnable_mem (b : Bool) (s : State) : (callbackEnable b s).mem = s.mem := rfl
@[simp] theorem callbackEnable_tmrCount (b : Bool) (s : State) : (callbackEnable b s).tmrCount = s.tmrCount := rfl
@[simp] theorem callbackEnable_tmrArmed (b : Bool) (s : State) : (callbackEnable b s).tmrArmed = s.tmrArmed := rfl
@[simp] theorem callbackEnable_tmrExpiryPending (b : Bool) (s : State) : (callbackEnable b s).tmrExpiryPending = s.tmrExpiryPending := rfl
@[simp] theorem callbackEnable_cbEnable (b : Bool) (s : State) : (callbackEnable b s).cbEnable = b := rfl
@[simp] theorem callbackEnable_outLevel (b : Bool) (s : State) : (callbackEnable b s).outLevel = s.outLevel := rfl
@[simp] theorem callbackEnable_devInitialized (b : Bool) (s : State) : (callbackEnable b s).devInitialized = s.devInitialized := rfl
@[simp] theorem callbackEnable_devMapped (b : Bool) (s : State) : (callbackEnable b s).devMapped = s.devMapped := rfl
@[simp] theorem callbackEnable_devMapFailed (b : Bool) (s : State) : (callbackEnable b s).devMapFailed = s.devMapFailed := rfl
@[simp] theorem callbackEnable_push (b : Bool) (s : State) : (callbackEnable b s).push = s.push := rfl
@[simp] theorem callbackEnable_refusals (b : Bool) (s : State) : (callbackEnable b s).refusals = s.refusals := rfl
@[simp] theorem callbackEnable_results (b : Bool) (s : State) : (callbackEnable b s).results = s.results := rfl
@[simp] theorem callbackEnable_trace (b : Bool) (s : State) : (callbackEnable b s).trace = s.trace := rfl
@[simp] theorem callbackEnable_preempt (b : Bool) (s : State) : (callbackEnable b s).preempt = s.preempt := rfl
@[simp] theorem callbackEnable_mapOk (b : Bool) (s : State) : (callbackEnable b s).mapOk = s.mapOk := rfl
@[simp] theorem callbackEnable_mapDraws (b : Bool) (s : State) : (callbackEnable b s).mapDraws = s.mapDraws := rfl
@[simp] theorem callbackEnable_loads (b : Bool) (s : State) : (callbackEnable b s).loads = s.loads := rfl
@[simp] theorem callbackEnable_loaded (b : Bool) (s : State) : (callbackEnable b s).loaded = s.loaded := rfl

/-! ## `reply` -/

@[simp] theorem reply_cfg (r : Result) (s : State) : (reply r s).cfg = s.cfg := rfl
@[simp] theorem reply_mem (r : Result) (s : State) : (reply r s).mem = s.mem := rfl
@[simp] theorem reply_tmrCount (r : Result) (s : State) : (reply r s).tmrCount = s.tmrCount := rfl
@[simp] theorem reply_tmrArmed (r : Result) (s : State) : (reply r s).tmrArmed = s.tmrArmed := rfl
@[simp] theorem reply_tmrExpiryPending (r : Result) (s : State) : (reply r s).tmrExpiryPending = s.tmrExpiryPending := rfl
@[simp] theorem reply_cbEnable (r : Result) (s : State) : (reply r s).cbEnable = s.cbEnable := rfl
@[simp] theorem reply_outLevel (r : Result) (s : State) : (reply r s).outLevel = s.outLevel := rfl
@[simp] theorem reply_devInitialized (r : Result) (s : State) : (reply r s).devInitialized = s.devInitialized := rfl
@[simp] theorem reply_devMapped (r : Result) (s : State) : (reply r s).devMapped = s.devMapped := rfl
@[simp] theorem reply_devMapFailed (r : Result) (s : State) : (reply r s).devMapFailed = s.devMapFailed := rfl
@[simp] theorem reply_push (r : Result) (s : State) : (reply r s).push = s.push := rfl
@[simp] theorem reply_refusals (r : Result) (s : State) : (reply r s).refusals = s.refusals := rfl
@[simp] theorem reply_results (r : Result) (s : State) : (reply r s).results = s.results ++ [r] := rfl
@[simp] theorem reply_trace (r : Result) (s : State) : (reply r s).trace = s.trace := rfl
@[simp] theorem reply_preempt (r : Result) (s : State) : (reply r s).preempt = s.preempt := rfl
@[simp] theorem reply_mapOk (r : Result) (s : State) : (reply r s).mapOk = s.mapOk := rfl
@[simp] theorem reply_mapDraws (r : Result) (s : State) : (reply r s).mapDraws = s.mapDraws := rfl
@[simp] theorem reply_loads (r : Result) (s : State) : (reply r s).loads = s.loads := rfl
@[simp] theorem reply_loaded (r : Result) (s : State) : (reply r s).loaded = s.loaded := rfl

/-! ## `fail` -/

@[simp] theorem fail_cfg (e : ErrorKind) (s : State) : (fail e s).cfg = s.cfg := rfl
@[simp] theorem fail_mem (e : ErrorKind) (s : State) : (fail e s).mem = s.mem := rfl
@[simp] theorem fail_tmrCount (e : ErrorKind) (s : State) : (fail e s).tmrCount = s.tmrCount := rfl
@[simp] theorem fail_tmrArmed (e : ErrorKind) (s : State) : (fail e s).tmrArmed = s.tmrArmed := rfl
@[simp] theorem fail_tmrExpiryPending (e : ErrorKind) (s : State) : (fail e s).tmrExpiryPending = s.tmrExpiryPending := rfl
@[simp] theorem fail_cbEnable (e : ErrorKind) (s : State) : (fail e s).cbEnable = s.cbEnable := rfl
@[simp] theorem fail_outLevel (e : ErrorKind) (s : State) : (fail e s).outLevel = s.outLevel := rfl
@[simp] theorem fail_devInitialized (e : ErrorKind) (s : State) : (fail e s).devInitialized = s.devInitialized := rfl
@[simp] theorem fail_devMapped (e : ErrorKind) (s : State) : (fail e s).devMapped = s.devMapped := rfl
@[simp] theorem fail_devMapFailed (e : ErrorKind) (s : State) : (fail e s).devMapFailed = s.devMapFailed := rfl
@[simp] theorem fail_push (e : ErrorKind) (s : State) : (fail e s).push = s.push := rfl
@[simp] theorem fail_refusals (e : ErrorKind) (s : State) : (fail e s).refusals = s.refusals := rfl
@[simp] theorem fail_results (e : ErrorKind) (s : State) : (fail e s).results = s.results ++ [.failed e] := rfl
@[simp] theorem fail_trace (e : ErrorKind) (s : State) : (fail e s).trace = s.trace := rfl
@[simp] theorem fail_preempt (e : ErrorKind) (s : State) : (fail e s).preempt = s.preempt := rfl
@[simp] theorem fail_mapOk (e : ErrorKind) (s : State) : (fail e s).mapOk = s.mapOk := rfl
@[simp] theorem fail_mapDraws (e : ErrorKind) (s : State) : (fail e s).mapDraws = s.mapDraws := rfl
@[simp] theorem fail_loads (e : ErrorKind) (s : State) : (fail e s).loads = s.loads := rfl
@[simp] theorem fail_loaded (e : ErrorKind) (s : State) : (fail e s).loaded = s.loaded := rfl

/-! ## `refuse` -/

@[simp] theorem refuse_cfg (why : RefusedBy) (s : State) : (refuse why s).cfg = s.cfg := rfl
@[simp] theorem refuse_mem (why : RefusedBy) (s : State) : (refuse why s).mem = s.mem := rfl
@[simp] theorem refuse_tmrCount (why : RefusedBy) (s : State) : (refuse why s).tmrCount = s.tmrCount := rfl
@[simp] theorem refuse_tmrArmed (why : RefusedBy) (s : State) : (refuse why s).tmrArmed = s.tmrArmed := rfl
@[simp] theorem refuse_tmrExpiryPending (why : RefusedBy) (s : State) : (refuse why s).tmrExpiryPending = s.tmrExpiryPending := rfl
@[simp] theorem refuse_cbEnable (why : RefusedBy) (s : State) : (refuse why s).cbEnable = s.cbEnable := rfl
@[simp] theorem refuse_outLevel (why : RefusedBy) (s : State) : (refuse why s).outLevel = s.outLevel := rfl
@[simp] theorem refuse_devInitialized (why : RefusedBy) (s : State) : (refuse why s).devInitialized = s.devInitialized := rfl
@[simp] theorem refuse_devMapped (why : RefusedBy) (s : State) : (refuse why s).devMapped = s.devMapped := rfl
@[simp] theorem refuse_devMapFailed (why : RefusedBy) (s : State) : (refuse why s).devMapFailed = s.devMapFailed := rfl
@[simp] theorem refuse_push (why : RefusedBy) (s : State) : (refuse why s).push = s.push := rfl
@[simp] theorem refuse_refusals (why : RefusedBy) (s : State) : (refuse why s).refusals = s.refusals ++ [why] := rfl
@[simp] theorem refuse_results (why : RefusedBy) (s : State) : (refuse why s).results = s.results := rfl
@[simp] theorem refuse_trace (why : RefusedBy) (s : State) : (refuse why s).trace = s.trace := rfl
@[simp] theorem refuse_preempt (why : RefusedBy) (s : State) : (refuse why s).preempt = s.preempt := rfl
@[simp] theorem refuse_mapOk (why : RefusedBy) (s : State) : (refuse why s).mapOk = s.mapOk := rfl
@[simp] theorem refuse_mapDraws (why : RefusedBy) (s : State) : (refuse why s).mapDraws = s.mapDraws := rfl
@[simp] theorem refuse_loads (why : RefusedBy) (s : State) : (refuse why s).loads = s.loads := rfl
@[simp] theorem refuse_loaded (why : RefusedBy) (s : State) : (refuse why s).loaded = s.loaded := rfl

/-! ## `consumeMapOk` -/

@[simp] theorem consumeMapOk_cfg (s : State) : (consumeMapOk s).cfg = s.cfg := rfl
@[simp] theorem consumeMapOk_mem (s : State) : (consumeMapOk s).mem = s.mem := rfl
@[simp] theorem consumeMapOk_tmrCount (s : State) : (consumeMapOk s).tmrCount = s.tmrCount := rfl
@[simp] theorem consumeMapOk_tmrArmed (s : State) : (consumeMapOk s).tmrArmed = s.tmrArmed := rfl
@[simp] theorem consumeMapOk_tmrExpiryPending (s : State) : (consumeMapOk s).tmrExpiryPending = s.tmrExpiryPending := rfl
@[simp] theorem consumeMapOk_cbEnable (s : State) : (consumeMapOk s).cbEnable = s.cbEnable := rfl
@[simp] theorem consumeMapOk_outLevel (s : State) : (consumeMapOk s).outLevel = s.outLevel := rfl
@[simp] theorem consumeMapOk_devInitialized (s : State) : (consumeMapOk s).devInitialized = s.devInitialized := rfl
@[simp] theorem consumeMapOk_devMapped (s : State) : (consumeMapOk s).devMapped = s.devMapped := rfl
@[simp] theorem consumeMapOk_devMapFailed (s : State) : (consumeMapOk s).devMapFailed = s.devMapFailed := rfl
@[simp] theorem consumeMapOk_push (s : State) : (consumeMapOk s).push = s.push := rfl
@[simp] theorem consumeMapOk_refusals (s : State) : (consumeMapOk s).refusals = s.refusals := rfl
@[simp] theorem consumeMapOk_results (s : State) : (consumeMapOk s).results = s.results := rfl
@[simp] theorem consumeMapOk_trace (s : State) : (consumeMapOk s).trace = s.trace := rfl
@[simp] theorem consumeMapOk_preempt (s : State) : (consumeMapOk s).preempt = s.preempt := rfl
@[simp] theorem consumeMapOk_mapOk (s : State) : (consumeMapOk s).mapOk = s.mapOk.tail := rfl
@[simp] theorem consumeMapOk_mapDraws (s : State) : (consumeMapOk s).mapDraws = s.mapDraws + 1 := rfl
@[simp] theorem consumeMapOk_loads (s : State) : (consumeMapOk s).loads = s.loads := rfl
@[simp] theorem consumeMapOk_loaded (s : State) : (consumeMapOk s).loaded = s.loaded := rfl

/-! ## `timerLoad` -/

@[simp] theorem timerLoad_cfg (v : Reg) (s : State) : (timerLoad v s).cfg = s.cfg := by
  unfold timerLoad; repeat' split
  all_goals rfl
@[simp] theorem timerLoad_mem (v : Reg) (s : State) : (timerLoad v s).mem = s.mem := by
  unfold timerLoad; repeat' split
  all_goals rfl
@[simp] theorem timerLoad_tmrCount (v : Reg) (s : State) : (timerLoad v s).tmrCount = v := by
  unfold timerLoad; split <;> simp_all
@[simp] theorem timerLoad_tmrArmed (v : Reg) (s : State) : (timerLoad v s).tmrArmed = !decide (v = 0#32) := by
  unfold timerLoad; split <;> simp_all
@[simp] theorem timerLoad_tmrExpiryPending (v : Reg) (s : State) : (timerLoad v s).tmrExpiryPending = (decide (v = 0#32) || s.tmrExpiryPending) := by
  unfold timerLoad; split <;> simp_all
@[simp] theorem timerLoad_cbEnable (v : Reg) (s : State) : (timerLoad v s).cbEnable = s.cbEnable := by
  unfold timerLoad; repeat' split
  all_goals rfl
@[simp] theorem timerLoad_outLevel (v : Reg) (s : State) : (timerLoad v s).outLevel = s.outLevel := by
  unfold timerLoad; repeat' split
  all_goals rfl
@[simp] theorem timerLoad_devInitialized (v : Reg) (s : State) : (timerLoad v s).devInitialized = s.devInitialized := by
  unfold timerLoad; repeat' split
  all_goals rfl
@[simp] theorem timerLoad_devMapped (v : Reg) (s : State) : (timerLoad v s).devMapped = s.devMapped := by
  unfold timerLoad; repeat' split
  all_goals rfl
@[simp] theorem timerLoad_devMapFailed (v : Reg) (s : State) : (timerLoad v s).devMapFailed = s.devMapFailed := by
  unfold timerLoad; repeat' split
  all_goals rfl
@[simp] theorem timerLoad_push (v : Reg) (s : State) : (timerLoad v s).push = s.push := by
  unfold timerLoad; repeat' split
  all_goals rfl
@[simp] theorem timerLoad_refusals (v : Reg) (s : State) : (timerLoad v s).refusals = s.refusals := by
  unfold timerLoad; repeat' split
  all_goals rfl
@[simp] theorem timerLoad_results (v : Reg) (s : State) : (timerLoad v s).results = s.results := by
  unfold timerLoad; repeat' split
  all_goals rfl
@[simp] theorem timerLoad_trace (v : Reg) (s : State) : (timerLoad v s).trace = s.trace := by
  unfold timerLoad; repeat' split
  all_goals rfl
@[simp] theorem timerLoad_preempt (v : Reg) (s : State) : (timerLoad v s).preempt = s.preempt := by
  unfold timerLoad; repeat' split
  all_goals rfl
@[simp] theorem timerLoad_mapOk (v : Reg) (s : State) : (timerLoad v s).mapOk = s.mapOk := by
  unfold timerLoad; repeat' split
  all_goals rfl
@[simp] theorem timerLoad_mapDraws (v : Reg) (s : State) : (timerLoad v s).mapDraws = s.mapDraws := by
  unfold timerLoad; repeat' split
  all_goals rfl
@[simp] theorem timerLoad_loads (v : Reg) (s : State) : (timerLoad v s).loads = s.loads := by
  unfold timerLoad; repeat' split
  all_goals rfl
@[simp] theorem timerLoad_loaded (v : Reg) (s : State) : (timerLoad v s).loaded = s.loaded := by
  unfold timerLoad; repeat' split
  all_goals rfl

/-! ## `timerTick` -/

@[simp] theorem timerTick_cfg (s : State) : (timerTick s).cfg = s.cfg := by
  unfold timerTick; repeat' split
  all_goals rfl
@[simp] theorem timerTick_mem (s : State) : (timerTick s).mem = s.mem := by
  unfold timerTick; repeat' split
  all_goals rfl
@[simp] theorem timerTick_tmrCount (s : State) : (timerTick s).tmrCount = if s.tmrArmed then s.tmrCount - 1#32 else s.tmrCount := by
  unfold timerTick; split <;> [(split <;> simp_all); simp_all]
@[simp] theorem timerTick_tmrArmed (s : State) : (timerTick s).tmrArmed = (s.tmrArmed && !decide (s.tmrCount - 1#32 = 0#32)) := by
  unfold timerTick; split <;> [(split <;> simp_all); simp_all]
@[simp] theorem timerTick_tmrExpiryPending (s : State) : (timerTick s).tmrExpiryPending = ((s.tmrArmed && decide (s.tmrCount - 1#32 = 0#32)) || s.tmrExpiryPending) := by
  unfold timerTick; split <;> [(split <;> simp_all); simp_all]
@[simp] theorem timerTick_cbEnable (s : State) : (timerTick s).cbEnable = s.cbEnable := by
  unfold timerTick; repeat' split
  all_goals rfl
@[simp] theorem timerTick_outLevel (s : State) : (timerTick s).outLevel = s.outLevel := by
  unfold timerTick; repeat' split
  all_goals rfl
@[simp] theorem timerTick_devInitialized (s : State) : (timerTick s).devInitialized = s.devInitialized := by
  unfold timerTick; repeat' split
  all_goals rfl
@[simp] theorem timerTick_devMapped (s : State) : (timerTick s).devMapped = s.devMapped := by
  unfold timerTick; repeat' split
  all_goals rfl
@[simp] theorem timerTick_devMapFailed (s : State) : (timerTick s).devMapFailed = s.devMapFailed := by
  unfold timerTick; repeat' split
  all_goals rfl
@[simp] theorem timerTick_push (s : State) : (timerTick s).push = s.push := by
  unfold timerTick; repeat' split
  all_goals rfl
@[simp] theorem timerTick_refusals (s : State) : (timerTick s).refusals = s.refusals := by
  unfold timerTick; repeat' split
  all_goals rfl
@[simp] theorem timerTick_results (s : State) : (timerTick s).results = s.results := by
  unfold timerTick; repeat' split
  all_goals rfl
@[simp] theorem timerTick_trace (s : State) : (timerTick s).trace = s.trace := by
  unfold timerTick; repeat' split
  all_goals rfl
@[simp] theorem timerTick_preempt (s : State) : (timerTick s).preempt = s.preempt := by
  unfold timerTick; repeat' split
  all_goals rfl
@[simp] theorem timerTick_mapOk (s : State) : (timerTick s).mapOk = s.mapOk := by
  unfold timerTick; repeat' split
  all_goals rfl
@[simp] theorem timerTick_mapDraws (s : State) : (timerTick s).mapDraws = s.mapDraws := by
  unfold timerTick; repeat' split
  all_goals rfl
@[simp] theorem timerTick_loads (s : State) : (timerTick s).loads = s.loads := by
  unfold timerTick; repeat' split
  all_goals rfl
@[simp] theorem timerTick_loaded (s : State) : (timerTick s).loaded = s.loaded := by
  unfold timerTick; repeat' split
  all_goals rfl

/-! ## The handler's entry and return, and executing a Cell -/

@[simp] theorem enterHandler_eq (s : State) : enterHandler s = timerAck s := rfl
@[simp] theorem leaveHandler_eq (s : State) : leaveHandler s = s := rfl

@[simp] theorem runCell_cfg (c : Cell) (s : State) : (runCell c s).cfg = s.cfg := by simp [runCell]
@[simp] theorem runCell_mem (c : Cell) (s : State) : (runCell c s).mem = s.mem := by simp [runCell]
@[simp] theorem runCell_tmrCount (c : Cell) (s : State) : (runCell c s).tmrCount = regOfField c.delay := by simp [runCell]
@[simp] theorem runCell_tmrArmed (c : Cell) (s : State) : (runCell c s).tmrArmed = !decide (regOfField c.delay = 0#32) := by simp [runCell]
@[simp] theorem runCell_tmrExpiryPending (c : Cell) (s : State) : (runCell c s).tmrExpiryPending = (decide (regOfField c.delay = 0#32) || s.tmrExpiryPending) := by simp [runCell]
@[simp] theorem runCell_cbEnable (c : Cell) (s : State) : (runCell c s).cbEnable = s.cbEnable := by simp [runCell]
@[simp] theorem runCell_outLevel (c : Cell) (s : State) : (runCell c s).outLevel = (s.outLevel &&& ~~~regOfField c.clearMask) ||| regOfField c.setMask := by simp [runCell]
@[simp] theorem runCell_devInitialized (c : Cell) (s : State) : (runCell c s).devInitialized = s.devInitialized := by simp [runCell]
@[simp] theorem runCell_devMapped (c : Cell) (s : State) : (runCell c s).devMapped = s.devMapped := by simp [runCell]
@[simp] theorem runCell_devMapFailed (c : Cell) (s : State) : (runCell c s).devMapFailed = s.devMapFailed := by simp [runCell]
@[simp] theorem runCell_push (c : Cell) (s : State) : (runCell c s).push = s.push := by simp [runCell]
@[simp] theorem runCell_refusals (c : Cell) (s : State) : (runCell c s).refusals = s.refusals := by simp [runCell]
@[simp] theorem runCell_results (c : Cell) (s : State) : (runCell c s).results = s.results := by simp [runCell]
@[simp] theorem runCell_trace (c : Cell) (s : State) : (runCell c s).trace = s.trace := by simp [runCell]
@[simp] theorem runCell_preempt (c : Cell) (s : State) : (runCell c s).preempt = s.preempt := by simp [runCell]
@[simp] theorem runCell_mapOk (c : Cell) (s : State) : (runCell c s).mapOk = s.mapOk := by simp [runCell]
@[simp] theorem runCell_mapDraws (c : Cell) (s : State) : (runCell c s).mapDraws = s.mapDraws := by simp [runCell]
@[simp] theorem runCell_loads (c : Cell) (s : State) : (runCell c s).loads = s.loads := by simp [runCell]
@[simp] theorem runCell_loaded (c : Cell) (s : State) : (runCell c s).loaded = s.loaded := by simp [runCell]

/-- At `W = 32` a field goes to its register unchanged (R83). -/
@[simp] theorem regOfField_eq (v : Word) : regOfField v = v := BitVec.setWidth_eq v

end Sys2Proof.Machine
end

