-- ==== Sys2Proof/Laws/Ops.lean ====
section
/-! SUPPORT. What each shared operation can do, said once: the lemmas the proofs cite instead of unfolding it. -/

namespace Sys2Proof.Machine

/-! ## Sequencing and outcomes -/

theorem bind_ok_iff {α β : Type} {x : Except Fault α} {f : α → Except Fault β} {b : β} :
    (x >>= f) = .ok b ↔ ∃ a, x = .ok a ∧ f a = .ok b := by
  cases x <;> simp [bind, Except.bind]

theorem bind_error_iff {α β : Type} {x : Except Fault α} {f : α → Except Fault β} {e : Fault} :
    (x >>= f) = .error e ↔ x = .error e ∨ ∃ a, x = .ok a ∧ f a = .error e := by
  cases x <;> simp [bind, Except.bind]

@[simp] theorem ok_bind {α β : Type} (a : α) (f : α → Except Fault β) : ((.ok a : Except Fault α) >>= f) = f a := rfl

@[simp] theorem finish_ok (s : State) : finish (.ok s) = .next s := rfl
@[simp] theorem finish_error (f : Fault) : finish (.error f) = .fault f := rfl

theorem finish_next_iff {x : Except Fault State} {t : State} : finish x = .next t ↔ x = .ok t := by
  cases x <;> simp

theorem finish_fault_iff {x : Except Fault State} {f : Fault} : finish x = .fault f ↔ x = .error f := by
  cases x <;> simp

theorem finish_ne_refused (x : Except Fault State) (r : Refusal) : finish x ≠ .refused r := by
  cases x <;> simp

theorem whenInitialised_ok_iff {s t : State} {k : Except Fault State} :
    whenInitialised s k = .ok t ↔
      (s.devInitialized = true ∧ k = .ok t) ∨ (s.devInitialized = false ∧ t = refuse .notInitialised s) := by
  unfold whenInitialised
  cases s.devInitialized <;> simp [eq_comm]

@[simp] theorem whenInitialised_of_init {s : State} (h : s.devInitialized = true) (k : Except Fault State) :
    whenInitialised s k = k := by simp [whenInitialised, h]

@[simp] theorem whenInitialised_of_not {s : State} (h : s.devInitialized = false) (k : Except Fault State) :
    whenInitialised s k = .ok (refuse .notInitialised s) := by simp [whenInitialised, h]

/-! ## The status -/

@[simp] theorem statusOfWord_statusWord (st : Status) : statusOfWord (statusWord st) = some st := by
  cases st <;> rfl

theorem statusOfWord_eq_some_iff {w : Word} {st : Status} : statusOfWord w = some st ↔ w = statusWord st := by
  constructor
  · unfold statusOfWord
    intro h
    split at h
    · cases h; assumption
    · split at h
      · cases h; assumption
      · split at h
        · cases h; assumption
        · cases h
  · rintro rfl; exact statusOfWord_statusWord st

theorem statusWord_injective {a b : Status} (h : statusWord a = statusWord b) : a = b := by
  have := congrArg statusOfWord h
  simpa using this

/-- Everything reading the status can answer. -/
theorem readStatus_ok_iff {s : State} {st : Status} :
    readStatus s = .ok st ↔ memRead s offSt = .ok (statusWord st) := by
  unfold readStatus
  rw [bind_ok_iff]
  constructor
  · rintro ⟨w, hw, h⟩
    split at h
    · next st' heq =>
      cases h
      rw [statusOfWord_eq_some_iff] at heq
      rw [hw, heq]
    · cases h
  · intro h
    exact ⟨_, h, by simp⟩

theorem readStatus_congr {s t : State} (hc : t.cfg = s.cfg) (hm : t.mem = s.mem) : readStatus t = readStatus s := by
  unfold readStatus
  rw [memRead_congr hc hm]

/-- Everything the status store can answer. -/
theorem setStatus_ok_iff {s t : State} {st : Status} :
    setStatus s st = .ok t ↔
      offSt + 4 ≤ s.cfg.regionBytes ∧ t = { s with mem := storeWord s.mem offSt (statusWord st) } :=
  memWrite_ok_iff

/-- Everything the enabling condition can answer. -/
theorem handlerEnabled_ok_iff {s : State} {b : Bool} :
    handlerEnabled s = .ok b ↔
      ((s.tmrExpiryPending && s.cbEnable) = false ∧ b = false) ∨
      ((s.tmrExpiryPending && s.cbEnable) = true ∧ ∃ st, readStatus s = .ok st ∧ b = decide (st = .running)) := by
  unfold handlerEnabled
  cases s.tmrExpiryPending && s.cbEnable
  · simp
  · simp only [if_true, bind_ok_iff, Except.ok.injEq, Bool.true_eq_false, false_and, false_or, true_and]
    exact exists_congr fun st => and_congr_right fun _ => eq_comm

theorem checkCursor_ok_iff {x c : Word} {u : Unit} : checkCursor x c = .ok u ↔ x < c := by
  unfold checkCursor
  split <;> simp_all

/-! ## Cells -/

/-- Everything reading a slot can answer. -/
theorem readCell_ok_iff {s : State} {i : Word} {cell : Cell} :
    readCell s i = .ok cell ↔ memRead s (offDelay i.toNat) = .ok cell.delay ∧
      memRead s (offClear i.toNat) = .ok cell.clearMask ∧ memRead s (offSet i.toNat) = .ok cell.setMask := by
  unfold readCell
  simp only [bind_ok_iff]
  constructor
  · rintro ⟨d, hd, k, hk, m, hm, h⟩
    cases h
    exact ⟨hd, hk, hm⟩
  · rintro ⟨hd, hk, hm⟩
    exact ⟨_, hd, _, hk, _, hm, rfl⟩

theorem readCell_congr {s t : State} (hc : t.cfg = s.cfg) (hm : t.mem = s.mem) (i : Word) :
    readCell t i = readCell s i := by
  unfold readCell
  simp only [memRead_congr hc hm]

/-- A store to a control word leaves every slot as it was. -/
theorem readCell_store_control (s : State) {off : Nat} (v : Word) (h : off ≤ 12) (i : Word) :
    readCell { s with mem := storeWord s.mem off v } i = readCell s i := by
  unfold readCell
  rw [memRead_store_disjoint s v (by rw [offDelay_eq]; omega), memRead_store_disjoint s v (by rw [offClear_eq]; omega),
    memRead_store_disjoint s v (by rw [offSet_eq]; omega)]

/-- A store into slot `j` leaves every other slot as it was. -/
theorem readCell_store_other (s : State) {off j : Nat} (v : Word) (h0 : offCell j ≤ off) (h1 : off + 4 ≤ offCell j + 12)
    {i : Word} (h : i.toNat ≠ j) : readCell { s with mem := storeWord s.mem off v } i = readCell s i := by
  simp only [offCell, wordBytes] at h0 h1
  unfold readCell
  rw [memRead_store_disjoint s v (by rw [offDelay_eq]; omega), memRead_store_disjoint s v (by rw [offClear_eq]; omega),
    memRead_store_disjoint s v (by rw [offSet_eq]; omega)]

/-! ## Cursor arithmetic (R106) -/

theorem nextIndex_toNat {x c : Word} (h : x < c) : (nextIndex x c).toNat = (x.toNat + 1) % c.toNat := by
  have hc : x.toNat < c.toNat := h
  simp only [nextIndex, BitVec.toNat_ofNat]
  apply Nat.mod_eq_of_lt
  have := Nat.mod_lt (x.toNat + 1) (show 0 < c.toNat by omega)
  have := c.isLt
  omega

/-- "Wraparound, not saturation" (R106). -/
theorem nextIndex_lt {x c : Word} (h : x < c) : nextIndex x c < c := by
  have hc : x.toNat < c.toNat := h
  show (nextIndex x c).toNat < c.toNat
  rw [nextIndex_toNat h]
  exact Nat.mod_lt _ (by omega)

/-! ## POP -/

/-- What the body of `POP` does where the status is ERROR_UNDERRUN: nothing. -/
theorem popCell_terminal {s : State} (h : readStatus s = .ok .errorUnderrun) : popCell s = .ok (s, none) := by
  simp [popCell, h]

/-- Everything taking a cell can answer. -/
theorem takeCell_ok_iff {r w : Word} {s t : State} {x : Option Cell} :
    takeCell r w s = .ok (t, x) ↔ ∃ c cell, memRead s offCap = .ok c ∧ r < c ∧ w < c ∧ readCell s r = .ok cell ∧
      memWrite s offRd (nextIndex r c) = .ok t ∧ x = some cell := by
  unfold takeCell
  simp only [bind_ok_iff, checkCursor_ok_iff, memWriteRel_eq]
  constructor
  · rintro ⟨c, hc, _, hr, _, hw, cell, hcell, t', ht, h⟩
    cases h
    exact ⟨c, cell, hc, hr, hw, hcell, ht, rfl⟩
  · rintro ⟨c, cell, hc, hr, hw, hcell, ht, rfl⟩
    exact ⟨c, hc, (), hr, (), hw, cell, hcell, t, ht, rfl⟩

/-- Everything the body of `POP` can answer: the terminal case, the underrun, a cell. -/
theorem popCell_cases {s t : State} {x : Option Cell} (h : popCell s = .ok (t, x)) :
    (readStatus s = .ok .errorUnderrun ∧ t = s ∧ x = none) ∨
    (∃ st r, readStatus s = .ok st ∧ st ≠ .errorUnderrun ∧ memRead s offRd = .ok r ∧ memRead s offWr = .ok r ∧
      setStatus s .errorUnderrun = .ok t ∧ x = none) ∨
    (∃ st r w c cell, readStatus s = .ok st ∧ st ≠ .errorUnderrun ∧ memRead s offRd = .ok r ∧ memRead s offWr = .ok w ∧
      r ≠ w ∧ memRead s offCap = .ok c ∧ r < c ∧ w < c ∧ readCell s r = .ok cell ∧
      memWrite s offRd (nextIndex r c) = .ok t ∧ x = some cell) := by
  unfold popCell at h
  rw [bind_ok_iff] at h
  obtain ⟨st, hst, h⟩ := h
  split at h
  · next heq => subst heq; cases h; exact .inl ⟨hst, rfl, rfl⟩
  · next hne =>
    simp only [memReadAcq_eq, bind_ok_iff] at h
    obtain ⟨r, hr, w, hw, h⟩ := h
    simp only [isEmpty, decide_eq_true_eq] at h
    split at h
    · next heq =>
      subst heq
      rw [bind_ok_iff] at h
      obtain ⟨t', ht, h⟩ := h
      cases h
      exact .inr (.inl ⟨st, r, hst, hne, hr, hw, ht, rfl⟩)
    · next hrw =>
      obtain ⟨c, cell, hc, hrc, hwc, hcell, ht, hx⟩ := takeCell_ok_iff.1 h
      exact .inr (.inr ⟨st, r, w, c, cell, hst, hne, hr, hw, hrw, hc, hrc, hwc, hcell, ht, hx⟩)

/-- The body of `POP` changes the region only. -/
theorem popCell_frame {s t : State} {x : Option Cell} (h : popCell s = .ok (t, x)) : t = { s with mem := t.mem } := by
  rcases popCell_cases h with ⟨-, rfl, -⟩ | ⟨_, _, -, -, -, -, ht, -⟩ | ⟨_, _, _, _, _, -, -, -, -, -, -, -, -, -, ht, -⟩
  · rfl
  · obtain ⟨-, rfl⟩ := setStatus_ok_iff.1 ht; rfl
  · obtain ⟨-, rfl⟩ := memWrite_ok_iff.1 ht; rfl

/-- An empty buffer records the underrun (R104, R185). -/
theorem popCell_empty {s t : State} {st : Status} {r : Word} (hst : readStatus s = .ok st) (hne : st ≠ .errorUnderrun)
    (hr : memRead s offRd = .ok r) (hw : memRead s offWr = .ok r) (ht : setStatus s .errorUnderrun = .ok t) :
    popCell s = .ok (t, none) := by
  simp [popCell, hst, hne, hr, hw, isEmpty, ht]

/-- A buffer that is not empty gives its cell (R104). -/
theorem popCell_some {s t : State} {st : Status} {r w c : Word} {cell : Cell} (hst : readStatus s = .ok st)
    (hne : st ≠ .errorUnderrun) (hr : memRead s offRd = .ok r) (hw : memRead s offWr = .ok w) (hrw : r ≠ w)
    (hc : memRead s offCap = .ok c) (hrc : r < c) (hwc : w < c) (hcell : readCell s r = .ok cell)
    (ht : memWrite s offRd (nextIndex r c) = .ok t) : popCell s = .ok (t, some cell) := by
  have := (takeCell_ok_iff (x := some cell)).2 ⟨c, cell, hc, hrc, hwc, hcell, ht, rfl⟩
  simp [popCell, hst, hne, hr, hw, isEmpty, hrw, this]

/-! ## Loads through the mapping -/

/-- In the total order of R63 the acquire load is a load. -/
theorem producerRead_eq (s : State) (off : Nat) : producerRead s off = memRead s off := by
  simp [producerRead]

/-! ## PUSH -/

/-- Everything step 1 of a `PUSH` can answer. -/
theorem beginPush_ok_iff {cell : Cell} {s t : State} :
    beginPush cell s = .ok t ↔ ∃ w c, memRead s offWr = .ok w ∧ memRead s offCap = .ok c ∧ w < c ∧
      t = { s with push := some ⟨.storeDelay, w, c, cell⟩ } := by
  unfold beginPush
  simp only [bind_ok_iff, checkCursor_ok_iff]
  constructor
  · rintro ⟨w, hw, c, hc, _, hlt, h⟩
    cases h
    exact ⟨w, c, hw, hc, hlt, rfl⟩
  · rintro ⟨w, c, hw, hc, hlt, rfl⟩
    exact ⟨w, hw, c, hc, (), hlt, rfl⟩

/-- The offset, the stored value and the stage after one of the steps 2 to 4 of a `PUSH`. -/
theorem pushStep_store_iff {p : PushInProgress} {s t : State} (h : p.stage ≠ .publish) :
    pushStep p s = .ok t ↔ ∃ off v st,
      ((p.stage = .storeDelay ∧ off = offDelay p.w.toNat ∧ v = p.cell.delay ∧ st = .storeClear) ∨
       (p.stage = .storeClear ∧ off = offClear p.w.toNat ∧ v = p.cell.clearMask ∧ st = .storeSet) ∨
       (p.stage = .storeSet ∧ off = offSet p.w.toNat ∧ v = p.cell.setMask ∧ st = .publish)) ∧
      off + 4 ≤ s.cfg.regionBytes ∧
      t = { s with mem := storeWord s.mem off v, push := some { p with stage := st } } := by
  obtain ⟨stage, w, c, cell⟩ := p
  cases stage <;> simp_all [pushStep, bind_ok_iff, memWrite_ok_iff, and_assoc, eq_comm (a := t)]

/-- Step 5 of a `PUSH`: the release store of `write_index` and the result. -/
theorem pushStep_publish_iff {p : PushInProgress} {s t : State} (h : p.stage = .publish) :
    pushStep p s = .ok t ↔ offWr + 4 ≤ s.cfg.regionBytes ∧
      t = reply .ok { s with mem := storeWord s.mem offWr (nextIndex p.w p.c), push := none } := by
  simp [pushStep, h, bind_ok_iff, memWrite_ok_iff, and_assoc, eq_comm (a := t)]

/-- A step of a `PUSH` changes the region, the `PUSH` in progress and the results only (R103). -/
theorem pushStep_frame {p : PushInProgress} {s t : State} (h : pushStep p s = .ok t) :
    t = { s with mem := t.mem, push := t.push, results := t.results } := by
  by_cases hp : p.stage = .publish
  · obtain ⟨-, rfl⟩ := (pushStep_publish_iff hp).1 h; rfl
  · obtain ⟨_, _, _, -, -, rfl⟩ := (pushStep_store_iff hp).1 h; rfl

/-! ## INIT and RESET -/

/-- The region after `INIT`'s stores (R100). -/
def initMemory (capacity : Word) (m : Memory) : Memory :=
  storeWord (storeWord (storeWord (storeWord m offRd 0#32) offWr 0#32) offCap capacity) offSt (statusWord .stopped)

/-- The region after `RESET`'s stores (R101). -/
def zeroMemory (m : Memory) : Memory :=
  storeWord (storeWord (storeWord m offRd 0#32) offWr 0#32) offSt (statusWord .stopped)

theorem initRegion_ok_iff {capacity : Word} {s t : State} :
    initRegion capacity s = .ok t ↔ 16 ≤ s.cfg.regionBytes ∧ t = { s with mem := initMemory capacity s.mem } := by
  simp only [initRegion, bind_ok_iff, memWrite_ok_iff, setStatus_ok_iff, offRd_eq, offWr_eq, offCap_eq, offSt_eq]
  constructor
  · rintro ⟨s1, ⟨_, rfl⟩, s2, ⟨_, rfl⟩, s3, ⟨_, rfl⟩, h, rfl⟩
    exact ⟨h, rfl⟩
  · rintro ⟨h, rfl⟩
    exact ⟨_, ⟨by omega, rfl⟩, _, ⟨by simp only; omega, rfl⟩, _, ⟨by simp only; omega, rfl⟩, by simp only; omega, rfl⟩

theorem zeroRegion_ok_iff {s t : State} :
    zeroRegion s = .ok t ↔ 16 ≤ s.cfg.regionBytes ∧ t = { s with mem := zeroMemory s.mem } := by
  simp only [zeroRegion, bind_ok_iff, memWrite_ok_iff, setStatus_ok_iff, offRd_eq, offWr_eq, offSt_eq]
  constructor
  · rintro ⟨s1, ⟨_, rfl⟩, s2, ⟨_, rfl⟩, h, rfl⟩
    exact ⟨h, rfl⟩
  · rintro ⟨h, rfl⟩
    exact ⟨_, ⟨by omega, rfl⟩, _, ⟨by simp only; omega, rfl⟩, by simp only; omega, rfl⟩

theorem initMeetsRunning_ok_iff {s : State} {b : Bool} :
    initMeetsRunning s = .ok b ↔ (s.devInitialized = false ∧ b = false) ∨
      (s.devInitialized = true ∧ ∃ st, readStatus s = .ok st ∧ b = decide (st = .running)) := by
  unfold initMeetsRunning
  cases s.devInitialized
  · simp
  · simp only [if_true, bind_ok_iff, Except.ok.injEq, Bool.true_eq_false, false_and, false_or, true_and]
    exact exists_congr fun st => and_congr_right fun _ => eq_comm

end Sys2Proof.Machine
end

