-- ==== Sys2Proof/Laws/Exec.lean ====
section
/-! SUPPORT. What each meaning can answer as a next state, said once per operation: the inversion lemmas the proofs of
frames and invariants cite. -/

namespace Sys2Proof.Machine

theorem execInit_cases {capacity : Word} {s t : State} (h : execInit capacity s = .next t) :
    ((capacity = 0#32 ∨ capMax s.cfg < capacity.toNat) ∧ t = fail .capacity s) ∨
    ((capacity ≠ 0#32 ∧ capacity.toNat ≤ capMax s.cfg) ∧ initMeetsRunning s = .ok true ∧ t = fail .invalidState s) ∨
    ((capacity ≠ 0#32 ∧ capacity.toNat ≤ capMax s.cfg) ∧ initMeetsRunning s = .ok false ∧ 16 ≤ s.cfg.regionBytes ∧
      t = reply .ok { s with mem := initMemory capacity s.mem, devInitialized := true, devMapFailed := false }) := by
  unfold execInit at h
  rw [finish_next_iff] at h
  split at h
  · next h0 => cases h; exact .inl ⟨.inl h0, rfl⟩
  · next h0 =>
    split at h
    · next h1 => cases h; exact .inl ⟨.inr h1, rfl⟩
    · next h1 =>
      rw [bind_ok_iff] at h
      obtain ⟨b, hb, h⟩ := h
      cases b
      · simp only [Bool.false_eq_true, if_false, bind_ok_iff] at h
        obtain ⟨u, hu, h⟩ := h
        obtain ⟨h16, rfl⟩ := initRegion_ok_iff.1 hu
        cases h
        exact .inr (.inr ⟨⟨h0, by omega⟩, hb, h16, rfl⟩)
      · simp only [if_true] at h
        cases h
        exact .inr (.inl ⟨⟨h0, by omega⟩, hb, rfl⟩)

theorem execReset_cases {s t : State} (h : execReset s = .next t) :
    (s.devInitialized = false ∧ t = refuse .notInitialised s) ∨
    (s.devInitialized = true ∧ readStatus s = .ok .running ∧ t = fail .invalidState s) ∨
    (s.devInitialized = true ∧ (∃ st, readStatus s = .ok st ∧ st ≠ .running) ∧ 16 ≤ s.cfg.regionBytes ∧
      t = reply .ok { s with mem := zeroMemory s.mem }) := by
  unfold execReset at h
  rw [finish_next_iff, whenInitialised_ok_iff] at h
  rcases h with ⟨hi, h⟩ | h
  · rw [bind_ok_iff] at h
    obtain ⟨st, hst, h⟩ := h
    split at h
    · next hr => subst hr; cases h; exact .inr (.inl ⟨hi, hst, rfl⟩)
    · next hr =>
      rw [bind_ok_iff] at h
      obtain ⟨u, hu, h⟩ := h
      obtain ⟨h16, rfl⟩ := zeroRegion_ok_iff.1 hu
      cases h
      exact .inr (.inr ⟨hi, ⟨st, hst, hr⟩, h16, rfl⟩)
  · exact .inl h

theorem execPush_cases {d k m : Word} {s t : State} (h : execPush d k m s = .next t) :
    (s.devInitialized = false ∧ t = refuse .notInitialised s) ∨
    (s.devInitialized = true ∧ s.devMapFailed = true ∧ t = refuse .mappingFailed s) ∨
    (s.devInitialized = true ∧ s.devMapFailed = false ∧ s.devMapped = false ∧ t = refuse .notMapped s) ∨
    (s.devInitialized = true ∧ s.devMapFailed = false ∧ s.devMapped = true ∧ ∃ w c, memRead s offWr = .ok w ∧
      memRead s offCap = .ok c ∧ w < c ∧ t = { s with push := some ⟨.storeDelay, w, c, ⟨d, k, m⟩⟩ }) := by
  unfold execPush at h
  rw [finish_next_iff, whenInitialised_ok_iff] at h
  rcases h with ⟨hi, h⟩ | h
  · split at h
    · next hf => cases h; exact .inr (.inl ⟨hi, hf, rfl⟩)
    · next hf =>
      simp only [Bool.not_eq_true] at hf
      split at h
      · next hm => exact .inr (.inr (.inr ⟨hi, hf, hm, beginPush_ok_iff.1 h⟩))
      · next hm =>
        cases h
        exact .inr (.inr (.inl ⟨hi, hf, by simpa using hm, rfl⟩))
  · exact .inl h

theorem execPop_cases {s t : State} (h : execPop s = .next t) :
    (s.devInitialized = false ∧ t = refuse .notInitialised s) ∨
    (s.devInitialized = true ∧ readStatus s = .ok .running ∧ t = refuse .popWhileRunning s) ∨
    (s.devInitialized = true ∧ (∃ st, readStatus s = .ok st ∧ st ≠ .running) ∧
      ∃ u x, popCell s = .ok (u, x) ∧ t = reply (popResult x) u) := by
  unfold execPop at h
  rw [finish_next_iff, whenInitialised_ok_iff] at h
  rcases h with ⟨hi, h⟩ | h
  · rw [bind_ok_iff] at h
    obtain ⟨st, hst, h⟩ := h
    split at h
    · next hr => subst hr; cases h; exact .inr (.inl ⟨hi, hst, rfl⟩)
    · next hr =>
      rw [bind_ok_iff] at h
      obtain ⟨⟨u, x⟩, hu, h⟩ := h
      cases h
      exact .inr (.inr ⟨hi, ⟨st, hst, hr⟩, u, x, hu, rfl⟩)
  · exact .inl h

theorem execSetStatus_eq (v : Word) (s : State) : execSetStatus v s = .next (refuse .standAloneSetStatus s) := rfl

theorem execGetStatus_cases {s t : State} (h : execGetStatus s = .next t) :
    (s.devInitialized = false ∧ t = refuse .notInitialised s) ∨
    (s.devInitialized = true ∧ ∃ st, readStatus s = .ok st ∧ t = reply (.okStatus (statusWord st)) s) := by
  unfold execGetStatus at h
  rw [finish_next_iff, whenInitialised_ok_iff] at h
  rcases h with ⟨hi, h⟩ | h
  · rw [bind_ok_iff] at h
    obtain ⟨st, hst, h⟩ := h
    cases h
    exact .inr ⟨hi, st, hst, rfl⟩
  · exact .inl h

theorem execTick_eq {s : State} (h : s.devInitialized = true) : execTick s = .next (timerTick s) := by
  simp [execTick, h]

theorem execTick_cases {s t : State} (h : execTick s = .next t) :
    (s.devInitialized = false ∧ t = refuse .notInitialised s) ∨ (s.devInitialized = true ∧ t = timerTick s) := by
  unfold execTick at h
  rw [finish_next_iff, whenInitialised_ok_iff] at h
  rcases h with ⟨hi, h⟩ | h
  · cases h; exact .inr ⟨hi, rfl⟩
  · exact .inl h

theorem execCell_eq (d k m : Word) (s : State) : execCell d k m s = .next (runCell ⟨d, k, m⟩ s) := rfl

/-- What the handler can do: execute the cell it popped, or park and disable the callback (R136). -/
theorem runHandler_cases {s t : State} (h : runHandler s = .ok t) :
    (∃ u c, popCell (timerAck s) = .ok (u, some c) ∧ t = runCell c u) ∨
    (∃ u, popCell (timerAck s) = .ok (u, none) ∧ t = callbackEnable false (timerPark u)) := by
  unfold runHandler at h
  rw [bind_ok_iff] at h
  obtain ⟨⟨u, x⟩, hu, h⟩ := h
  cases x with
  | none => cases h; exact .inr ⟨u, hu, rfl⟩
  | some c => cases h; exact .inl ⟨u, c, hu, rfl⟩

theorem execTimerExpiry_cases {s t : State} (h : execTimerExpiry s = .next t) :
    (s.devInitialized = false ∧ t = refuse .notInitialised s) ∨
    (s.devInitialized = true ∧ handlerEnabled s = .ok false ∧ t = s) ∨
    (s.devInitialized = true ∧ handlerEnabled s = .ok true ∧ runHandler s = .ok t) := by
  unfold execTimerExpiry at h
  rw [finish_next_iff, whenInitialised_ok_iff] at h
  rcases h with ⟨hi, h⟩ | h
  · rw [bind_ok_iff] at h
    obtain ⟨b, hb, h⟩ := h
    cases b
    · cases h; exact .inr (.inl ⟨hi, hb, rfl⟩)
    · exact .inr (.inr ⟨hi, hb, h⟩)
  · exact .inl h

theorem execStart_cases {s t : State} (h : execStart s = .next t) :
    (s.devInitialized = false ∧ t = refuse .notInitialised s) ∨
    (s.devInitialized = true ∧ (∃ st, readStatus s = .ok st ∧ st ≠ .stopped) ∧ t = fail .invalidState s) ∨
    (s.devInitialized = true ∧ readStatus s = .ok .stopped ∧
      ∃ u, setStatus (callbackEnable true (timerLoad s.cfg.initialTicks s)) .running = .ok u ∧ t = reply .ok u) := by
  unfold execStart at h
  rw [finish_next_iff, whenInitialised_ok_iff] at h
  rcases h with ⟨hi, h⟩ | h
  · rw [bind_ok_iff] at h
    obtain ⟨st, hst, h⟩ := h
    split at h
    · next hr =>
      subst hr
      rw [bind_ok_iff] at h
      obtain ⟨u, hu, h⟩ := h
      cases h
      exact .inr (.inr ⟨hi, hst, u, hu, rfl⟩)
    · next hr => cases h; exact .inr (.inl ⟨hi, ⟨st, hst, hr⟩, rfl⟩)
  · exact .inl h

theorem execStop_cases {s t : State} (h : execStop s = .next t) :
    (s.devInitialized = false ∧ t = refuse .notInitialised s) ∨
    (s.devInitialized = true ∧ (∃ st, readStatus s = .ok st ∧ st ≠ .running) ∧ t = fail .invalidState s) ∨
    (s.devInitialized = true ∧ readStatus s = .ok .running ∧
      ∃ u, setStatus (callbackEnable false (timerPark s)) .stopped = .ok u ∧ t = reply .ok u) := by
  unfold execStop at h
  rw [finish_next_iff, whenInitialised_ok_iff] at h
  rcases h with ⟨hi, h⟩ | h
  · rw [bind_ok_iff] at h
    obtain ⟨st, hst, h⟩ := h
    split at h
    · next hr =>
      subst hr
      rw [bind_ok_iff] at h
      obtain ⟨u, hu, h⟩ := h
      cases h
      exact .inr (.inr ⟨hi, hst, u, hu, rfl⟩)
    · next hr => cases h; exact .inr (.inl ⟨hi, ⟨st, hst, hr⟩, rfl⟩)
  · exact .inl h

theorem execMapBuffer_cases {size : Word} {s t : State} (h : execMapBuffer size s = .next t) :
    (s.devInitialized = false ∧ t = refuse .notInitialised s) ∨
    (s.devInitialized = true ∧ s.devMapFailed = true ∧ t = refuse .mappingFailed s) ∨
    (s.devInitialized = true ∧ s.devMapFailed = false ∧ ∃ c, memRead s offCap = .ok c ∧
      ((bufferBytes c < size.toNat ∧ t = fail .size s) ∨ (size.toNat ≤ bufferBytes c ∧ t = attemptMapping s))) := by
  unfold execMapBuffer at h
  rw [finish_next_iff, whenInitialised_ok_iff] at h
  rcases h with ⟨hi, h⟩ | h
  · split at h
    · next hf => cases h; exact .inr (.inl ⟨hi, hf, rfl⟩)
    · next hf =>
      simp only [Bool.not_eq_true] at hf
      rw [bind_ok_iff] at h
      obtain ⟨c, hc, h⟩ := h
      refine .inr (.inr ⟨hi, hf, c, hc, ?_⟩)
      split at h
      · next hs => cases h; exact .inl ⟨hs, rfl⟩
      · next hs => cases h; exact .inr ⟨by omega, rfl⟩
  · exact .inl h

/-- Everything a load of the producer can answer (R166): a word of the structure, or a refusal. -/
theorem producerLoad_cases {addr : Word} {s t : State} (h : producerLoad addr s = .ok t) :
    (∃ why, t = refuse why s) ∨
    (s.devInitialized = true ∧ s.devMapped = true ∧ ∃ c v, memRead s offCap = .ok c ∧
      mappedOffset addr s % wordBytes = 0 ∧ mappedOffset addr s + wordBytes ≤ bufferBytes c ∧
      memRead s (mappedOffset addr s) = .ok v ∧ t = { s with loaded := s.loaded ++ [v] }) := by
  unfold producerLoad at h
  rw [whenInitialised_ok_iff] at h
  rcases h with ⟨hi, h⟩ | ⟨-, h⟩
  · split at h
    · next hm =>
      rw [bind_ok_iff] at h
      obtain ⟨c, hc, h⟩ := h
      split at h
      · cases h; exact .inl ⟨_, rfl⟩
      · next hal =>
        split at h
        · cases h; exact .inl ⟨_, rfl⟩
        · next hin =>
          rw [producerRead_eq, bind_ok_iff] at h
          obtain ⟨v, hv, h⟩ := h
          cases h
          exact .inr ⟨hi, hm, c, v, hc, by omega, by omega, hv, rfl⟩
    · cases h; exact .inl ⟨_, rfl⟩
  · exact .inl ⟨_, h⟩

/-- A load of the producer changes nothing but what it returns or the refusal it records (R66). -/
theorem producerLoad_frame {addr : Word} {s t : State} (h : producerLoad addr s = .ok t) :
    t = { s with loaded := t.loaded, refusals := t.refusals } := by
  rcases producerLoad_cases h with ⟨why, rfl⟩ | ⟨-, -, c, v, -, -, -, -, rfl⟩ <;> rfl

/-- No meaning answers a refusal: every refusal of the block is a next state (R42, log 7). -/
theorem exec_ne_refused (i : Instr) (s : State) (r : Refusal) : exec i s ≠ .refused r := by
  cases i <;> first | exact finish_ne_refused _ _ | (intro h; cases h)

end Sys2Proof.Machine
end

