-- ==== Sys2Proof/Laws/PerInstr.lean ====
section
/-! SUPPORT. Facts about each operation as syntax, one lemma per constructor of `Instr`. -/

namespace Sys2Proof.Laws

/-- A well-formed operation's words are read back: a frame at the head of any stream by the decoder, leaving the rest of
the stream, and with the length its code fixes (R87, R91); a Cell by the Cell format (R82). -/
def RoundTrip.Statement (i : Instr) : Prop :=
  i.wf = true → ∀ rest : List Word,
    if i.isFrame then
      decode (encode i ++ rest) = .ok i rest ∧ frameLength ((encode i ++ rest).headD 0#32) = (encode i).length
    else (decodeCell (encode i ++ rest)).map (fun c => Instr.cell c.delay c.clearMask c.setMask) = some i

theorem RoundTrip.init (capacity : Word) : RoundTrip.Statement (.init capacity) := fun _ _ => ⟨rfl, rfl⟩
theorem RoundTrip.mapBuffer (size : Word) : RoundTrip.Statement (.mapBuffer size) := fun _ _ => ⟨rfl, rfl⟩
theorem RoundTrip.start : RoundTrip.Statement .start := fun _ _ => ⟨rfl, rfl⟩
theorem RoundTrip.stop : RoundTrip.Statement .stop := fun _ _ => ⟨rfl, rfl⟩
theorem RoundTrip.reset : RoundTrip.Statement .reset := fun _ _ => ⟨rfl, rfl⟩
theorem RoundTrip.getStatus : RoundTrip.Statement .getStatus := fun _ _ => ⟨rfl, rfl⟩
theorem RoundTrip.push (d k s : Word) : RoundTrip.Statement (.push d k s) := fun _ _ => ⟨rfl, rfl⟩
theorem RoundTrip.pop : RoundTrip.Statement .pop := fun _ _ => ⟨rfl, rfl⟩
theorem RoundTrip.setStatus (s : Word) : RoundTrip.Statement (.setStatus s) := by
  intro h rest
  refine ⟨?_, rfl⟩
  show statusOperand (s :: rest) = _
  rw [statusOperand, if_pos h]
theorem RoundTrip.tick : RoundTrip.Statement .tick := fun _ _ => ⟨rfl, rfl⟩
theorem RoundTrip.timerExpiry : RoundTrip.Statement .timerExpiry := fun _ _ => ⟨rfl, rfl⟩
theorem RoundTrip.cell (d k s : Word) : RoundTrip.Statement (.cell d k s) := fun _ _ => rfl

end Sys2Proof.Laws
end

