-- ==== Sys2Proof/Laws/Queue.lean ====
section
/-! SUPPORT. The pending cells as a queue: occupancy and slots as plain arithmetic, and which stores leave the queue,
the cursors and the status as they were. -/

namespace Sys2Proof.Machine

/-! ## Occupancy and slots (R14, R106) -/

theorem occupancy_eq {r w c : Word} (hr : r < c) (hw : w < c) :
    occupancy r w c = if r.toNat ≤ w.toNat then w.toNat - r.toNat else w.toNat + c.toNat - r.toNat := by
  have hr' : r.toNat < c.toNat := hr
  have hw' : w.toNat < c.toNat := hw
  unfold occupancy
  split
  · rw [show w.toNat + c.toNat - r.toNat = (w.toNat - r.toNat) + c.toNat by omega, Nat.add_mod_right,
      Nat.mod_eq_of_lt (by omega)]
  · exact Nat.mod_eq_of_lt (by omega)

theorem slotFrom_toNat {r c : Word} {j : Nat} (hr : r < c) (hj : j < c.toNat) :
    (slotFrom r c j).toNat = if r.toNat + j < c.toNat then r.toNat + j else r.toNat + j - c.toNat := by
  have hr' : r.toNat < c.toNat := hr
  have hc := c.isLt
  have hm : (r.toNat + j) % c.toNat = if r.toNat + j < c.toNat then r.toNat + j else r.toNat + j - c.toNat := by
    split
    · exact Nat.mod_eq_of_lt (by assumption)
    · rw [Nat.mod_eq_sub_mod (by omega), Nat.mod_eq_of_lt (by omega)]
  simp only [slotFrom, BitVec.toNat_ofNat, hm]
  apply Nat.mod_eq_of_lt
  split <;> omega

theorem nextIndex_toNat_eq {x c : Word} (h : x < c) :
    (nextIndex x c).toNat = if x.toNat + 1 < c.toNat then x.toNat + 1 else 0 := by
  have h' : x.toNat < c.toNat := h
  rw [nextIndex_toNat h]
  split
  · exact Nat.mod_eq_of_lt (by assumption)
  · rw [show x.toNat + 1 = c.toNat by omega, Nat.mod_self]

theorem occupancy_lt {r c : Word} (hr : r < c) (w : Word) : occupancy r w c < c.toNat := by
  have hr' : r.toNat < c.toNat := hr
  exact Nat.mod_lt _ (by omega)

/-- The occupancy is 0 exactly when the buffer is empty (R29). -/
theorem occupancy_eq_zero_iff {r w c : Word} (hr : r < c) (hw : w < c) : occupancy r w c = 0 ↔ r = w := by
  have hr' : r.toNat < c.toNat := hr
  have hw' : w.toNat < c.toNat := hw
  rw [occupancy_eq hr hw, ← BitVec.toNat_inj]
  split <;> omega

/-- Consuming a cell takes one from the occupancy (R104). -/
theorem occupancy_next_read {r w c : Word} (hr : r < c) (hw : w < c) (h : r ≠ w) :
    occupancy (nextIndex r c) w c + 1 = occupancy r w c := by
  have hr' : r.toNat < c.toNat := hr
  have hw' : w.toNat < c.toNat := hw
  have h' : r.toNat ≠ w.toNat := fun e => h (BitVec.eq_of_toNat_eq e)
  rw [occupancy_eq hr hw, occupancy_eq (nextIndex_lt hr) hw, nextIndex_toNat_eq hr]
  split <;> split <;> split <;> omega

/-- Publishing a cell adds one to the occupancy, or empties the buffer when it was `capacity - 1` (R102, R220). -/
theorem occupancy_next_write {r w c : Word} (hr : r < c) (hw : w < c) :
    occupancy r (nextIndex w c) c = if occupancy r w c + 1 < c.toNat then occupancy r w c + 1 else 0 := by
  have hr' : r.toNat < c.toNat := hr
  have hw' : w.toNat < c.toNat := hw
  rw [occupancy_eq hr hw, occupancy_eq hr (nextIndex_lt hw), nextIndex_toNat_eq hw]
  by_cases h1 : w.toNat + 1 < c.toNat <;> by_cases h2 : r.toNat ≤ w.toNat
  · rw [if_pos h1, if_pos h2, if_pos (by omega), if_pos (by omega)]; omega
  · rw [if_pos h1, if_neg h2]
    by_cases h3 : r.toNat ≤ w.toNat + 1
    · rw [if_pos h3, if_neg (by omega)]; omega
    · rw [if_neg h3, if_pos (by omega)]; omega
  · rw [if_neg h1, if_pos h2]
    by_cases h3 : r.toNat ≤ 0
    · rw [if_pos h3, if_neg (by omega)]; omega
    · rw [if_neg h3, if_pos (by omega)]; omega
  · rw [if_neg h1, if_neg h2]; omega

/-- Slot `j` after the read cursor's advance is slot `j + 1` before it. -/
theorem slotFrom_next {r c : Word} (hr : r < c) (j : Nat) : slotFrom (nextIndex r c) c j = slotFrom r c (j + 1) := by
  simp only [slotFrom, nextIndex_toNat hr, Nat.mod_add_mod]
  congr 2
  omega

theorem slotFrom_zero {r c : Word} (hr : r < c) : slotFrom r c 0 = r := by
  apply BitVec.eq_of_toNat_eq
  have hr' : r.toNat < c.toNat := hr
  rw [slotFrom_toNat hr (by omega), if_pos (by omega)]
  rfl

/-- The slot after the last pending cell is the one the write cursor names. -/
theorem slotFrom_occupancy {r w c : Word} (hr : r < c) (hw : w < c) : slotFrom r c (occupancy r w c) = w := by
  apply BitVec.eq_of_toNat_eq
  have hr' : r.toNat < c.toNat := hr
  have hw' : w.toNat < c.toNat := hw
  rw [slotFrom_toNat hr (occupancy_lt hr w), occupancy_eq hr hw]
  split <;> split <;> omega

/-- A slot below the capacity is a legal index. -/
theorem slotFrom_lt {r c : Word} (hr : r < c) (j : Nat) : slotFrom r c j < c := by
  have hr' : r.toNat < c.toNat := hr
  show (slotFrom r c j).toNat < c.toNat
  have hc := c.isLt
  have hm := Nat.mod_lt (r.toNat + j) (show 0 < c.toNat by omega)
  simp only [slotFrom, BitVec.toNat_ofNat]
  rw [Nat.mod_eq_of_lt (by omega)]
  exact hm

/-- The slot a `PUSH` is writing is never a pending slot: no torn cell (R221). -/
theorem slotFrom_ne_write {r w c : Word} {j : Nat} (hr : r < c) (hw : w < c) (hj : j < occupancy r w c) :
    (slotFrom r c j).toNat ≠ w.toNat := by
  have hr' : r.toNat < c.toNat := hr
  have hw' : w.toNat < c.toNat := hw
  have hlt := occupancy_lt hr w
  rw [slotFrom_toNat hr (by omega)]
  rw [occupancy_eq hr hw] at hj
  split at hj <;> split <;> omega

/-! ## What depends on the region only -/

theorem Cursors.congr {s t : State} {r w c : Word} (h : Cursors s r w c) (hc : t.cfg = s.cfg) (hm : t.mem = s.mem) :
    Cursors t r w c := by
  refine ⟨?_, ?_, ?_, h.readBelow, h.writeBelow, ?_⟩
  · rw [memRead_congr hc hm]; exact h.read
  · rw [memRead_congr hc hm]; exact h.write
  · rw [memRead_congr hc hm]; exact h.cap
  · rw [hc]; exact h.capLegal

theorem HoldsQueue.congr {s t : State} {q : List Cell} (h : HoldsQueue s q) (hc : t.cfg = s.cfg)
    (hm : t.mem = s.mem) : HoldsQueue t q := by
  obtain ⟨r, w, c, hcur, hlen, hq⟩ := h
  refine ⟨r, w, c, hcur.congr hc hm, hlen, fun j hj => ?_⟩
  rw [readCell_congr hc hm]
  exact hq j hj

/-- The cursors and the capacity are determined by the region. -/
theorem Cursors.unique {s : State} {r w c r' w' c' : Word} (h : Cursors s r w c) (h' : Cursors s r' w' c') :
    r = r' ∧ w = w' ∧ c = c' := by
  have h1 := h.read; have h2 := h.write; have h3 := h.cap
  rw [h'.read] at h1; rw [h'.write] at h2; rw [h'.cap] at h3
  simp only [Except.ok.injEq] at h1 h2 h3
  exact ⟨h1.symm, h2.symm, h3.symm⟩

/-- A region that holds legal cursors has room for the control words. -/
theorem Cursors.regionBig {s : State} {r w c : Word} (h : Cursors s r w c) : 28 ≤ s.cfg.regionBytes := by
  have hr : r.toNat < c.toNat := h.readBelow
  exact control_inside (by omega) h.capLegal

/-! ## What each store does to the queue -/

/-- A store to the status leaves the pending cells. -/
theorem HoldsQueue.store_status {s : State} {q : List Cell} (h : HoldsQueue s q) (v : Word) :
    HoldsQueue { s with mem := storeWord s.mem offSt v } q := by
  obtain ⟨r, w, c, hcur, hlen, hq⟩ := h
  refine ⟨r, w, c, ⟨?_, ?_, ?_, hcur.readBelow, hcur.writeBelow, hcur.capLegal⟩, hlen, fun j hj => ?_⟩
  · rw [memRead_store_disjoint _ _ (by simp [offRd_eq, offSt_eq])]; exact hcur.read
  · rw [memRead_store_disjoint _ _ (by simp [offWr_eq, offSt_eq])]; exact hcur.write
  · rw [memRead_store_disjoint _ _ (by simp [offCap_eq, offSt_eq])]; exact hcur.cap
  · rw [readCell_store_control _ _ (by simp [offSt_eq])]; exact hq j hj

/-- Where the cursors differ there is a head cell, and it stands in slot `read_index`. -/
theorem HoldsQueue.head {s : State} {q : List Cell} {r w c : Word} (h : HoldsQueue s q) (hcur : Cursors s r w c)
    (hrw : r ≠ w) : ∃ x q', q = x :: q' ∧ readCell s r = .ok x := by
  obtain ⟨r', w', c', hcur', hlen, hq⟩ := h
  obtain ⟨rfl, rfl, rfl⟩ := hcur.unique hcur'
  have hocc := occupancy_next_read hcur.readBelow hcur.writeBelow hrw
  cases q with
  | nil => simp only [List.length_nil] at hlen; omega
  | cons x q' =>
    refine ⟨x, q', rfl, ?_⟩
    have := hq 0 (by simp)
    rw [slotFrom_zero hcur.readBelow] at this
    simpa using this

/-- The cursors are equal exactly when nothing is pending (R29). -/
theorem HoldsQueue.nil_iff {s : State} {q : List Cell} {r w c : Word} (h : HoldsQueue s q) (hcur : Cursors s r w c) :
    q = [] ↔ r = w := by
  obtain ⟨r', w', c', hcur', hlen, -⟩ := h
  obtain ⟨rfl, rfl, rfl⟩ := hcur.unique hcur'
  rw [← occupancy_eq_zero_iff hcur.readBelow hcur.writeBelow, ← hlen, List.length_eq_zero_iff]

/-- The advance of `read_index` takes the head cell (R104). -/
theorem HoldsQueue.store_read {s : State} {q : List Cell} {r w c : Word} (h : HoldsQueue s q) (hcur : Cursors s r w c)
    (hrw : r ≠ w) : HoldsQueue { s with mem := storeWord s.mem offRd (nextIndex r c) } q.tail := by
  obtain ⟨r', w', c', hcur', hlen, hq⟩ := h
  obtain ⟨rfl, rfl, rfl⟩ := hcur.unique hcur'
  have hocc := occupancy_next_read hcur.readBelow hcur.writeBelow hrw
  have hbig := hcur.regionBig
  refine ⟨nextIndex r c, w, c,
    ⟨?_, ?_, ?_, nextIndex_lt hcur.readBelow, hcur.writeBelow, hcur.capLegal⟩, by simp; omega, fun j hj => ?_⟩
  · exact memRead_store_same _ (by simp [offRd_eq]; omega)
  · rw [memRead_store_disjoint _ _ (by simp [offWr_eq, offRd_eq])]; exact hcur.write
  · rw [memRead_store_disjoint _ _ (by simp [offCap_eq, offRd_eq])]; exact hcur.cap
  · rw [readCell_store_control _ _ (by simp [offRd_eq]), slotFrom_next hcur.readBelow]
    simp only [List.length_tail] at hj
    rw [hq (j + 1) (by omega)]
    simp

/-- A store into the slot `write_index` names leaves the pending cells: no torn cell (R221). -/
theorem HoldsQueue.store_write_slot {s : State} {q : List Cell} {r w c : Word} (h : HoldsQueue s q)
    (hcur : Cursors s r w c) {off : Nat} (v : Word) (h0 : offCell w.toNat ≤ off)
    (h1 : off + 4 ≤ offCell w.toNat + 12) : HoldsQueue { s with mem := storeWord s.mem off v } q := by
  obtain ⟨r', w', c', hcur', hlen, hq⟩ := h
  obtain ⟨rfl, rfl, rfl⟩ := hcur.unique hcur'
  have : 16 ≤ off := by simp only [offCell, wordBytes] at h0; omega
  refine ⟨r, w, c, ⟨?_, ?_, ?_, hcur.readBelow, hcur.writeBelow, hcur.capLegal⟩, hlen, fun j hj => ?_⟩
  · rw [memRead_store_disjoint _ _ (by simp [offRd_eq]; omega)]; exact hcur.read
  · rw [memRead_store_disjoint _ _ (by simp [offWr_eq]; omega)]; exact hcur.write
  · rw [memRead_store_disjoint _ _ (by simp [offCap_eq]; omega)]; exact hcur.cap
  · rw [readCell_store_other _ _ h0 h1 (slotFrom_ne_write hcur.readBelow hcur.writeBelow (by omega))]; exact hq j hj

/-- The advance of `write_index` appends the cell in the slot it named, or empties the buffer when it laps (R102, R220). -/
theorem HoldsQueue.store_write {s : State} {q : List Cell} {r w c : Word} {x : Cell} (h : HoldsQueue s q)
    (hcur : Cursors s r w c) (hx : readCell s w = .ok x) :
    HoldsQueue { s with mem := storeWord s.mem offWr (nextIndex w c) }
      (if q.length + 1 < c.toNat then q ++ [x] else []) := by
  obtain ⟨r', w', c', hcur', hlen, hq⟩ := h
  obtain ⟨rfl, rfl, rfl⟩ := hcur.unique hcur'
  have hocc := occupancy_next_write hcur.readBelow hcur.writeBelow
  have hbig := hcur.regionBig
  have hc : Cursors { s with mem := storeWord s.mem offWr (nextIndex w c) } r (nextIndex w c) c := by
    refine ⟨?_, ?_, ?_, hcur.readBelow, nextIndex_lt hcur.writeBelow, hcur.capLegal⟩
    · rw [memRead_store_disjoint _ _ (by simp [offRd_eq, offWr_eq])]; exact hcur.read
    · exact memRead_store_same _ (by simp [offWr_eq]; omega)
    · rw [memRead_store_disjoint _ _ (by simp [offCap_eq, offWr_eq])]; exact hcur.cap
  refine ⟨r, nextIndex w c, c, hc, ?_, fun j hj => ?_⟩
  · rw [hocc, hlen]; split <;> simp [hlen]
  · rw [readCell_store_control _ _ (by simp [offWr_eq])]
    by_cases hlt : q.length + 1 < c.toNat
    · rw [if_pos hlt] at hj
      simp only [hlt, if_true]
      rw [List.length_append, List.length_singleton] at hj
      by_cases hj' : j < q.length
      · rw [hq j hj', List.getElem_append_left hj']
      · have : j = q.length := by omega
        subst this
        have hs : slotFrom r c q.length = w := by rw [hlen]; exact slotFrom_occupancy hcur.readBelow hcur.writeBelow
        rw [hs]
        simpa using hx
    · simp [hlt] at hj

/-! ## What each store does to the status and to a `PUSH` in progress -/

theorem readStatus_store_disjoint (s : State) {off : Nat} (v : Word) (h : off + 4 ≤ 12 ∨ 16 ≤ off) :
    readStatus { s with mem := storeWord s.mem off v } = readStatus s := by
  unfold readStatus
  rw [memRead_store_disjoint _ _ (by simp [offSt_eq]; omega)]

/-- A store to a control word leaves the words a `PUSH` in progress has stored. -/
theorem StoredPrefix.store_control {s : State} {p : PushInProgress} (h : StoredPrefix s p) {off : Nat} (v : Word)
    (ho : off + 4 ≤ 16) : StoredPrefix { s with mem := storeWord s.mem off v } p := by
  unfold StoredPrefix at *
  rw [memRead_store_disjoint _ _ (by rw [offDelay_eq]; omega), memRead_store_disjoint _ _ (by rw [offClear_eq]; omega),
    memRead_store_disjoint _ _ (by rw [offSet_eq]; omega)]
  exact h

/-- The control words after `INIT`'s stores. -/
theorem initMemory_loads (c : Word) (m : Memory) :
    loadWord (initMemory c m) offRd = some 0#32 ∧ loadWord (initMemory c m) offWr = some 0#32 ∧
      loadWord (initMemory c m) offCap = some c ∧ loadWord (initMemory c m) offSt = some (statusWord .stopped) := by
  simp only [initMemory, offRd_eq, offWr_eq, offCap_eq, offSt_eq]
  refine ⟨?_, ?_, ?_, loadWord_storeWord_same _ _ _⟩
  · rw [loadWord_storeWord_disjoint _ _ _ (by omega), loadWord_storeWord_disjoint _ _ _ (by omega),
      loadWord_storeWord_disjoint _ _ _ (by omega), loadWord_storeWord_same]
  · rw [loadWord_storeWord_disjoint _ _ _ (by omega), loadWord_storeWord_disjoint _ _ _ (by omega),
      loadWord_storeWord_same]
  · rw [loadWord_storeWord_disjoint _ _ _ (by omega), loadWord_storeWord_same]

/-- The control words after `RESET`'s stores. -/
theorem zeroMemory_loads (m : Memory) :
    loadWord (zeroMemory m) offRd = some 0#32 ∧ loadWord (zeroMemory m) offWr = some 0#32 ∧
      loadWord (zeroMemory m) offCap = loadWord m offCap ∧
      loadWord (zeroMemory m) offSt = some (statusWord .stopped) := by
  simp only [zeroMemory, offRd_eq, offWr_eq, offCap_eq, offSt_eq]
  refine ⟨?_, ?_, ?_, loadWord_storeWord_same _ _ _⟩
  · rw [loadWord_storeWord_disjoint _ _ _ (by omega), loadWord_storeWord_disjoint _ _ _ (by omega),
      loadWord_storeWord_same]
  · rw [loadWord_storeWord_disjoint _ _ _ (by omega), loadWord_storeWord_same]
  · rw [loadWord_storeWord_disjoint _ _ _ (by omega), loadWord_storeWord_disjoint _ _ _ (by omega),
      loadWord_storeWord_disjoint _ _ _ (by omega)]

/-! ## The invariant depends on these fields only -/

theorem Inv.congr {s t : State} (h : Inv s) (cfg : t.cfg = s.cfg) (mem : t.mem = s.mem)
    (count : t.tmrCount = s.tmrCount) (armed : t.tmrArmed = s.tmrArmed)
    (pending : t.tmrExpiryPending = s.tmrExpiryPending) (callback : t.cbEnable = s.cbEnable)
    (initialized : t.devInitialized = s.devInitialized) (mapped : t.devMapped = s.devMapped)
    (failed : t.devMapFailed = s.devMapFailed) (push : t.push = s.push) : Inv t := by
  obtain ⟨h1, h2, h3, h4, h5, h6, h7, h8⟩ := h
  refine ⟨by rw [mem]; exact h1, by rw [cfg, mem]; exact h2, by rw [count, armed]; exact h3,
    by rw [armed, pending]; exact h4, by rw [armed, pending, callback]; exact h5, by rw [mapped, failed]; exact h6,
    by rw [callback, initialized, mapped, failed, push]; exact h7, fun hi => ?_⟩
  rw [initialized] at hi
  obtain ⟨⟨q, hq⟩, ⟨st, hst, hiff⟩, hp⟩ := h8 hi
  refine ⟨⟨q, hq.congr cfg mem⟩, ⟨st, by rw [readStatus_congr cfg mem]; exact hst, by rw [callback]; exact hiff⟩,
    fun p hpp => ?_⟩
  rw [push] at hpp
  obtain ⟨hw, hc, hs⟩ := hp p hpp
  refine ⟨by rw [memRead_congr cfg mem]; exact hw, by rw [memRead_congr cfg mem]; exact hc, ?_⟩
  unfold StoredPrefix at *
  simp only [memRead_congr cfg mem]
  exact hs

theorem inv_refuse {s : State} (why : RefusedBy) (h : Inv s) : Inv (refuse why s) :=
  h.congr rfl rfl rfl rfl rfl rfl rfl rfl rfl rfl

theorem inv_reply {s : State} (r : Result) (h : Inv s) : Inv (reply r s) :=
  h.congr rfl rfl rfl rfl rfl rfl rfl rfl rfl rfl

theorem inv_fail {s : State} (e : ErrorKind) (h : Inv s) : Inv (fail e s) :=
  h.congr rfl rfl rfl rfl rfl rfl rfl rfl rfl rfl

end Sys2Proof.Machine
end

