-- ==== Sys2Proof/Laws/Step.lean ====
section
/-! SUPPORT. Everything the next move can be: the case analysis the proofs about `step` start from. -/

namespace Sys2Proof.Machine

/-- The decoder never reads a Cell from a stream of frames (R80). -/
theorem decode_isFrame {ws rest : List Word} {i : Instr} (h : decode ws = .ok i rest) : i.isFrame = true := by
  cases ws with
  | nil => cases h
  | cons code ops =>
    simp only [decode, decodeFrame] at h
    repeat' split at h
    all_goals first
      | (cases h; rfl)
      | (unfold oneOperand at h; split at h <;> cases h; rfl)
      | (unfold threeOperands at h; split at h <;> cases h; rfl)
      | (unfold statusOperand at h; split at h <;> [(split at h <;> cases h; rfl); cases h])
      | cases h

/-- With no `PUSH` in progress: a load of the producer, or the next frame with the entry of `loads` used up. -/
theorem nextBetweenPushes_cases (s : State) :
    (∃ addr more, s.loads = some addr :: more ∧ nextBetweenPushes s = .load addr { s with loads := more }) ∨
    ((∀ addr more, s.loads ≠ some addr :: more) ∧
      nextBetweenPushes s = nextFrame { s with loads := s.loads.tail }) := by
  unfold nextBetweenPushes
  split
  · next addr more h => exact .inl ⟨addr, more, h, rfl⟩
  · next h => exact .inr ⟨h, rfl⟩

/-- The next move is a step of the `PUSH` in progress, an operation (with a `PUSH` in progress, one of C or T), a load of
the producer, or a refused frame; only the inputs `trace`, `preempt` and `loads` change before it. -/
theorem nextMove_cases (s : State) :
    (∃ p s', s.push = some p ∧ nextMove s = .pushOn p s' ∧ (s' = s ∨ s' = { s with preempt := s.preempt.tail })) ∨
    (∃ i tr pr lo, nextMove s = .run i { s with trace := tr, preempt := pr, loads := lo } ∧ i.isFrame = true ∧
      (s.push ≠ none → agentOf i ≠ .producer)) ∨
    (∃ addr lo, s.push = none ∧ nextMove s = .load addr { s with loads := lo }) ∨
    (∃ why tr lo, nextMove s = .reject why { s with trace := tr, loads := lo }) := by
  rcases hp : s.push with _ | p
  · right
    simp only [nextMove, hp]
    rcases nextBetweenPushes_cases s with ⟨addr, more, -, h⟩ | ⟨-, h⟩
    · exact .inr (.inl ⟨addr, more, trivial, by rw [h, hp]⟩)
    · rw [h]
      simp only [nextFrame]
      split
      · left
        unfold idleMove
        split
        · exact ⟨.tick, s.trace, s.preempt, s.loads.tail, by cases s; simp_all, rfl, by simp⟩
        · exact ⟨.timerExpiry, s.trace, s.preempt, s.loads.tail, by cases s; simp_all, rfl, by simp⟩
      · split
        · next i rest h => exact .inl ⟨i, rest, s.preempt, s.loads.tail, by cases s; simp_all, decode_isFrame h, by simp⟩
        · next why rest h => exact .inr (.inr ⟨refusedBy why, rest, s.loads.tail, by cases s; simp_all⟩)
  · simp only [nextMove, hp, nextDuringPush]
    split
    · next i rest h =>
      split
      · exact .inl ⟨p, s, rfl, rfl, .inl rfl⟩
      · next hne =>
        split
        · next more _ =>
          exact .inr (.inl ⟨i, rest, more, s.loads, by cases s; simp_all, decode_isFrame h, fun _ => hne⟩)
        · exact .inl ⟨p, _, rfl, rfl, .inr rfl⟩
    · exact .inl ⟨p, s, rfl, rfl, .inl rfl⟩

theorem step_of_pushOn {s s' : State} {p : PushInProgress} (h : nextMove s = .pushOn p s') :
    step s = continuePush p s' := by simp [step, h]

theorem step_of_run {s s' : State} {i : Instr} (h : nextMove s = .run i s') : step s = exec i s' := by simp [step, h]

theorem step_of_load {s s' : State} {addr : Word} (h : nextMove s = .load addr s') :
    step s = stepLoad addr s' := by simp [step, h]

theorem step_of_reject {s s' : State} {why : RefusedBy} (h : nextMove s = .reject why s') :
    step s = .next (refuse why s') := by simp [step, h]

end Sys2Proof.Machine
end

