-- ==== Sys2Proof/Tests/Slice0.lean ====
section
/-! SUPPORT. The model's own tests. Expected values come from spec/95_test_vectors.md (its ids stand in the names or
docstrings) and from the encodings of spec/30_encoding.md; the last part shows, for every statement with hypotheses, a
state and operands that meet them all. -/

namespace Sys2Proof.Tests

open Sys2Proof Sys2Proof.Machine

/-! ## Building small states -/

/-- The parameters of the vectors: `REGION_BYTES = 64`, `INITIAL_TICKS = 5`. -/
def vectorConfig : Config where
  regionBytes := 64
  baseK := 0x10000000#32
  baseU := 0x40000000#32
  initialTicks := 5#32
  parkValue := 0xDEAD#32
  tickHz := 1000
  tmrLoadAddr := 0#32
  outSetAddr := 4#32
  outClrAddr := 8#32
  tmrAckAddr := 12#32
  cbSwitchAddr := 16#32

/-- The region image of control words and cells (R51). -/
def image (rd wr cap st : Word) (cells : List Cell) : Memory :=
  (bytesOfWords ([rd, wr, cap, st] ++ cells.flatMap fun c => [c.delay, c.clearMask, c.setMask])).zipIdx.map
    fun e => (e.2, e.1)

/-- Four cells. -/
def fourCells : List Cell := [⟨10#32, 0#32, 1#32⟩, ⟨20#32, 1#32, 2#32⟩, ⟨30#32, 2#32, 0#32⟩, ⟨7#32, 1#32, 2#32⟩]

/-- The device at attach, with the vectors' parameters. -/
def attached : State := { State.reset with cfg := vectorConfig }

/-- An initialised and mapped device with these control words and the four cells. -/
def device (rd wr cap st : Word) : State :=
  { attached with
    mem := image rd wr cap st (fourCells.take cap.toNat), devInitialized := true, devMapped := true }

/-- The same device RUNNING with its expiry pending. -/
def expired (rd wr cap : Word) : State := { device rd wr cap 1#32 with cbEnable := true, tmrExpiryPending := true }

/-- The device in the middle of a `PUSH` of `(7, 1, 2)`. -/
def pushing (rd wr cap st : Word) (stage : PushStage) : State :=
  { device rd wr cap st with push := some ⟨stage, wr, cap, ⟨7#32, 1#32, 2#32⟩⟩ }

/-- The state a step leaves. -/
def after : Host.Outcome State Fault Refusal → Option State
  | .next t => some t
  | _ => none

/-- The four control words. -/
def controlWords (s : State) : List (Option Word) :=
  [loadWord s.mem 0, loadWord s.mem 4, loadWord s.mem 8, loadWord s.mem 12]

/-- The timer: `cnt`, `armed`, `pend`. -/
def timer (s : State) : Reg × Bool × Bool := (s.tmrCount, s.tmrArmed, s.tmrExpiryPending)

/-- The step of this frame. -/
def frame (ws : List Word) (s : State) : Option State := after (step { s with trace := ws })

/-! ## Well-formedness -/

/-- R90: `SET_STATUS 3` is ill-formed; 2 is well-formed. -/
theorem test_wf_refuses_status_three : (Instr.setStatus 3#32).wf = false ∧ (Instr.setStatus 2#32).wf = true := by decide

/-- R8, R54: a base that is no multiple of 4 is ill-formed, in either mapping. -/
theorem test_wf_refuses_unaligned_base : vectorConfig.wf = true ∧
    { vectorConfig with baseK := 0x10000002#32 }.wf = false ∧ { vectorConfig with baseU := 1#32 }.wf = false := by decide

/-! ## Decoding, from the words of 95_test_vectors.md section 2.1 -/

theorem test_decode_init : decode [0x00000001#32, 0x00000004#32] = .ok (.init 4#32) [] := by decide
theorem test_decode_mapBuffer : decode [0x00000002#32, 0x00000040#32] = .ok (.mapBuffer 64#32) [] := by decide
theorem test_decode_start : decode [0x00000003#32] = .ok .start [] := by decide
theorem test_decode_stop : decode [0x00000004#32] = .ok .stop [] := by decide
theorem test_decode_reset : decode [0x00000005#32] = .ok .reset [] := by decide
theorem test_decode_getStatus : decode [0x00000006#32] = .ok .getStatus [] := by decide
theorem test_decode_push :
    decode [0x00000010#32, 0x0000000A#32, 0x00000000#32, 0x00000001#32] = .ok (.push 10#32 0#32 1#32) [] := by decide
theorem test_decode_pop : decode [0x00000011#32] = .ok .pop [] := by decide
theorem test_decode_setStatus : decode [0x00000012#32, 0x00000002#32] = .ok (.setStatus 2#32) [] := by decide
theorem test_decode_tick : decode [0x00000020#32] = .ok .tick [] := by decide
theorem test_decode_timerExpiry : decode [0x00000021#32] = .ok .timerExpiry [] := by decide
/-- R82: the Cell `(10, 0x3, 0x1)`, through the table's numbering (word 0 in bits 31..0). -/
theorem test_decode_cell :
    decodeTableWord 96 0x00000001_00000003_0000000A = some (.cell 10#32 3#32 1#32) := by decide
/-- Two frames in a stream: the first one's length is fixed by its code (R91). -/
theorem test_decode_leaves_rest : decode [0x00000001#32, 4#32, 0x00000003#32] = .ok (.init 4#32) [0x00000003#32] := by
  decide

/-- The refused frames of section 2.1. -/
theorem test_decode_refuses_reserved :
    ([0x00#32, 0x07#32, 0x0F#32, 0x13#32, 0x1F#32, 0x22#32, 0xFF#32, 0x00000103#32] : List Word).all
      (fun w => decide (decode [w] = .reject .reservedCode [])) = true := by decide
theorem test_decode_refuses_setStatus_three :
    decode [0x00000012#32, 0x00000003#32] = .reject .reservedStatus [] := by decide
/-- R87: a `PUSH` frame of three words is no frame. -/
theorem test_decode_refuses_truncated : decode [0x00000010#32, 1#32, 2#32] = .reject .truncated [] := by decide

/-- The byte image of `PUSH 10, 0x0, 0x1` in section 2.1. -/
theorem test_byte_image_of_push :
    decodeBytes [0x10#8, 0#8, 0#8, 0#8, 0x0A#8, 0#8, 0#8, 0#8, 0#8, 0#8, 0#8, 0#8, 0x01#8, 0#8, 0#8, 0#8] =
      .ok (.push 10#32 0#32 1#32) [] := by decide

/-! ## Layout, from section 2.2 -/

theorem test_layout : offCell 0 = 16 ∧ offCell 3 = 52 ∧ offCell 255 = 3076 ∧
    bufferBytes 1#32 = 28 ∧ bufferBytes 4#32 = 64 ∧ bufferBytes 256#32 = 3088 := by decide
theorem test_capMax :
    ([27, 28, 39, 40, 64, 4096].map fun n => capMax { vectorConfig with regionBytes := n }) = [0, 1, 1, 2, 4, 340] := by
  decide

/-! ## One step each -/

/-- V-I1. -/
theorem test_init : (frame [0x01#32, 4#32] attached).map controlWords = some [some 0#32, some 0#32, some 4#32, some 0#32] := by
  decide
/-- V-I5: the capacity is checked before the status. -/
theorem test_init_zero_while_running :
    (frame [0x01#32, 0#32] (device 2 3 4 1)).map (fun t => (t.results, controlWords t)) =
      some ([.failed .capacity], [some 2#32, some 3#32, some 4#32, some 1#32]) := by decide
/-- V-M3. -/
theorem test_mapBuffer_too_large : (frame [0x02#32, 65#32] (device 0 0 4 0)).map (·.results) = some [.failed .size] := by
  decide
/-- V-M5. -/
theorem test_mapBuffer_platform_fails :
    (frame [0x02#32, 64#32] { device 0 0 4 0 with mapOk := [false] }).map (fun t => (t.devMapFailed, t.devMapped)) =
      some (true, false) := by decide
/-- V-A1. -/
theorem test_start : (frame [0x03#32] (device 0 3 4 0)).map (fun t => (controlWords t, timer t, t.cbEnable)) =
    some ([some 0#32, some 3#32, some 4#32, some 1#32], (5#32, true, false), true) := by decide
/-- V-A3. -/
theorem test_start_after_underrun :
    (frame [0x03#32] (device 3 3 4 2)).map (·.results) = some [.failed .invalidState] := by decide
/-- V-B2: the pending expiry is discarded. -/
theorem test_stop_discards_expiry :
    (frame [0x04#32] (expired 2 3 4)).map (fun t => (controlWords t, timer t, t.cbEnable)) =
      some ([some 2#32, some 3#32, some 4#32, some 0#32], (0xDEAD#32, false, false), false) := by decide
/-- V-B3. -/
theorem test_stop_while_stopped :
    (frame [0x04#32] (device 0 0 4 0)).map (·.results) = some [.failed .invalidState] := by decide
/-- V-R1. -/
theorem test_reset : (frame [0x05#32] (device 3 3 4 2)).map controlWords =
    some [some 0#32, some 0#32, some 4#32, some 0#32] := by decide
/-- V-R3. -/
theorem test_reset_while_running :
    (frame [0x05#32] (device 1 3 4 1)).map (·.results) = some [.failed .invalidState] := by decide
/-- V-G1, status 2. -/
theorem test_getStatus : (frame [0x06#32] (device 0 0 4 2)).map (·.results) = some [.okStatus 2#32] := by decide
/-- V-G2. -/
theorem test_getStatus_before_init :
    (frame [0x06#32] attached).map (fun t => (t.results, t.refusals)) = some ([], [.notInitialised]) := by decide
/-- Step 1 of V-P2: `w = 3, c = 4`. -/
theorem test_push_loads : (frame [0x10#32, 7#32, 1#32, 2#32] (device 0 3 4 0)).map (·.push) =
    some (some ⟨.storeDelay, 3#32, 4#32, ⟨7#32, 1#32, 2#32⟩⟩) := by decide
/-- Step 5 of V-P2: the cursor wraps to 0. -/
theorem test_push_publishes :
    (frame [] (pushing 0 3 4 0 .publish)).map (fun t => (controlWords t, t.push, t.results)) =
      some ([some 0#32, some 0#32, some 4#32, some 0#32], none, [.ok]) := by decide
/-- V-Q2: the read cursor wraps. -/
theorem test_pop_wraps : (frame [0x11#32] (device 3 0 4 0)).map (fun t => (controlWords t, t.results)) =
    some ([some 0#32, some 0#32, some 4#32, some 0#32], [.okSome ⟨7#32, 1#32, 2#32⟩]) := by decide
/-- V-Q3. -/
theorem test_pop_underruns : (frame [0x11#32] (device 0 0 4 0)).map (fun t => (controlWords t, t.results)) =
    some ([some 0#32, some 0#32, some 4#32, some 2#32], [.okNone]) := by decide
/-- The last refused frame of section 2.1: a stand-alone `SET_STATUS 0`. -/
theorem test_setStatus_refused :
    (frame [0x12#32, 0#32] (device 0 0 4 2)).map (fun t => (controlWords t, t.refusals, t.results)) =
      some ([some 0#32, some 0#32, some 4#32, some 2#32], [.standAloneSetStatus], []) := by decide
/-- V-T1. -/
theorem test_tick : (frame [0x20#32] { device 0 0 4 0 with tmrCount := 2#32, tmrArmed := true }).map timer =
    some (1#32, true, false) := by decide
/-- V-T2. -/
theorem test_tick_expires : (frame [0x20#32] { device 0 0 4 0 with tmrCount := 1#32, tmrArmed := true }).map timer =
    some (0#32, false, true) := by decide
/-- R41, R211, U16: before `INIT` the two events are refused as well. -/
theorem test_events_before_init :
    ((frame [0x20#32] attached).map (·.refusals), (frame [0x21#32] attached).map (·.refusals)) =
      (some [.notInitialised], some [.notInitialised]) := by decide
/-- V-E1. -/
theorem test_expiry_executes_cell :
    (frame [0x21#32] (expired 0 1 4)).map (fun t => (controlWords t, timer t, t.outLevel)) =
      some ([some 1#32, some 1#32, some 4#32, some 1#32], (10#32, true, false), 1#32) := by decide
/-- V-E2: the outputs are kept. -/
theorem test_expiry_underruns :
    (frame [0x21#32] { expired 1 1 4 with outLevel := 1#32 }).map (fun t => (controlWords t, timer t, t.cbEnable, t.outLevel)) =
      some ([some 1#32, some 1#32, some 4#32, some 2#32], (0xDEAD#32, false, false), false, 1#32) := by decide
/-- V-C1. -/
theorem test_cell : (after (exec (.cell 10#32 3#32 1#32) { attached with outLevel := 2#32 })).map
    (fun t => (timer t, t.outLevel)) = some ((10#32, true, false), 1#32) := by decide
/-- V-C5: a zero delay is pending at once. -/
theorem test_cell_zero_delay : (after (exec (.cell 0#32 0#32 3#32) attached)).map (fun t => (timer t, t.outLevel)) =
    some ((0#32, false, true), 3#32) := by decide

/-! ## Loads of the producer -/

/-- R166, R51: the producer loads word 52, `cells[3].delay`, at `BASE_U + 52`, before the frame. -/
theorem test_load_cell_word :
    (frame [0x03#32] { device 0 3 4 0 with loads := [some 0x40000034#32] }).map (fun t => (t.loaded, t.trace, t.results)) =
      some ([7#32], [0x03#32], []) := by decide
/-- One word above the structure; an address that is not aligned (U7); no mapping. -/
theorem test_load_refused :
    ((frame [] { device 0 3 4 0 with loads := [some 0x40000040#32] }).map (·.refusals),
      (frame [] { device 0 3 4 0 with loads := [some 0x40000002#32] }).map (·.refusals),
      (frame [] { device 0 3 4 0 with devMapped := false, loads := [some 0x40000000#32] }).map (·.refusals)) =
      (some [.outsideMapping], some [.misalignedLoad], some [.notMapped]) := by decide

/-! ## Witnesses: the hypotheses of the statements can be met

One theorem for each statement that has hypotheses; a statement with clauses over one input has a witness at the
boundary of each. -/

/-- With no entry of `loads` no load comes first. -/
theorem noLoadNext_of_nil {s : State} (h : s.loads = []) : NoLoadNext s := fun _ _ hl => by simp [h] at hl

/-! ### Encodings and the step -/

theorem witness_DecodeReadsEveryEncodedOperation :
    ((Instr.setStatus 2#32).wf = true ∧ (Instr.setStatus 2#32).isFrame = true) ∧
      (Instr.cell 0#32 0#32 0xFFFFFFFF#32).wf = true ∧ (Instr.cell 0#32 0#32 0xFFFFFFFF#32).isFrame = false := by decide

theorem witness_DecodedFramesAreTheirOwnEncodings :
    decode [0x12#32, 2#32, 9#32] = .ok (.setStatus 2#32) [9#32] := by decide

/-- The ends of each range of reserved codes. -/
theorem witness_ReservedCodesAreRefused : NoLoadNext attached ∧
    ∀ code ∈ ([0#32, 0x07#32, 0x0F#32, 0x13#32, 0x1F#32, 0x22#32, 0xFFFFFFFF#32] : List Word),
      attached.push = none ∧ (code.toNat = 0 ∨ (0x07 ≤ code.toNat ∧ code.toNat ≤ 0x0F) ∨
        (0x13 ≤ code.toNat ∧ code.toNat ≤ 0x1F) ∨ 0x22 ≤ code.toNat) :=
  ⟨noLoadNext_of_nil rfl, by simp [attached, State.reset]⟩

theorem witness_StepRunsTheDecodedFrame :
    attached.push = none ∧ NoLoadNext attached ∧ NoLoadNext { attached with loads := [none] } ∧
      decode { attached with trace := [0x03#32] }.trace = .ok .start [] ∧
      (∃ ops : List Word, [0x01#32] = 0x01#32 :: ops ∧ ops.length < 1) ∧
      ∃ ops : List Word, [0x10#32, 1#32, 2#32] = 0x10#32 :: ops ∧ ops.length < 3 :=
  ⟨rfl, noLoadNext_of_nil rfl, (fun _ _ h => by cases h), by decide, ⟨_, rfl, by decide⟩, _, rfl, by decide⟩

theorem witness_ProducerFramesWaitForThePush :
    (pushing 0 1 4 0 .storeDelay).push = some ⟨.storeDelay, 1#32, 4#32, ⟨7#32, 1#32, 2#32⟩⟩ ∧
      ∀ i rest, decode { pushing 0 1 4 0 .storeDelay with trace := [0x03#32] }.trace = .ok i rest →
        agentOf i = .producer := by
  refine ⟨rfl, fun i rest h => ?_⟩
  obtain ⟨rfl, rfl⟩ : Instr.start = i ∧ [] = rest := by simpa [decode, decodeFrame] using h
  rfl

/-- Both clauses: the next entry of `preempt` is `true`; it is `false`, or there is none. -/
theorem witness_EventsMayFallInsideAPush :
    (∃ p, (pushing 0 1 4 0 .storeSet).push = some p) ∧ decode [0x20#32] = .ok .tick [] ∧ agentOf .tick ≠ .producer ∧
      ({ attached with preempt := [true] }).preempt = true :: [] ∧
      ({ attached with preempt := [false] }).preempt.head? ≠ some true ∧ attached.preempt.head? ≠ some true :=
  ⟨⟨_, rfl⟩, by decide, by decide, rfl, by decide, by decide⟩

theorem witness_IdleMachineRunsTheEngine :
    (NoLoadNext (expired 0 1 4) ∧ NoLoadNext attached) ∧
    ((expired 0 1 4).push = none ∧ (expired 0 1 4).trace = [] ∧ handlerEnabled (expired 0 1 4) = .ok true) ∧
      attached.push = none ∧ attached.trace = [] ∧ handlerEnabled attached = .ok false :=
  ⟨⟨noLoadNext_of_nil rfl, noLoadNext_of_nil rfl⟩, ⟨rfl, rfl, rfl⟩, rfl, rfl, rfl⟩

/-! ### Formats and collaborators -/

theorem witness_StatusEncodingIsZeroOneTwo : 3 ≤ (3#32 : Word).toNat ∧ 3 ≤ (0xFFFFFFFF#32 : Word).toNat := by decide

theorem witness_TimerLoadArmsOrExpires : (0#32 : Reg) = 0#32 ∧ (1#32 : Reg) ≠ 0#32 := by decide

/-- An idle timer; a count of 2 and of 1; `n` just below `v` and equal to it. -/
theorem witness_CountdownFiresOnceAfterExactlyVTicks :
    (device 0 0 4 0).devInitialized = true ∧ attached.tmrArmed = false ∧
      (let s := { attached with tmrArmed := true, tmrCount := 2#32 }; s.tmrArmed = true ∧ s.tmrCount - 1#32 ≠ 0#32) ∧
      (let s := { attached with tmrArmed := true, tmrCount := 1#32 }; s.tmrArmed = true ∧ s.tmrCount - 1#32 = 0#32) ∧
      (3#32 : Reg) ≠ 0#32 ∧ 2 < (3#32 : Reg).toNat ∧ (3#32 : Reg).toNat ≤ 3 := by decide

theorem witness_CallbackSwitchGatesTheHandler : (device 0 1 4 0).cbEnable = false := by decide

theorem witness_OutputWritesTouchTheirMaskedLines :
    (0 < 32 ∧ (0xFFFFFFFE#32 : Reg).getLsbD 0 = false) ∧ 31 < 32 ∧ (0x7FFFFFFF#32 : Reg).getLsbD 31 = false := by decide

/-- A line in both masks, in the clear mask only, in neither (lines 0, 1, 31). -/
theorem witness_CellSetsTimerAndLines :
    (1#32 : Word).getLsbD 0 = true ∧
      ((1#32 : Word).getLsbD 1 = false ∧ (3#32 : Word).getLsbD 1 = true) ∧
      (31 < 32 ∧ (1#32 : Word).getLsbD 31 = false ∧ (3#32 : Word).getLsbD 31 = false) := by decide

theorem witness_TickCountsDownByOne :
    ((device 0 0 4 0).devInitialized = true ∧ (device 0 0 4 0).tmrArmed = false) ∧
      (let s := { device 0 0 4 0 with tmrArmed := true, tmrCount := 1#32 }; s.tmrArmed = true ∧ s.tmrCount = 1#32) ∧
      (let s := { device 0 0 4 0 with tmrArmed := true, tmrCount := 2#32 }; s.tmrArmed = true ∧ s.tmrCount ≠ 1#32) := by
  decide

/-! ### INIT and RESET -/

/-- The smallest and the largest legal capacity; a device not initialised, STOPPED, in ERROR_UNDERRUN. -/
theorem witness_InitFixesTheRegion :
    ((1#32 : Word) ≠ 0#32 ∧ (1#32 : Word).toNat ≤ capMax vectorConfig ∧ (4#32 : Word).toNat = capMax vectorConfig) ∧
      attached.devInitialized = false ∧
      (∃ st, readStatus (device 0 0 4 0) = .ok st ∧ st ≠ .running) ∧
      ∃ st, readStatus (device 0 0 4 2) = .ok st ∧ st ≠ .running :=
  ⟨by decide, rfl, ⟨.stopped, rfl, by decide⟩, .errorUnderrun, rfl, by decide⟩

/-- The illegal capacities next to the legal ones, and an error returned. -/
theorem witness_CapacityErrorOnlyFromIllegalInit :
    capMax attached.cfg < (5#32 : Word).toNat ∧
      ∃ t, exec (.init 0#32) attached = .next t ∧ t.results = attached.results ++ [.failed .capacity] :=
  ⟨by decide, _, rfl, rfl⟩

/-- Each status that makes a command illegal; the legal capacities at their ends. -/
theorem witness_InvalidStateErrorHasNoSideEffect :
    (device 0 0 4 0).devInitialized = true ∧ readStatus (device 0 0 4 0) = .ok .stopped ∧
      readStatus (device 0 0 4 1) = .ok .running ∧ readStatus (device 0 0 4 2) = .ok .errorUnderrun ∧
      (1#32 : Word) ≠ 0#32 ∧ (1#32 : Word).toNat ≤ capMax (device 0 0 4 1).cfg ∧
      (4#32 : Word).toNat ≤ capMax (device 0 0 4 1).cfg :=
  ⟨rfl, rfl, rfl, rfl, by decide, by decide, by decide⟩

theorem witness_ResetEmptiesTheBuffer :
    (device 1 3 4 0).devInitialized = true ∧ (readStatus (device 1 3 4 0) = .ok .stopped ∧ Status.stopped ≠ .running) ∧
      readStatus (device 1 3 4 2) = .ok .errorUnderrun ∧ Status.errorUnderrun ≠ .running :=
  ⟨rfl, ⟨rfl, by decide⟩, rfl, by decide⟩

theorem witness_ResetIsIdempotent :
    (device 0 0 4 0).devInitialized = true ∧ readStatus (device 0 0 4 0) = .ok .stopped ∧ Status.stopped ≠ .running :=
  ⟨rfl, rfl, by decide⟩

theorem witness_OperationsBeforeInitAreRefused : attached.devInitialized = false := by decide

/-! ### PUSH -/

/-- The first and the last slot. -/
theorem witness_PushLoadsCursorAndCapacity :
    ((device 0 0 4 0).devInitialized = true ∧ (device 0 0 4 0).devMapped = true ∧ (device 0 0 4 0).devMapFailed = false ∧
      memRead (device 0 0 4 0) offWr = .ok 0#32 ∧ memRead (device 0 0 4 0) offCap = .ok 4#32 ∧ 0#32 < 4#32) ∧
      memRead (device 0 3 4 0) offWr = .ok 3#32 ∧ memRead (device 0 3 4 0) offCap = .ok 4#32 ∧ 3#32 < 4#32 :=
  ⟨⟨rfl, rfl, rfl, rfl, rfl, by decide⟩, rfl, rfl, by decide⟩

/-- Every stage, with the largest capacity and its last slot. -/
theorem witness_PushStepStoresOneWord :
    ∀ stage ∈ [PushStage.storeDelay, .storeClear, .storeSet, .publish],
      let p : PushInProgress := ⟨stage, 3#32, 4#32, ⟨7#32, 1#32, 2#32⟩⟩
      p.w < p.c ∧ p.c.toNat ≤ capMax vectorConfig := by decide

theorem witness_PushTakesFiveSteps :
    let s := { device 0 3 4 0 with trace := encode (.push 7#32 1#32 2#32) }
    NoLoadNext s ∧ s.push = none ∧ s.devInitialized = true ∧ s.devMapped = true ∧ s.devMapFailed = false ∧
      memRead s offWr = .ok 3#32 ∧ memRead s offCap = .ok 4#32 ∧ 3#32 < 4#32 ∧ (4#32 : Word).toNat ≤ capMax s.cfg :=
  ⟨noLoadNext_of_nil rfl, rfl, rfl, rfl, rfl, rfl, rfl, by decide, by decide⟩

theorem witness_PushWithoutMappingIsRefused :
    (let s := { device 0 0 4 0 with devMapped := false, devMapFailed := true }
     s.devInitialized = true ∧ s.devMapFailed = true) ∧
      (let s := { device 0 0 4 0 with devMapped := false }
       s.devInitialized = true ∧ s.devMapFailed = false ∧ s.devMapped = false) := by decide

/-! ### POP and the status -/

/-- Slot 3 is the head and the read cursor wraps. -/
theorem holds_wrapping : HoldsQueue (device 3 0 4 0) [⟨7#32, 1#32, 2#32⟩] :=
  ⟨3#32, 0#32, 4#32, ⟨rfl, rfl, rfl, by decide, by decide, by decide⟩, rfl, fun j hj => by
    obtain rfl : j = 0 := by simpa using hj
    rfl⟩

/-- One cell pending, in slot 0, while RUNNING. -/
theorem holds_running : HoldsQueue (expired 0 1 4) [⟨10#32, 0#32, 1#32⟩] :=
  ⟨0#32, 1#32, 4#32, ⟨rfl, rfl, rfl, by decide, by decide, by decide⟩, rfl, fun j hj => by
    obtain rfl : j = 0 := by simpa using hj
    rfl⟩

theorem witness_PopReturnsTheHeadCell :
    (device 3 0 4 0).devInitialized = true ∧ readStatus (device 3 0 4 0) = .ok .stopped ∧
      HoldsQueue (device 3 0 4 0) (⟨7#32, 1#32, 2#32⟩ :: []) := ⟨rfl, rfl, holds_wrapping⟩

theorem witness_PopOnEmptyBufferUnderruns :
    (device 3 3 4 0).devInitialized = true ∧ readStatus (device 3 3 4 0) = .ok .stopped ∧
      memRead (device 3 3 4 0) offRd = .ok 3#32 ∧ memRead (device 3 3 4 0) offWr = .ok 3#32 := ⟨rfl, rfl, rfl, rfl⟩

theorem witness_PopIsTerminalAfterUnderrun :
    (device 2 3 4 2).devInitialized = true ∧ readStatus (device 2 3 4 2) = .ok .errorUnderrun := ⟨rfl, rfl⟩

theorem witness_PopWhileRunningIsRefused :
    (device 1 3 4 1).devInitialized = true ∧ readStatus (device 1 3 4 1) = .ok .running := ⟨rfl, rfl⟩

/-- The largest legal operand and the smallest reserved one; the smallest region that has a status word. -/
theorem witness_StandAloneSetStatusIsRefused :
    attached.push = none ∧ NoLoadNext attached ∧ ¬ 2 < (2#32 : Word).toNat ∧ 2 < (3#32 : Word).toNat ∧
    offSt + wordBytes ≤ ({ attached with cfg := { vectorConfig with regionBytes := 16 } }).cfg.regionBytes :=
  ⟨rfl, noLoadNext_of_nil rfl, by decide, by decide, by decide⟩

theorem witness_GetStatusReturnsTheStatusWord :
    (device 0 0 4 2).devInitialized = true ∧ memRead (device 0 0 4 2) offSt = .ok (statusWord .errorUnderrun) := ⟨rfl, rfl⟩

/-! ### MAP_BUFFER -/

/-- The largest size that fits and the smallest one. -/
theorem witness_MapBufferReturnsTheHandle :
    let s := { device 0 0 4 0 with mapOk := [true] }
    s.devInitialized = true ∧ s.devMapFailed = false ∧ memRead s offCap = .ok 4#32 ∧
      (64#32 : Word).toNat ≤ bufferBytes 4#32 ∧ (0#32 : Word).toNat ≤ bufferBytes 4#32 ∧ mapOkInput s = true :=
  ⟨rfl, rfl, rfl, by decide, by decide, rfl⟩

theorem witness_SizeErrorOnlyFromOversizedMapping :
    (device 0 0 4 0).devInitialized = true ∧ (device 0 0 4 0).devMapFailed = false ∧
      memRead (device 0 0 4 0) offCap = .ok 4#32 ∧ bufferBytes 4#32 < (65#32 : Word).toNat ∧
      ∃ t, exec (.mapBuffer 65#32) (device 0 0 4 0) = .next t ∧ t.results = [] ++ [.failed .size] :=
  ⟨rfl, rfl, rfl, by decide, _, rfl, rfl⟩

/-- A state with the mark set, the `INIT` that clears it, a step of a `PUSH`; and a failing platform, and the `INIT` after
it. -/
theorem witness_MappingErrorKillsTheSession :
    (let s := { device 0 0 4 0 with devMapFailed := true, devMapped := false }
     s.devInitialized = true ∧ s.devMapFailed = true ∧
      ∃ t, exec (.init 4#32) s = .next t ∧ t.devMapFailed = false) ∧
    (∃ p t, continuePush p (pushing 0 3 4 0 .publish) = .next t) ∧
    let s := { device 0 0 4 0 with mapOk := [false] }
    s.devInitialized = true ∧ s.devMapFailed = false ∧ memRead s offCap = .ok 4#32 ∧
      (64#32 : Word).toNat ≤ bufferBytes 4#32 ∧ mapOkInput s = false ∧
      ∃ t, exec (.mapBuffer 64#32) s = .next t ∧
        ∃ u, exec (.init 4#32) t = .next u ∧ u.results = t.results ++ [.ok] :=
  ⟨⟨rfl, rfl, _, rfl, rfl⟩, ⟨⟨.publish, 3#32, 4#32, ⟨7#32, 1#32, 2#32⟩⟩, _, rfl⟩,
    rfl, rfl, rfl, by decide, rfl, _, rfl, _, rfl, rfl⟩

/-! ### START, STOP and the handler -/

theorem witness_StartArmsTheEngine :
    (device 0 3 4 0).devInitialized = true ∧ readStatus (device 0 3 4 0) = .ok .stopped := ⟨rfl, rfl⟩

theorem witness_StopParksTheEngine :
    (expired 2 3 4).devInitialized = true ∧ readStatus (expired 2 3 4) = .ok .running := ⟨rfl, rfl⟩

theorem witness_OnlyStartEnablesTheCallback :
    (device 0 3 4 0).cbEnable = false ∧ (∃ t, exec .start (device 0 3 4 0) = .next t ∧ t.cbEnable = true) ∧
      ∃ p t, continuePush p (pushing 0 3 4 0 .publish) = .next t :=
  ⟨rfl, ⟨_, rfl, rfl⟩, ⟨.publish, 3#32, 4#32, ⟨7#32, 1#32, 2#32⟩⟩, _, rfl⟩

theorem witness_HandlerExecutesTheHeadCell :
    (expired 0 1 4).devInitialized = true ∧ (expired 0 1 4).tmrExpiryPending = true ∧ (expired 0 1 4).cbEnable = true ∧
      readStatus (expired 0 1 4) = .ok .running ∧ HoldsQueue (expired 0 1 4) (⟨10#32, 0#32, 1#32⟩ :: []) :=
  ⟨rfl, rfl, rfl, rfl, holds_running⟩

theorem witness_HandlerUnderrunsOnEmptyBuffer :
    (expired 3 3 4).devInitialized = true ∧ (expired 3 3 4).tmrExpiryPending = true ∧ (expired 3 3 4).cbEnable = true ∧
      readStatus (expired 3 3 4) = .ok .running ∧ memRead (expired 3 3 4) offRd = .ok 3#32 ∧
      memRead (expired 3 3 4) offWr = .ok 3#32 := ⟨rfl, rfl, rfl, rfl, rfl, rfl⟩

/-- V-E4; V-E3; and both bits set with the status STOPPED. -/
theorem witness_HandlerTakesNoStepUnlessEnabled :
    (device 0 1 4 1).devInitialized = true ∧ { device 0 1 4 1 with cbEnable := true }.tmrExpiryPending = false ∧
      { device 0 1 4 0 with tmrExpiryPending := true }.cbEnable = false ∧
      readStatus { device 0 1 4 0 with tmrExpiryPending := true, cbEnable := true } = .ok .stopped ∧
      Status.stopped ≠ .running := ⟨rfl, rfl, rfl, rfl, by decide⟩

/-- A delay of 10, and the last tick before it is over. -/
theorem witness_NextExpiryComesExactlyDelayTicksLater :
    ((expired 0 1 4).devInitialized = true ∧ (expired 0 1 4).tmrExpiryPending = true ∧ (expired 0 1 4).cbEnable = true ∧
      readStatus (expired 0 1 4) = .ok .running ∧ HoldsQueue (expired 0 1 4) (⟨10#32, 0#32, 1#32⟩ :: [])) ∧
      9 < (10#32 : Word).toNat := ⟨⟨rfl, rfl, rfl, rfl, holds_running⟩, by decide⟩

theorem witness_FirstExpiryComesInitialTicksAfterStart :
    (device 0 3 4 0).devInitialized = true ∧ readStatus (device 0 3 4 0) = .ok .stopped ∧
      (device 0 3 4 0).tmrExpiryPending = false ∧ 4 < (device 0 3 4 0).cfg.initialTicks.toNat :=
  ⟨rfl, rfl, rfl, by decide⟩

/-! ### Whole-machine rules -/

theorem witness_StatusFollowsTheTransitionTable :
    (device 0 0 4 0).devInitialized = true ∧ readStatus (device 0 0 4 0) = .ok .stopped ∧
      (∃ t, exec .pop (device 0 0 4 0) = .next t) ∧
      ∃ p t, continuePush p (pushing 0 3 4 1 .storeSet) = .next t :=
  ⟨rfl, rfl, ⟨_, rfl⟩, ⟨.storeSet, 3#32, 4#32, ⟨7#32, 1#32, 2#32⟩⟩, _, rfl⟩

theorem witness_UnderrunIsTerminalUntilResetOrInit :
    readStatus (device 2 3 4 2) = .ok .errorUnderrun ∧ (∃ t, exec .pop (device 2 3 4 2) = .next t) ∧
      Instr.pop ≠ .reset ∧ (∀ c, Instr.pop ≠ .init c) ∧ readStatus (pushing 0 3 4 2 .publish) = .ok .errorUnderrun ∧
      ∃ p t, continuePush p (pushing 0 3 4 2 .publish) = .next t :=
  ⟨rfl, ⟨_, rfl⟩, by decide, by simp, rfl, ⟨.publish, 3#32, 4#32, ⟨7#32, 1#32, 2#32⟩⟩, _, rfl⟩

/-- `GET_STATUS` meets every hypothesis on the operation at once. -/
theorem witness_OnlyOwnersChangeTheRegion :
    (∃ t, exec .getStatus (device 0 1 4 0) = .next t) ∧ (∀ c, Instr.getStatus ≠ .init c) ∧ Instr.getStatus ≠ .reset ∧
      Instr.getStatus ≠ .pop ∧ Instr.getStatus ≠ .timerExpiry ∧ Instr.getStatus ≠ .start ∧ Instr.getStatus ≠ .stop ∧
      ∃ p t, continuePush p (pushing 0 3 4 0 .publish) = .next t :=
  ⟨⟨_, rfl⟩, by simp, by decide, by decide, by decide, by decide, by decide,
    ⟨.publish, 3#32, 4#32, ⟨7#32, 1#32, 2#32⟩⟩, _, rfl⟩

theorem witness_ProducerNeverTouchesTheCollaborators :
    (∃ t, exec .reset (device 0 1 4 0) = .next t) ∧ Instr.reset ≠ .start ∧ Instr.reset ≠ .stop ∧ Instr.reset ≠ .tick ∧
      Instr.reset ≠ .timerExpiry ∧ (∀ d k m, Instr.reset ≠ .cell d k m) ∧
      ∃ p t, continuePush p (pushing 0 3 4 0 .publish) = .next t :=
  ⟨⟨_, rfl⟩, by decide, by decide, by decide, by decide, by simp, ⟨.publish, 3#32, 4#32, ⟨7#32, 1#32, 2#32⟩⟩, _, rfl⟩

theorem witness_OutputsChangeOnlyByExecutingACell :
    (∃ t, exec .timerExpiry (expired 0 1 4) = .next t ∧ t.outLevel ≠ (expired 0 1 4).outLevel) ∧
      (∃ t, exec (.cell 0#32 0#32 1#32) attached = .next t ∧ t.outLevel ≠ attached.outLevel) ∧
      ∃ p t, continuePush p (pushing 0 3 4 0 .publish) = .next t :=
  ⟨⟨_, rfl, by decide⟩, ⟨_, rfl, by decide⟩, ⟨.publish, 3#32, 4#32, ⟨7#32, 1#32, 2#32⟩⟩, _, rfl⟩

theorem witness_StepKeepsTheConfiguration : ∃ t, step (expired 0 1 4) = .next t := ⟨_, rfl⟩

/-- The RUNNING device with its expiry pending satisfies the invariant. -/
theorem inv_expired : Inv (expired 0 1 4) :=
  ⟨by decide, by decide, by decide, by decide, by decide, by decide, by decide, fun _ =>
    ⟨⟨_, holds_running⟩, ⟨.running, rfl, by decide⟩, fun _ hp => by cases hp⟩⟩

/-- The smallest reserved status, with the legal capacities and with an enabled handler; each cursor equal to the capacity,
for `PUSH`, for a direct `POP` and for the handler. -/
theorem witness_UndefinedRegionStatesFault :
    ((4#32 : Word) ≠ 0#32 ∧ (4#32 : Word).toNat ≤ capMax (device 0 0 4 3).cfg ∧
      (let s := { device 0 0 4 3 with tmrExpiryPending := true, cbEnable := true }
       s.devInitialized = true ∧ memRead s offSt = .ok 3#32 ∧ s.tmrExpiryPending = true ∧ s.cbEnable = true)) ∧
    (readStatus (device 4 0 4 0) = .ok .stopped ∧ memRead (device 4 0 4 0) offRd = .ok 4#32 ∧
      memRead (device 4 0 4 0) offWr = .ok 0#32 ∧ (4#32 : Word) ≠ 0#32 ∧ (4#32 : Word) ≤ 4#32) ∧
    (readStatus (expired 0 4 4) = .ok .running ∧ memRead (expired 0 4 4) offRd = .ok 0#32 ∧
      memRead (expired 0 4 4) offWr = .ok 4#32 ∧ (0#32 : Word) < 4#32) ∧
    (Inv (expired 0 1 4) ∧ (expired 0 1 4).devInitialized = true) ∧
    ((device 0 0 4 3).devInitialized = true ∧ memRead (device 0 0 4 3) offSt = .ok 3#32 ∧ 3 ≤ (3#32 : Word).toNat) ∧
      (device 0 4 4 0).devMapped = true ∧ (device 0 4 4 0).devMapFailed = false ∧
      memRead (device 0 4 4 0) offWr = .ok 4#32 ∧ memRead (device 0 4 4 0) offCap = .ok 4#32 ∧ (4#32 : Word) ≤ 4#32 :=
  ⟨⟨by decide, by decide, rfl, rfl, rfl, rfl⟩, ⟨rfl, rfl, rfl, by decide, by decide⟩, ⟨rfl, rfl, rfl, by decide⟩,
    ⟨inv_expired, rfl⟩, ⟨rfl, rfl, by decide⟩, rfl, rfl, rfl, rfl, by decide⟩

/-! ### Invariants and the queue -/

/-- A step of the RUNNING device with its expiry pending: the handler. -/
theorem witness_EveryStepKeepsInv : Inv (expired 0 1 4) ∧ ∃ t, step (expired 0 1 4) = .next t :=
  ⟨inv_expired, _, rfl⟩

/-- The next move is the handler's, and no load. -/
theorem witness_StepFromInvNeverFaults :
    Inv (expired 0 1 4) ∧ ∀ addr s', nextMove (expired 0 1 4) ≠ .load addr s' := by
  refine ⟨inv_expired, fun addr s' h => ?_⟩
  have hm : nextMove (expired 0 1 4) = .run .timerExpiry (expired 0 1 4) := rfl
  rw [hm] at h
  cases h

/-- Three cells pending, the buffer as full as it can be. -/
theorem holds_three (stage : PushStage) : HoldsQueue (pushing 0 3 4 0 stage) (fourCells.take 3) :=
  ⟨0#32, 3#32, 4#32, ⟨rfl, rfl, rfl, by decide, by decide, (by decide : (4#32 : Word).toNat ≤ capMax vectorConfig)⟩, rfl,
    fun j hj => match j, hj with
    | 0, _ => rfl
    | 1, _ => rfl
    | 2, _ => rfl⟩

/-- One cell pending, in slot 2. -/
theorem holds_slot_two (stage : PushStage) : HoldsQueue (pushing 2 3 4 0 stage) [⟨30#32, 2#32, 0#32⟩] :=
  ⟨2#32, 3#32, 4#32, ⟨rfl, rfl, rfl, by decide, by decide, (by decide : (4#32 : Word).toNat ≤ capMax vectorConfig)⟩, rfl,
    fun j hj => by
      obtain rfl : j = 0 := by simpa using hj
      rfl⟩

/-- The invariant in the middle of a `PUSH`, before its first and before its last store, with three cells pending. -/
theorem inv_pushing :
    Inv (pushing 0 3 4 0 .storeDelay) ∧ Inv (pushing 0 3 4 0 .publish) ∧ Inv (pushing 2 3 4 0 .publish) := by
  refine ⟨⟨by decide, by decide, by decide, by decide, by decide, by decide, by decide, fun _ =>
      ⟨⟨_, holds_three _⟩, ⟨.stopped, rfl, by decide⟩, fun p hp => ?_⟩⟩,
    ⟨by decide, by decide, by decide, by decide, by decide, by decide, by decide, fun _ =>
      ⟨⟨_, holds_three _⟩, ⟨.stopped, rfl, by decide⟩, fun p hp => ?_⟩⟩,
    ⟨by decide, by decide, by decide, by decide, by decide, by decide, by decide, fun _ =>
      ⟨⟨_, holds_slot_two _⟩, ⟨.stopped, rfl, by decide⟩, fun p hp => ?_⟩⟩⟩
  · cases hp; exact ⟨rfl, rfl, trivial⟩
  · cases hp; exact ⟨rfl, rfl, rfl, rfl, rfl⟩
  · cases hp; exact ⟨rfl, rfl, rfl, rfl, rfl⟩

theorem witness_UnpublishedPushLeavesThePendingCells :
    ∃ p t, Inv (pushing 0 3 4 0 .storeDelay) ∧ (pushing 0 3 4 0 .storeDelay).push = some p ∧ p.stage ≠ .publish ∧
      HoldsQueue (pushing 0 3 4 0 .storeDelay) (fourCells.take 3) ∧
      continuePush p (pushing 0 3 4 0 .storeDelay) = .next t :=
  ⟨_, _, inv_pushing.1, rfl, by decide, holds_three _, rfl⟩

/-- Both clauses: one cell pending of four slots, and three. -/
theorem witness_PublishAppendsOrLaps :
    (∃ p t, Inv (pushing 2 3 4 0 .publish) ∧ (pushing 2 3 4 0 .publish).push = some p ∧ p.stage = .publish ∧
      HoldsQueue (pushing 2 3 4 0 .publish) [⟨30#32, 2#32, 0#32⟩] ∧
      continuePush p (pushing 2 3 4 0 .publish) = .next t ∧ 1 + 1 < p.c.toNat) ∧
    ∃ p t, Inv (pushing 0 3 4 0 .publish) ∧ (pushing 0 3 4 0 .publish).push = some p ∧ p.stage = .publish ∧
      HoldsQueue (pushing 0 3 4 0 .publish) (fourCells.take 3) ∧
      continuePush p (pushing 0 3 4 0 .publish) = .next t ∧ 3 + 1 = p.c.toNat :=
  ⟨⟨_, _, inv_pushing.2.2, rfl, rfl, holds_slot_two _, rfl, by decide⟩,
    _, _, inv_pushing.2.1, rfl, rfl, holds_three _, rfl, by decide⟩

theorem witness_EveryStepActsOnTheBufferAsAQueue :
    Inv (expired 0 1 4) ∧ (expired 0 1 4).devInitialized = true ∧ HoldsQueue (expired 0 1 4) [⟨10#32, 0#32, 1#32⟩] ∧
      ∃ t, step (expired 0 1 4) = .next t := ⟨inv_expired, rfl, holds_running, _, rfl⟩

/-- A load between frames; the first and the last word of the structure; misaligned; one word too far; not mapped; before
`INIT`; and a load that answers a next state. -/
theorem witness_ProducerLoadsAnyWordOfTheStructure :
    (let s := { device 0 3 4 0 with loads := [some 0x40000000#32] }
     s.push = none ∧ s.loads = some 0x40000000#32 :: []) ∧
    ((device 0 3 4 0).devInitialized = true ∧ (device 0 3 4 0).devMapped = true ∧
      memRead (device 0 3 4 0) offCap = .ok 4#32) ∧
    ((0x40000000#32 - vectorConfig.baseU).toNat = 0 ∧ memRead (device 0 3 4 0) 0 = .ok 0#32) ∧
    ((0x4000003C#32 - vectorConfig.baseU).toNat + 4 = bufferBytes 4#32 ∧ memRead (device 0 3 4 0) 60 = .ok 2#32) ∧
    (0x40000001#32 - vectorConfig.baseU).toNat % 4 ≠ 0 ∧
    ((0x40000040#32 - vectorConfig.baseU).toNat % 4 = 0 ∧
      bufferBytes 4#32 < (0x40000040#32 - vectorConfig.baseU).toNat + 4) ∧
    { device 0 3 4 0 with devMapped := false }.devMapped = false ∧ attached.devInitialized = false ∧
    ∃ t, stepLoad 0x40000000#32 (device 0 3 4 0) = .next t :=
  ⟨⟨rfl, rfl⟩, ⟨rfl, rfl, rfl⟩, ⟨by decide, rfl⟩, ⟨by decide, rfl⟩, by decide, ⟨by decide, by decide⟩, rfl, rfl, _, rfl⟩

end Sys2Proof.Tests
end

/-! The platform parameters (R8, R67): what each access, each operation and each move of the machine keeps of `cfg`. -/

namespace Sys2Proof.Machine

/-! ## Accesses and shared operations -/

theorem memWrite_cfg {s t : State} {off : Nat} {v : Word} (h : memWrite s off v = .ok t) : t.cfg = s.cfg := by
  obtain ⟨-, rfl⟩ := memWrite_ok_iff.1 h
  rfl

theorem setStatus_cfg {s t : State} {st : Status} (h : setStatus s st = .ok t) : t.cfg = s.cfg := memWrite_cfg h

theorem popCell_cfg {s t : State} {x : Option Cell} (h : popCell s = .ok (t, x)) : t.cfg = s.cfg := by
  rw [popCell_frame h]

@[simp] theorem attemptMapping_cfg (s : State) : (attemptMapping s).cfg = s.cfg := by
  unfold attemptMapping
  split <;> simp

/-- Whether the handler executes a cell or parks, it keeps the parameters of the state `popCell` leaves. -/
theorem runHandler_cfg {s t : State} (h : runHandler s = .ok t) : t.cfg = s.cfg := by
  rcases runHandler_cases h with ⟨u, c, hpop, rfl⟩ | ⟨u, hpop, rfl⟩
  · simpa using popCell_cfg hpop
  · simpa using popCell_cfg hpop

/-! ## The operations -/

theorem execInit_cfg {capacity : Word} {s t : State} (h : execInit capacity s = .next t) : t.cfg = s.cfg := by
  rcases execInit_cases h with ⟨-, rfl⟩ | ⟨-, -, rfl⟩ | ⟨-, -, -, rfl⟩ <;> rfl

theorem execMapBuffer_cfg {size : Word} {s t : State} (h : execMapBuffer size s = .next t) : t.cfg = s.cfg := by
  rcases execMapBuffer_cases h with ⟨-, rfl⟩ | ⟨-, -, rfl⟩ | ⟨-, -, _, -, ⟨-, rfl⟩ | ⟨-, rfl⟩⟩
  · rfl
  · rfl
  · rfl
  · exact attemptMapping_cfg s

theorem execStart_cfg {s t : State} (h : execStart s = .next t) : t.cfg = s.cfg := by
  rcases execStart_cases h with ⟨-, rfl⟩ | ⟨-, -, rfl⟩ | ⟨-, -, u, hset, rfl⟩
  · rfl
  · rfl
  · simpa using setStatus_cfg hset

theorem execStop_cfg {s t : State} (h : execStop s = .next t) : t.cfg = s.cfg := by
  rcases execStop_cases h with ⟨-, rfl⟩ | ⟨-, -, rfl⟩ | ⟨-, -, u, hset, rfl⟩
  · rfl
  · rfl
  · simpa using setStatus_cfg hset

theorem execReset_cfg {s t : State} (h : execReset s = .next t) : t.cfg = s.cfg := by
  rcases execReset_cases h with ⟨-, rfl⟩ | ⟨-, -, rfl⟩ | ⟨-, -, -, rfl⟩ <;> rfl

theorem execGetStatus_cfg {s t : State} (h : execGetStatus s = .next t) : t.cfg = s.cfg := by
  rcases execGetStatus_cases h with ⟨-, rfl⟩ | ⟨-, _, -, rfl⟩ <;> rfl

theorem execPush_cfg {d k m : Word} {s t : State} (h : execPush d k m s = .next t) : t.cfg = s.cfg := by
  rcases execPush_cases h with ⟨-, rfl⟩ | ⟨-, -, rfl⟩ | ⟨-, -, -, rfl⟩ | ⟨-, -, -, _, _, -, -, -, rfl⟩ <;> rfl

theorem execPop_cfg {s t : State} (h : execPop s = .next t) : t.cfg = s.cfg := by
  rcases execPop_cases h with ⟨-, rfl⟩ | ⟨-, -, rfl⟩ | ⟨-, -, u, x, hpop, rfl⟩
  · rfl
  · rfl
  · simpa using popCell_cfg hpop

theorem execSetStatus_cfg {v : Word} {s t : State} (h : execSetStatus v s = .next t) : t.cfg = s.cfg := by
  rw [execSetStatus_eq] at h
  cases h
  rfl

theorem execTick_cfg {s t : State} (h : execTick s = .next t) : t.cfg = s.cfg := by
  rcases execTick_cases h with ⟨-, rfl⟩ | ⟨-, rfl⟩
  · rfl
  · exact timerTick_cfg s

theorem execTimerExpiry_cfg {s t : State} (h : execTimerExpiry s = .next t) : t.cfg = s.cfg := by
  rcases execTimerExpiry_cases h with ⟨-, rfl⟩ | ⟨-, -, rfl⟩ | ⟨-, -, hrun⟩
  · rfl
  · rfl
  · exact runHandler_cfg hrun

theorem execCell_cfg {d k m : Word} {s t : State} (h : execCell d k m s = .next t) : t.cfg = s.cfg := by
  rw [execCell_eq] at h
  cases h
  exact runCell_cfg _ s

/-- No operation changes the platform parameters (R8). -/
theorem exec_cfg {i : Instr} {s t : State} (h : exec i s = .next t) : t.cfg = s.cfg := by
  cases i with
  | init => exact execInit_cfg h
  | mapBuffer => exact execMapBuffer_cfg h
  | start => exact execStart_cfg h
  | stop => exact execStop_cfg h
  | reset => exact execReset_cfg h
  | getStatus => exact execGetStatus_cfg h
  | push => exact execPush_cfg h
  | pop => exact execPop_cfg h
  | setStatus v => exact execSetStatus_cfg (v := v) h
  | tick => exact execTick_cfg h
  | timerExpiry => exact execTimerExpiry_cfg h
  | cell => exact execCell_cfg h

/-! ## The moves that are not operations -/

theorem continuePush_cfg {p : PushInProgress} {s t : State} (h : continuePush p s = .next t) : t.cfg = s.cfg := by
  rw [pushStep_frame (finish_next_iff.1 h)]

theorem stepLoad_cfg {addr : Word} {s t : State} (h : stepLoad addr s = .next t) : t.cfg = s.cfg := by
  rw [producerLoad_frame (finish_next_iff.1 h)]

/-! ## The step -/

/-- Settles O51, by the four kinds of move: the inputs consumed before a move are not parameters, and neither an
operation, a step of a `PUSH`, a load of the producer nor a refused frame changes one. -/
theorem stepKeepsTheConfiguration : Obligations.StepKeepsTheConfiguration := by
  intro s t h
  rcases nextMove_cases s with
    ⟨p, s', -, hmove, hinputs⟩ | ⟨i, _, _, _, hmove, -, -⟩ | ⟨addr, _, -, hmove⟩ | ⟨why, _, _, hmove⟩
  · rw [step_of_pushOn hmove] at h
    rcases hinputs with rfl | rfl <;> exact (continuePush_cfg h).trans rfl
  · rw [step_of_run hmove] at h
    exact (exec_cfg h).trans rfl
  · rw [step_of_load hmove] at h
    exact (stepLoad_cfg h).trans rfl
  · rw [step_of_reject hmove] at h
    cases h
    rfl

end Sys2Proof.Machine

/-! The collaborators (R32 to R40): the timer over any number of ticks, the callback switch, the output lines. -/

namespace Sys2Proof.Machine

/-! ## The timer -/

theorem timerLoad_zero (s : State) :
    timerLoad 0#32 s = { s with tmrCount := 0#32, tmrArmed := false, tmrExpiryPending := true } := rfl

theorem timerLoad_of_ne_zero {v : Reg} (h : v ≠ 0#32) (s : State) :
    timerLoad v s = { s with tmrCount := v, tmrArmed := true } := if_neg h

/-- Settles O12: the two branches of R33. -/
theorem timerLoadArmsOrExpires : Obligations.TimerLoadArmsOrExpires := by
  refine fun v s => ⟨?_, fun h => timerLoad_of_ne_zero h s⟩
  rintro rfl
  exact timerLoad_zero s

theorem timerTick_of_idle {s : State} (h : s.tmrArmed = false) : timerTick s = s := by
  simp [timerTick, h]

theorem timerTick_of_counting {s : State} (ha : s.tmrArmed = true) (hc : s.tmrCount - 1#32 ≠ 0#32) :
    timerTick s = { s with tmrCount := s.tmrCount - 1#32 } := by
  simp only [timerTick, ha, if_true, if_neg hc]

theorem timerTick_of_expiring {s : State} (ha : s.tmrArmed = true) (hc : s.tmrCount - 1#32 = 0#32) :
    timerTick s = { s with tmrCount := 0#32, tmrArmed := false, tmrExpiryPending := true } := by
  simp only [timerTick, ha, if_true, hc]

theorem ticks_add (m n : Nat) (s : State) : ticks (m + n) s = ticks n (ticks m s) := by
  induction m generalizing s with
  | zero => rw [Nat.zero_add]; rfl
  | succ m ih => rw [Nat.succ_add]; exact ih (timerTick s)

/-- An idle timer ignores any number of ticks (R34, R35). -/
theorem ticks_of_idle {s : State} (h : s.tmrArmed = false) (n : Nat) : ticks n s = s := by
  induction n with
  | zero => rfl
  | succ n ih => rw [ticks, timerTick_of_idle h, ih]

/-- An armed timer counts down by one per tick as long as fewer ticks have passed than it was loaded with (R34). -/
theorem ticks_of_counting {s : State} (ha : s.tmrArmed = true) (n : Nat) (hn : n < s.tmrCount.toNat) :
    ticks n s = { s with tmrCount := s.tmrCount - BitVec.ofNat 32 n } := by
  induction n generalizing s with
  | zero => simp [ticks]
  | succ n ih =>
    have hcount : s.tmrCount - 1#32 ≠ 0#32 := by bv_omega
    have hleft : n < (s.tmrCount - 1#32).toNat := by bv_omega
    rw [ticks, timerTick_of_counting ha hcount, ih (s := { s with tmrCount := s.tmrCount - 1#32 }) ha hleft]
    simp only [BitVec.sub_sub, BitVec.ofNat_add, BitVec.add_comm]

/-- The tick that takes the count to 0 is number `count`, and it makes the expiry pending (R34). -/
theorem ticks_of_expiring {s : State} (ha : s.tmrArmed = true) (hc : s.tmrCount ≠ 0#32) :
    ticks s.tmrCount.toNat s = { s with tmrCount := 0#32, tmrArmed := false, tmrExpiryPending := true } := by
  have hpos : 0 < s.tmrCount.toNat := by bv_omega
  have hlast : s.tmrCount - BitVec.ofNat 32 (s.tmrCount.toNat - 1) - 1#32 = 0#32 := by bv_omega
  obtain ⟨n, hn⟩ : ∃ n, s.tmrCount.toNat = n + 1 := ⟨_, (Nat.sub_add_cancel hpos).symm⟩
  rw [hn, ticks_add, ticks_of_counting ha n (by omega)]
  rw [hn, Nat.add_sub_cancel] at hlast
  exact timerTick_of_expiring ha hlast

/-- Settles O13: the last clause by the countdown before the expiry, the tick of the expiry, and the idle timer after it. -/
theorem countdownFiresOnceAfterExactlyVTicks : Obligations.CountdownFiresOnceAfterExactlyVTicks := by
  refine ⟨fun s h => execTick_eq h, fun s => timerTick_of_idle, fun s => timerTick_of_counting,
    fun s => timerTick_of_expiring, fun v s n hv => ?_⟩
  rw [timerLoad_of_ne_zero hv]
  refine ⟨fun hlt => ticks_of_counting rfl n hlt, fun hle => ?_⟩
  obtain ⟨m, rfl⟩ := Nat.exists_eq_add_of_le hle
  rw [ticks_add]
  have hexp := ticks_of_expiring (s := { s with tmrCount := v, tmrArmed := true }) rfl hv
  rw [hexp]
  exact ticks_of_idle rfl m

/-- Settles O14: a parked timer is idle. -/
theorem parkedTimerIgnoresTicks : Obligations.ParkedTimerIgnoresTicks :=
  fun _ n => ⟨rfl, ticks_of_idle rfl n⟩

/-! ## The callback switch and the outputs -/

theorem handlerEnabled_of_callbackOff {s : State} (h : s.cbEnable = false) : handlerEnabled s = .ok false :=
  handlerEnabled_ok_iff.2 (.inl ⟨by rw [h, Bool.and_false], rfl⟩)

/-- Settles O15. -/
theorem callbackSwitchGatesTheHandler : Obligations.CallbackSwitchGatesTheHandler :=
  ⟨fun _ _ => rfl, fun _ => handlerEnabled_of_callbackOff⟩

/-- Settles O16: a zero bit of the mask is a one in its complement and a zero in the disjunct. -/
theorem outputWritesTouchTheirMaskedLines : Obligations.OutputWritesTouchTheirMaskedLines := by
  refine fun m s => ⟨rfl, rfl, fun i hi hm => ⟨?_, ?_⟩⟩
  · rw [outClear_outLevel, BitVec.getLsbD_and, BitVec.getLsbD_not, hm, decide_eq_true hi, Bool.not_false, Bool.and_self,
      Bool.and_true]
  · rw [outSet_outLevel, BitVec.getLsbD_or, hm, Bool.or_false]

end Sys2Proof.Machine

/-! What each operation and each step of a `PUSH` leaves unchanged: the collaborators (R32, R195) and the bytes of the
region it does not own (R30). -/

namespace Sys2Proof.Machine

/-! ## The collaborators -/

theorem SameCollaborators.refl (s : State) : SameCollaborators s s := ⟨rfl, rfl, rfl, rfl, rfl⟩

/-- The region and the device flags are no collaborator state (R32, R41). -/
theorem SameCollaborators.device (s : State) (m : Memory) (initialized failed : Bool) :
    SameCollaborators s { s with mem := m, devInitialized := initialized, devMapFailed := failed } :=
  ⟨rfl, rfl, rfl, rfl, rfl⟩

theorem SameCollaborators.reply {s t : State} (h : SameCollaborators s t) (r : Result) :
    SameCollaborators s (reply r t) := h

theorem popCell_sameCollaborators {s t : State} {x : Option Cell} (h : popCell s = .ok (t, x)) :
    SameCollaborators s t := by
  rw [popCell_frame h]
  exact .refl s

theorem attemptMapping_sameCollaborators (s : State) : SameCollaborators s (attemptMapping s) := by
  unfold attemptMapping
  split <;> exact .refl s

theorem continuePush_sameCollaborators {p : PushInProgress} {s t : State} (h : continuePush p s = .next t) :
    SameCollaborators s t := by
  rw [pushStep_frame (finish_next_iff.1 h)]
  exact .refl s

theorem execInit_sameCollaborators {c : Word} {s t : State} (h : execInit c s = .next t) : SameCollaborators s t := by
  rcases execInit_cases h with ⟨-, rfl⟩ | ⟨-, -, rfl⟩ | ⟨-, -, -, rfl⟩
  · exact .refl s
  · exact .refl s
  · exact (SameCollaborators.device s _ true false).reply _

theorem execMapBuffer_sameCollaborators {z : Word} {s t : State} (h : execMapBuffer z s = .next t) :
    SameCollaborators s t := by
  rcases execMapBuffer_cases h with ⟨-, rfl⟩ | ⟨-, -, rfl⟩ | ⟨-, -, _, -, ⟨-, rfl⟩ | ⟨-, rfl⟩⟩
  · exact .refl s
  · exact .refl s
  · exact .refl s
  · exact attemptMapping_sameCollaborators s

theorem execReset_sameCollaborators {s t : State} (h : execReset s = .next t) : SameCollaborators s t := by
  rcases execReset_cases h with ⟨-, rfl⟩ | ⟨-, -, rfl⟩ | ⟨-, -, -, rfl⟩
  · exact .refl s
  · exact .refl s
  · exact (SameCollaborators.device s _ _ _).reply _

theorem execGetStatus_sameCollaborators {s t : State} (h : execGetStatus s = .next t) : SameCollaborators s t := by
  rcases execGetStatus_cases h with ⟨-, rfl⟩ | ⟨-, _, -, rfl⟩ <;> exact .refl s

theorem execPush_sameCollaborators {d k m : Word} {s t : State} (h : execPush d k m s = .next t) :
    SameCollaborators s t := by
  rcases execPush_cases h with ⟨-, rfl⟩ | ⟨-, -, rfl⟩ | ⟨-, -, -, rfl⟩ | ⟨-, -, -, _, _, -, -, -, rfl⟩ <;> exact .refl s

theorem execPop_sameCollaborators {s t : State} (h : execPop s = .next t) : SameCollaborators s t := by
  rcases execPop_cases h with ⟨-, rfl⟩ | ⟨-, -, rfl⟩ | ⟨-, -, u, x, hpop, rfl⟩
  · exact .refl s
  · exact .refl s
  · exact (popCell_sameCollaborators hpop).reply _

theorem execSetStatus_sameCollaborators {v : Word} {s t : State} (h : execSetStatus v s = .next t) :
    SameCollaborators s t := by
  rw [execSetStatus_eq] at h
  cases h
  exact .refl s

/-- Settles O49, one lemma per operation that is not excluded. -/
theorem producerNeverTouchesTheCollaborators : Obligations.ProducerNeverTouchesTheCollaborators := by
  refine ⟨fun i s t h hstart hstop htick hexpiry hcell => ?_, fun p s t => continuePush_sameCollaborators⟩
  cases i with
  | init => exact execInit_sameCollaborators h
  | mapBuffer => exact execMapBuffer_sameCollaborators h
  | start => exact absurd rfl hstart
  | stop => exact absurd rfl hstop
  | reset => exact execReset_sameCollaborators h
  | getStatus => exact execGetStatus_sameCollaborators h
  | push => exact execPush_sameCollaborators h
  | pop => exact execPop_sameCollaborators h
  | setStatus v => exact execSetStatus_sameCollaborators (v := v) h
  | tick => exact absurd rfl htick
  | timerExpiry => exact absurd rfl hexpiry
  | cell d k m => exact absurd rfl (hcell d k m)

/-! ## The callback switch -/

theorem setStatus_frame {s t : State} {st : Status} (h : setStatus s st = .ok t) : t = { s with mem := t.mem } := by
  obtain ⟨-, rfl⟩ := setStatus_ok_iff.1 h
  rfl

theorem execStop_cbEnable_of_off {s t : State} (h : execStop s = .next t) (hs : s.cbEnable = false) :
    t.cbEnable = false := by
  rcases execStop_cases h with ⟨-, rfl⟩ | ⟨-, -, rfl⟩ | ⟨-, -, u, hset, rfl⟩
  · exact hs
  · exact hs
  · rw [setStatus_frame hset]; rfl

theorem execTick_cbEnable {s t : State} (h : execTick s = .next t) : t.cbEnable = s.cbEnable := by
  rcases execTick_cases h with ⟨-, rfl⟩ | ⟨-, rfl⟩
  · rfl
  · exact timerTick_cbEnable s

/-- With the callback off the handler is not enabled, so `TIMER_EXPIRY` cannot reach the switch (R39). -/
theorem execTimerExpiry_cbEnable_of_off {s t : State} (h : execTimerExpiry s = .next t) (hs : s.cbEnable = false) :
    t.cbEnable = false := by
  rcases execTimerExpiry_cases h with ⟨-, rfl⟩ | ⟨-, -, rfl⟩ | ⟨-, henabled, -⟩
  · exact hs
  · exact hs
  · rw [handlerEnabled_of_callbackOff hs] at henabled; cases henabled

theorem execCell_cbEnable {d k m : Word} {s t : State} (h : execCell d k m s = .next t) : t.cbEnable = s.cbEnable := by
  rw [execCell_eq] at h
  cases h
  exact runCell_cbEnable _ s

/-- No operation but `START` turns the callback on. -/
theorem exec_cbEnable_of_off {i : Instr} {s t : State} (h : exec i s = .next t) (hstart : i ≠ .start)
    (hs : s.cbEnable = false) : t.cbEnable = false := by
  have same : SameCollaborators s t → t.cbEnable = false := fun ⟨_, _, _, hcb, _⟩ => hcb.trans hs
  cases i with
  | start => exact absurd rfl hstart
  | stop => exact execStop_cbEnable_of_off h hs
  | tick => exact (execTick_cbEnable h).trans hs
  | timerExpiry => exact execTimerExpiry_cbEnable_of_off h hs
  | cell => exact (execCell_cbEnable h).trans hs
  | init | mapBuffer | reset | getStatus | push | pop | setStatus =>
    exact same (producerNeverTouchesTheCollaborators.1 _ s t h (by simp) (by simp) (by simp) (by simp) (by simp))

/-- Settles O40. -/
theorem onlyStartEnablesTheCallback : Obligations.OnlyStartEnablesTheCallback := by
  refine ⟨fun i s t h hoff hon => ?_, fun p s t h => ?_⟩
  · by_contra hstart
    rw [exec_cbEnable_of_off h hstart hoff] at hon
    cases hon
  · obtain ⟨-, -, -, hcb, -⟩ := continuePush_sameCollaborators h
    exact hcb

/-! ## The bytes of the region -/

theorem SameBytes.of_mem_eq {s t : State} (h : t.mem = s.mem) (keep : Nat → Prop) : SameBytes s t keep := by
  intro a _
  rw [h]

theorem SameBytes.mono {s t : State} {keep keep' : Nat → Prop} (h : SameBytes s t keep) (hk : ∀ a, keep' a → keep a) :
    SameBytes s t keep' := fun a ha => h a (hk a ha)

theorem memWrite_sameBytes {s t : State} {off : Nat} {v : Word} (h : memWrite s off v = .ok t) :
    SameBytes s t (outsideWord off) := by
  obtain ⟨-, rfl⟩ := memWrite_ok_iff.1 h
  exact fun a ha => readByte_storeWord_outside _ _ _ ha

theorem setStatus_sameBytes {s t : State} {st : Status} (h : setStatus s st = .ok t) :
    SameBytes s t (outsideWord offSt) := memWrite_sameBytes h

/-- The body of `POP` stores `read_index`, the status or nothing (R104). -/
theorem popCell_stores {s t : State} {x : Option Cell} (h : popCell s = .ok (t, x)) :
    t = s ∨ ∃ off v, (off = offRd ∨ off = offSt) ∧ memWrite s off v = .ok t := by
  rcases popCell_cases h with ⟨-, rfl, -⟩ | ⟨_, _, -, -, -, -, ht, -⟩ | ⟨_, _, _, _, _, -, -, -, -, -, -, -, -, -, ht, -⟩
  · exact .inl rfl
  · exact .inr ⟨_, _, .inr rfl, ht⟩
  · exact .inr ⟨_, _, .inl rfl, ht⟩

theorem popCell_sameBytes {s t : State} {x : Option Cell} (h : popCell s = .ok (t, x)) :
    SameBytes s t (fun a => outsideWord offRd a ∧ outsideWord offSt a) := by
  rcases popCell_stores h with rfl | ⟨off, v, rfl | rfl, ht⟩
  · exact .of_mem_eq rfl _
  · exact (memWrite_sameBytes ht).mono fun _ ha => ha.1
  · exact (memWrite_sameBytes ht).mono fun _ ha => ha.2

theorem readByte_initMemory (c : Word) (m : Memory) {a : Nat} (h : 16 ≤ a) : readByte (initMemory c m) a = readByte m a := by
  simp only [initMemory, offRd_eq, offWr_eq, offCap_eq, offSt_eq]
  repeat rw [readByte_storeWord_outside _ _ _ (by omega)]

theorem readByte_zeroMemory (m : Memory) {a : Nat} (h : (8 ≤ a ∧ a < 12) ∨ 16 ≤ a) :
    readByte (zeroMemory m) a = readByte m a := by
  simp only [zeroMemory, offRd_eq, offWr_eq, offSt_eq]
  repeat rw [readByte_storeWord_outside _ _ _ (by omega)]

/-- The offsets an operation may store to (R30, R27, R23); a `PUSH` stores in its further steps only. -/
def MayStore (i : Instr) (a : Nat) : Prop :=
  match i with
  | .init _ => a < 16
  | .mapBuffer _ => False
  | .start => 12 ≤ a ∧ a < 16
  | .stop => 12 ≤ a ∧ a < 16
  | .reset => a < 8 ∨ (12 ≤ a ∧ a < 16)
  | .getStatus => False
  | .push _ _ _ => False
  | .pop => a < 4 ∨ (12 ≤ a ∧ a < 16)
  | .setStatus _ => False
  | .tick => False
  | .timerExpiry => a < 4 ∨ (12 ≤ a ∧ a < 16)
  | .cell _ _ _ => False

theorem outsideWord_offSt {a : Nat} (h : ¬ (12 ≤ a ∧ a < 16)) : outsideWord offSt a := by
  simp only [outsideWord, offSt_eq, wordBytes]; omega

theorem outsideWord_offRd {a : Nat} (h : ¬ a < 4) : outsideWord offRd a := by
  simp only [outsideWord, offRd_eq, wordBytes]; omega

theorem execInit_sameBytes {c : Word} {s t : State} (h : execInit c s = .next t) :
    SameBytes s t (fun a => ¬ MayStore (.init c) a) := by
  rcases execInit_cases h with ⟨-, rfl⟩ | ⟨-, -, rfl⟩ | ⟨-, -, -, rfl⟩
  · exact .of_mem_eq rfl _
  · exact .of_mem_eq rfl _
  · intro a ha
    simp only [reply_mem]
    exact readByte_initMemory c s.mem (Nat.le_of_not_lt ha)

theorem execReset_sameBytes {s t : State} (h : execReset s = .next t) :
    SameBytes s t (fun a => ¬ MayStore .reset a) := by
  rcases execReset_cases h with ⟨-, rfl⟩ | ⟨-, -, rfl⟩ | ⟨-, -, -, rfl⟩
  · exact .of_mem_eq rfl _
  · exact .of_mem_eq rfl _
  · intro a ha
    simp only [reply_mem]
    exact readByte_zeroMemory s.mem (by simp only [MayStore] at ha; omega)

theorem execStart_sameBytes {s t : State} (h : execStart s = .next t) :
    SameBytes s t (fun a => ¬ MayStore .start a) := by
  rcases execStart_cases h with ⟨-, rfl⟩ | ⟨-, -, rfl⟩ | ⟨-, -, u, hset, rfl⟩
  · exact .of_mem_eq rfl _
  · exact .of_mem_eq rfl _
  · intro a ha
    have hload : (callbackEnable true (timerLoad s.cfg.initialTicks s)).mem = s.mem := timerLoad_mem _ s
    exact (setStatus_sameBytes hset a (outsideWord_offSt ha)).trans (by rw [hload])

theorem execStop_sameBytes {s t : State} (h : execStop s = .next t) :
    SameBytes s t (fun a => ¬ MayStore .stop a) := by
  rcases execStop_cases h with ⟨-, rfl⟩ | ⟨-, -, rfl⟩ | ⟨-, -, u, hset, rfl⟩
  · exact .of_mem_eq rfl _
  · exact .of_mem_eq rfl _
  · exact fun a ha => setStatus_sameBytes hset a (outsideWord_offSt ha)

theorem execPop_sameBytes {s t : State} (h : execPop s = .next t) :
    SameBytes s t (fun a => ¬ MayStore .pop a) := by
  rcases execPop_cases h with ⟨-, rfl⟩ | ⟨-, -, rfl⟩ | ⟨-, -, u, x, hpop, rfl⟩
  · exact .of_mem_eq rfl _
  · exact .of_mem_eq rfl _
  · exact fun a ha => popCell_sameBytes hpop a
      ⟨outsideWord_offRd fun h => ha (.inl h), outsideWord_offSt fun h => ha (.inr h)⟩

/-- Executing the cell and parking touch no byte: the handler stores what the body of `POP` stores. -/
theorem runHandler_popCell_mem {s t : State} (h : runHandler s = .ok t) :
    ∃ u x, popCell (timerAck s) = .ok (u, x) ∧ t.mem = u.mem := by
  rcases runHandler_cases h with ⟨u, c, hpop, rfl⟩ | ⟨u, hpop, rfl⟩
  · exact ⟨u, some c, hpop, runCell_mem c u⟩
  · exact ⟨u, none, hpop, rfl⟩

theorem execTimerExpiry_sameBytes {s t : State} (h : execTimerExpiry s = .next t) :
    SameBytes s t (fun a => ¬ MayStore .timerExpiry a) := by
  rcases execTimerExpiry_cases h with ⟨-, rfl⟩ | ⟨-, -, rfl⟩ | ⟨-, -, hrun⟩
  · exact .of_mem_eq rfl _
  · exact .of_mem_eq rfl _
  · intro a ha
    obtain ⟨u, x, hpop, hmem⟩ := runHandler_popCell_mem hrun
    rw [hmem]
    exact popCell_sameBytes hpop a ⟨outsideWord_offRd fun h => ha (.inl h), outsideWord_offSt fun h => ha (.inr h)⟩

@[simp] theorem attemptMapping_mem (s : State) : (attemptMapping s).mem = s.mem := by
  unfold attemptMapping
  split <;> rfl

theorem execMapBuffer_mem {z : Word} {s t : State} (h : execMapBuffer z s = .next t) : t.mem = s.mem := by
  rcases execMapBuffer_cases h with ⟨-, rfl⟩ | ⟨-, -, rfl⟩ | ⟨-, -, _, -, ⟨-, rfl⟩ | ⟨-, rfl⟩⟩
  · rfl
  · rfl
  · rfl
  · exact attemptMapping_mem s

theorem execGetStatus_mem {s t : State} (h : execGetStatus s = .next t) : t.mem = s.mem := by
  rcases execGetStatus_cases h with ⟨-, rfl⟩ | ⟨-, _, -, rfl⟩ <;> rfl

theorem execPush_mem {d k m : Word} {s t : State} (h : execPush d k m s = .next t) : t.mem = s.mem := by
  rcases execPush_cases h with ⟨-, rfl⟩ | ⟨-, -, rfl⟩ | ⟨-, -, -, rfl⟩ | ⟨-, -, -, _, _, -, -, -, rfl⟩ <;> rfl

theorem execSetStatus_mem {v : Word} {s t : State} (h : execSetStatus v s = .next t) : t.mem = s.mem := by
  rw [execSetStatus_eq] at h
  cases h
  rfl

theorem execTick_mem {s t : State} (h : execTick s = .next t) : t.mem = s.mem := by
  rcases execTick_cases h with ⟨-, rfl⟩ | ⟨-, rfl⟩
  · rfl
  · exact timerTick_mem s

theorem execCell_mem {d k m : Word} {s t : State} (h : execCell d k m s = .next t) : t.mem = s.mem := by
  rw [execCell_eq] at h
  cases h
  exact runCell_mem _ s

/-- Every operation leaves the bytes it may not store to. -/
theorem exec_sameBytes {i : Instr} {s t : State} (h : exec i s = .next t) :
    SameBytes s t (fun a => ¬ MayStore i a) := by
  cases i with
  | init => exact execInit_sameBytes h
  | mapBuffer => exact .of_mem_eq (execMapBuffer_mem h) _
  | start => exact execStart_sameBytes h
  | stop => exact execStop_sameBytes h
  | reset => exact execReset_sameBytes h
  | getStatus => exact .of_mem_eq (execGetStatus_mem h) _
  | push => exact .of_mem_eq (execPush_mem h) _
  | pop => exact execPop_sameBytes h
  | setStatus v => exact .of_mem_eq (execSetStatus_mem (v := v) h) _
  | tick => exact .of_mem_eq (execTick_mem h) _
  | timerExpiry => exact execTimerExpiry_sameBytes h
  | cell => exact .of_mem_eq (execCell_mem h) _

theorem mayStore_lt {i : Instr} {a : Nat} (h : MayStore i a) : a < 16 := by
  cases i <;> simp only [MayStore] at h <;> omega

theorem mayStore_capacity {i : Instr} {a : Nat} (h : MayStore i a) (ha : 8 ≤ a ∧ a < 12) : ∃ c, i = .init c := by
  cases i with
  | init c => exact ⟨c, rfl⟩
  | _ => simp only [MayStore] at h <;> omega

theorem mayStore_writeIndex {i : Instr} {a : Nat} (h : MayStore i a) (ha : 4 ≤ a ∧ a < 8) :
    (∃ c, i = .init c) ∨ i = .reset := by
  cases i with
  | init c => exact .inl ⟨c, rfl⟩
  | reset => exact .inr rfl
  | _ => simp only [MayStore] at h <;> omega

theorem mayStore_readIndex {i : Instr} {a : Nat} (h : MayStore i a) (ha : a < 4) :
    (∃ c, i = .init c) ∨ i = .reset ∨ i = .pop ∨ i = .timerExpiry := by
  cases i with
  | init c => exact .inl ⟨c, rfl⟩
  | reset => exact .inr (.inl rfl)
  | pop => exact .inr (.inr (.inl rfl))
  | timerExpiry => exact .inr (.inr (.inr rfl))
  | _ => simp only [MayStore] at h <;> omega

theorem mayStore_owner {i : Instr} {a : Nat} (h : MayStore i a) :
    (∃ c, i = .init c) ∨ i = .reset ∨ i = .pop ∨ i = .timerExpiry ∨ i = .start ∨ i = .stop := by
  cases i <;> simp_all [MayStore]

/-- A step of a `PUSH` stores a word of a slot or `write_index` (R103). -/
theorem continuePush_sameBytes {p : PushInProgress} {s t : State} (h : continuePush p s = .next t) :
    SameBytes s t (fun a => a < 4 ∨ (8 ≤ a ∧ a < 16)) := by
  have h := finish_next_iff.1 h
  by_cases hp : p.stage = .publish
  · obtain ⟨-, rfl⟩ := (pushStep_publish_iff hp).1 h
    exact fun a ha => readByte_storeWord_outside _ _ _ (by rw [offWr_eq]; omega)
  · obtain ⟨off, v, st, hstage, -, rfl⟩ := (pushStep_store_iff hp).1 h
    have hoff : 16 ≤ off := by
      rcases hstage with ⟨-, rfl, -⟩ | ⟨-, rfl, -⟩ | ⟨-, rfl, -⟩
      · rw [offDelay_eq]; omega
      · rw [offClear_eq]; omega
      · rw [offSet_eq]; omega
    exact fun a ha => readByte_storeWord_outside _ _ _ (by omega)

/-- Settles O48: each clause says which operations may store to its bytes. -/
theorem onlyOwnersChangeTheRegion : Obligations.OnlyOwnersChangeTheRegion := by
  refine ⟨fun i s t h => ?_, fun p s t => continuePush_sameBytes⟩
  have hkeep := exec_sameBytes h
  refine ⟨hkeep.mono fun a ha hm => ?_, fun hinit => hkeep.mono fun a ha hm => ?_,
    fun hinit hreset => hkeep.mono fun a ha hm => ?_,
    fun hinit hreset hpop hexpiry => hkeep.mono fun a ha hm => ?_,
    fun hinit hreset hpop hexpiry hstart hstop => hkeep.mono fun a ha hm => ?_⟩
  · exact absurd (mayStore_lt hm) (Nat.not_lt.2 ha)
  · obtain ⟨c, hc⟩ := mayStore_capacity hm ha
    exact hinit c hc
  · rcases mayStore_writeIndex hm ha with ⟨c, hc⟩ | hr
    exacts [hinit c hc, hreset hr]
  · rcases mayStore_readIndex hm ha with ⟨c, hc⟩ | hr | hp | he
    exacts [hinit c hc, hreset hr, hpop hp, hexpiry he]
  · rcases mayStore_owner hm with ⟨c, hc⟩ | hr | hp | he | hs | hs
    exacts [hinit c hc, hreset hr, hpop hp, hexpiry he, hstart hs, hstop hs]

end Sys2Proof.Machine

/-! The invariant (R28, R40, R41): it holds at attach, every operation keeps it and every step of a `PUSH` keeps it, so
every step of every agent does. -/

namespace Sys2Proof.Machine

/-! ## The part about the memory (R20, R50) -/

/-- The memory's canonical form inside the region: the part of `Inv` about the bytes. -/
structure MemGood (cfg : Config) (m : Memory) : Prop where
  wf : m.wf = true
  inside : ∀ e ∈ m, e.1 < cfg.regionBytes

theorem Inv.memGood {s : State} (h : Inv s) : MemGood s.cfg s.mem := ⟨h.memWf, h.memInside⟩

theorem MemGood.store {cfg : Config} {m : Memory} (h : MemGood cfg m) {off : Nat} (v : Word)
    (hoff : off + 4 ≤ cfg.regionBytes) : MemGood cfg (storeWord m off v) := by
  refine ⟨wf_storeWord off v h.wf, fun e he => ?_⟩
  rcases mem_storeWord he with ⟨-, hlt⟩ | he
  · omega
  · exact h.inside e he

theorem MemGood.after_init {cfg : Config} {m : Memory} (h : MemGood cfg m) (c : Word) (h16 : 16 ≤ cfg.regionBytes) :
    MemGood cfg (initMemory c m) := by
  refine (((h.store _ ?_).store _ ?_).store _ ?_).store _ ?_ <;>
    simp only [offRd_eq, offWr_eq, offCap_eq, offSt_eq] <;> omega

theorem MemGood.after_zero {cfg : Config} {m : Memory} (h : MemGood cfg m) (h16 : 16 ≤ cfg.regionBytes) :
    MemGood cfg (zeroMemory m) := by
  refine ((h.store _ ?_).store _ ?_).store _ ?_ <;> simp only [offRd_eq, offWr_eq, offSt_eq] <;> omega

theorem MemGood.after_store {s t : State} (h : MemGood s.cfg s.mem) {off : Nat} {v : Word} (hw : memWrite s off v = .ok t) :
    MemGood t.cfg t.mem := by
  obtain ⟨hoff, rfl⟩ := memWrite_ok_iff.1 hw
  exact h.store v hoff

theorem MemGood.after_pop {s t : State} {x : Option Cell} (h : MemGood s.cfg s.mem) (hp : popCell s = .ok (t, x)) :
    MemGood t.cfg t.mem := by
  rcases popCell_stores hp with rfl | ⟨off, v, -, ht⟩
  · exact h
  · exact h.after_store ht

/-! ## The part about the timer and the callback (R33, R40, R132) -/

/-- The links between timer and callback: the part of `Inv` about the collaborators. -/
structure TimerGood (s : State) : Prop where
  armedCounts : s.tmrArmed = true → s.tmrCount ≠ 0#32
  armedNotPending : s.tmrArmed = true → s.tmrExpiryPending = false
  callbackOff : s.cbEnable = false → s.tmrArmed = false ∧ s.tmrExpiryPending = false

theorem Inv.timerGood {s : State} (h : Inv s) : TimerGood s := ⟨h.armedCounts, h.armedNotPending, h.callbackOff⟩

theorem TimerGood.congr {s t : State} (h : TimerGood s) (hs : SameCollaborators s t) : TimerGood t := by
  obtain ⟨hcount, harmed, hpending, hcb, -⟩ := hs
  refine ⟨?_, ?_, ?_⟩
  · rw [harmed, hcount]; exact h.armedCounts
  · rw [harmed, hpending]; exact h.armedNotPending
  · rw [hcb, harmed, hpending]; exact h.callbackOff

/-- A parked timer is good whatever the callback. -/
theorem TimerGood.of_idle {s : State} (harmed : s.tmrArmed = false) (hpending : s.tmrExpiryPending = false) :
    TimerGood s :=
  ⟨fun h => absurd h (by simp [harmed]), fun _ => hpending, fun _ => ⟨harmed, hpending⟩⟩

/-- A countdown load leaves the timer either armed or expired (R33), which needs the callback on. -/
theorem TimerGood.of_load {s : State} {v : Reg} (hcount : s.tmrCount = v) (harmed : s.tmrArmed = !decide (v = 0#32))
    (hpending : s.tmrExpiryPending = decide (v = 0#32)) (hcb : s.cbEnable = true) : TimerGood s := by
  refine ⟨?_, ?_, fun h => absurd h (by simp [hcb])⟩
  · rw [harmed, hcount]; simp
  · rw [harmed, hpending]; simp

/-- A tick disarms the timer when it takes the count to 0 (R34). -/
theorem TimerGood.tick {s : State} (h : TimerGood s) : TimerGood (timerTick s) := by
  by_cases ha : s.tmrArmed = true
  · have hcb : s.cbEnable ≠ false := fun hoff => by simp [(h.callbackOff hoff).1] at ha
    by_cases hc : s.tmrCount - 1#32 = 0#32
    · rw [timerTick_of_expiring ha hc]
      exact ⟨nofun, nofun, fun hoff => absurd hoff hcb⟩
    · rw [timerTick_of_counting ha hc]
      exact ⟨fun _ => hc, h.armedNotPending, h.callbackOff⟩
  · rw [timerTick_of_idle (by simpa using ha)]
    exact h

/-! ## The part about the region of an initialised device (R28, R40) -/

theorem RegionGood.congr {s t : State} (h : RegionGood s) (cfg : t.cfg = s.cfg) (mem : t.mem = s.mem)
    (callback : t.cbEnable = s.cbEnable) (push : t.push = s.push) : RegionGood t := by
  obtain ⟨⟨q, hq⟩, ⟨st, hst, hcb⟩, hp⟩ := h
  refine ⟨⟨q, hq.congr cfg mem⟩, ⟨st, by rw [readStatus_congr cfg mem]; exact hst, by rw [callback]; exact hcb⟩,
    fun p hpp => ?_⟩
  obtain ⟨hw, hc, hs⟩ := hp p (by rw [← push]; exact hpp)
  unfold StoredPrefix at *
  simp only [memRead_congr cfg mem]
  exact ⟨hw, hc, hs⟩

/-- The status an initialised device reads is RUNNING exactly when the callback is on. -/
theorem RegionGood.running_iff {s : State} (h : RegionGood s) {st : Status} (hst : readStatus s = .ok st) :
    st = .running ↔ s.cbEnable = true := by
  obtain ⟨st', hst', hcb⟩ := h.status
  rw [hst] at hst'
  cases hst'
  exact hcb

theorem RegionGood.callback_off {s : State} (h : RegionGood s) {st : Status} (hst : readStatus s = .ok st)
    (hne : st ≠ .running) : s.cbEnable = false := by
  simpa using mt (h.running_iff hst).2 hne

theorem RegionGood.cursors {s : State} (h : RegionGood s) : ∃ r w c, Cursors s r w c := by
  obtain ⟨q, r, w, c, hcur, -⟩ := h.queue
  exact ⟨r, w, c, hcur⟩

/-- An empty buffer with status STOPPED, the callback off and no `PUSH` in progress (R100, R101). -/
theorem RegionGood.of_empty {s : State} {c : Word} (h16 : 16 ≤ s.cfg.regionBytes)
    (hr : loadWord s.mem offRd = some 0#32) (hw : loadWord s.mem offWr = some 0#32) (hc : loadWord s.mem offCap = some c)
    (hst : loadWord s.mem offSt = some (statusWord .stopped)) (h0 : c ≠ 0#32) (hmax : c.toNat ≤ capMax s.cfg)
    (hcb : s.cbEnable = false) (hp : s.push = none) : RegionGood s := by
  have read {off : Nat} {v : Word} (hoff : off ≤ 12) (hv : loadWord s.mem off = some v) : memRead s off = .ok v :=
    memRead_ok_iff.2 ⟨by omega, hv⟩
  have hpos : (0#32 : Word) < c := by bv_omega
  have hcur : Cursors s 0#32 0#32 c :=
    ⟨read (by decide) hr, read (by decide) hw, read (by decide) hc, hpos, hpos, hmax⟩
  refine ⟨⟨[], 0#32, 0#32, c, hcur, ?_, fun j hj => ?_⟩, ⟨.stopped, ?_, ?_⟩, ?_⟩
  · exact ((occupancy_eq_zero_iff hpos hpos).2 rfl).symm
  · exact absurd hj (Nat.not_lt_zero j)
  · exact readStatus_ok_iff.2 (read (by decide) hst)
  · simp [hcb]
  · simp [hp]

/-- A store of the status that agrees with the callback keeps queue and `PUSH` (R109). -/
theorem RegionGood.store_status {s t : State} (h : RegionGood s) {st : Status} (cfg : t.cfg = s.cfg)
    (mem : t.mem = storeWord s.mem offSt (statusWord st)) (push : t.push = s.push)
    (hcb : st = .running ↔ t.cbEnable = true) : RegionGood t := by
  obtain ⟨r, w, c, hcur⟩ := h.cursors
  have hbig := hcur.regionBig
  obtain ⟨⟨q, hq⟩, -, hp⟩ := h
  refine RegionGood.congr (s := { s with mem := storeWord s.mem offSt (statusWord st), cbEnable := t.cbEnable })
    ⟨⟨q, (hq.store_status (statusWord st)).congr rfl rfl⟩, ⟨st, ?_, hcb⟩, fun p hpp => ?_⟩ cfg mem rfl push
  · exact readStatus_ok_iff.2 (memRead_store_same _ (by rw [offSt_eq]; omega))
  · obtain ⟨hw, hc, hs⟩ := hp p hpp
    refine ⟨?_, ?_, hs.store_control _ (by simp [offSt_eq])⟩
    · exact (memRead_store_disjoint s _ (by simp [offWr_eq, offSt_eq])).trans hw
    · exact (memRead_store_disjoint s _ (by simp [offCap_eq, offSt_eq])).trans hc

/-- Taking the head cell keeps status and `PUSH` (R104). -/
theorem RegionGood.store_read {s : State} (h : RegionGood s) {r w c : Word} (hcur : Cursors s r w c) (hrw : r ≠ w) :
    RegionGood { s with mem := storeWord s.mem offRd (nextIndex r c) } := by
  obtain ⟨⟨q, hq⟩, ⟨st, hst, hcb⟩, hp⟩ := h
  refine ⟨⟨q.tail, hq.store_read hcur hrw⟩, ⟨st, ?_, hcb⟩, fun p hpp => ?_⟩
  · rw [readStatus_store_disjoint _ _ (by simp [offRd_eq])]; exact hst
  · obtain ⟨hw, hc, hs⟩ := hp p hpp
    refine ⟨?_, ?_, hs.store_control _ (by simp [offRd_eq])⟩
    · rw [memRead_store_disjoint _ _ (by simp [offWr_eq, offRd_eq])]; exact hw
    · rw [memRead_store_disjoint _ _ (by simp [offCap_eq, offRd_eq])]; exact hc

/-- A `POP` that gives a cell keeps the region good. -/
theorem RegionGood.after_pop_some {s t : State} (h : RegionGood s) {x : Cell} (hp : popCell s = .ok (t, some x)) :
    RegionGood t := by
  rcases popCell_cases hp with ⟨-, -, hx⟩ | ⟨_, _, -, -, -, -, -, hx⟩ |
    ⟨_, r, w, c, _, -, -, hr, hw, hrw, hc, hrc, hwc, -, ht, -⟩
  · cases hx
  · cases hx
  · obtain ⟨-, rfl⟩ := memWrite_ok_iff.1 ht
    obtain ⟨r', w', c', hcur⟩ := h.cursors
    have hcap : c = c' := by
      have := hcur.cap
      rw [hc] at this
      cases this
      rfl
    exact h.store_read ⟨hr, hw, hc, hrc, hwc, hcap ▸ hcur.capLegal⟩ hrw

/-- A `POP` that gives no cell leaves ERROR_UNDERRUN, which is good once the callback is off (R104, R136 (b)). -/
theorem RegionGood.after_pop_none {s t u : State} (h : RegionGood s) (hp : popCell s = .ok (t, none)) (cfg : u.cfg = t.cfg)
    (mem : u.mem = t.mem) (push : u.push = t.push) (hcb : u.cbEnable = false) : RegionGood u := by
  rcases popCell_cases hp with ⟨hst, rfl, -⟩ | ⟨_, _, -, -, -, -, ht, -⟩ | ⟨_, _, _, _, _, -, -, -, -, -, -, -, -, -, -, hx⟩
  · have hoff := h.callback_off hst (by simp)
    exact h.congr cfg mem (hcb.trans hoff.symm) push
  · obtain ⟨-, rfl⟩ := setStatus_ok_iff.1 ht
    exact h.store_status cfg mem push (by simp [hcb])
  · cases hx

/-! ## The parts together -/

/-- The invariant of an initialised device, by its parts. -/
theorem Inv.of_initialised {s : State} (hi : s.devInitialized = true) (mem : MemGood s.cfg s.mem) (timer : TimerGood s)
    (mapping : s.devMapFailed = true → s.devMapped = false) (region : RegionGood s) : Inv s :=
  ⟨mem.wf, mem.inside, timer.armedCounts, timer.armedNotPending, timer.callbackOff, mapping,
    fun h => absurd h (by simp [hi]), fun _ => region⟩

/-- The inputs of the machine are not part of the invariant. -/
theorem Inv.inputs {s : State} (h : Inv s) (tr : List Word) (pr : List Bool) (lo : List (Option Word)) :
    Inv { s with trace := tr, preempt := pr, loads := lo } :=
  h.congr rfl rfl rfl rfl rfl rfl rfl rfl rfl rfl

/-- Settles O53: the attach state's fields, and no byte is listed. -/
theorem attachStateIsUninitialisedAndIdle : Obligations.AttachStateIsUninitialisedAndIdle :=
  ⟨rfl, rfl, rfl, rfl, rfl, rfl, rfl, fun _ => rfl⟩

/-- Settles O54: at attach nothing is written, the timer is idle and the device is not initialised. -/
theorem attachStateSatisfiesInv : Obligations.AttachStateSatisfiesInv where
  memWf := rfl
  memInside := fun _ he => nomatch he
  armedCounts := fun h => nomatch h
  armedNotPending := fun _ => rfl
  callbackOff := fun _ => ⟨rfl, rfl⟩
  failedNotMapped := fun _ => rfl
  uninitialised := fun _ => ⟨rfl, rfl, rfl, rfl⟩
  initialised := fun h => nomatch h

/-! ## The operations -/

/-- An `INIT` that goes on to its stores meets the callback off (R100). -/
theorem Inv.callback_off_of_idle {s : State} (h : Inv s) (hidle : initMeetsRunning s = .ok false) :
    s.cbEnable = false := by
  rcases initMeetsRunning_ok_iff.1 hidle with ⟨hi, -⟩ | ⟨hi, st, hst, hne⟩
  · exact (h.uninitialised hi).1
  · exact (h.initialised hi).callback_off hst (by simpa using hne.symm)

theorem execInit_inv {c : Word} {s t : State} (h : Inv s) (hp : s.push = none) (hx : execInit c s = .next t) : Inv t := by
  rcases execInit_cases hx with ⟨-, rfl⟩ | ⟨-, -, rfl⟩ | ⟨⟨h0, hmax⟩, hidle, h16, rfl⟩
  · exact inv_fail _ h
  · exact inv_fail _ h
  · have hmem := h.memGood.after_init c h16
    obtain ⟨hr, hw, hc, hst⟩ := initMemory_loads c s.mem
    generalize initMemory c s.mem = m at *
    exact inv_reply _ (.of_initialised rfl hmem (h.timerGood.congr (.device s m true false)) nofun
      (.of_empty h16 hr hw hc hst h0 hmax (h.callback_off_of_idle hidle) hp))

theorem execReset_inv {s t : State} (h : Inv s) (hp : s.push = none) (hx : execReset s = .next t) : Inv t := by
  rcases execReset_cases hx with ⟨-, rfl⟩ | ⟨-, -, rfl⟩ | ⟨hi, ⟨st, hstatus, hne⟩, h16, rfl⟩
  · exact inv_refuse _ h
  · exact inv_fail _ h
  · have hregion := h.initialised hi
    obtain ⟨r, w, c, hcur⟩ := hregion.cursors
    have hpos : c ≠ 0#32 := by have := hcur.readBelow; bv_omega
    have hmem := h.memGood.after_zero h16
    obtain ⟨hr, hw, hc, hst⟩ := zeroMemory_loads s.mem
    generalize zeroMemory s.mem = m at *
    exact inv_reply _ (.of_initialised hi hmem (h.timerGood.congr (.device s m _ _)) h.failedNotMapped
      (.of_empty h16 hr hw (hc.trans (memRead_ok_iff.1 hcur.cap).2) hst hpos hcur.capLegal
        (hregion.callback_off hstatus hne) hp))

@[simp] theorem attemptMapping_devInitialized (s : State) : (attemptMapping s).devInitialized = s.devInitialized := by
  unfold attemptMapping
  split <;> rfl

@[simp] theorem attemptMapping_push (s : State) : (attemptMapping s).push = s.push := by
  unfold attemptMapping
  split <;> rfl

/-- A failed platform attempt takes the mapping away with it (R165, R41). -/
theorem attemptMapping_failed_notMapped {s : State} (hf : s.devMapFailed = false)
    (h : (attemptMapping s).devMapFailed = true) : (attemptMapping s).devMapped = false := by
  revert h
  unfold attemptMapping
  split
  · exact fun h => nomatch hf.symm.trans h
  · exact fun _ => rfl

theorem attemptMapping_inv {s : State} (h : Inv s) (hi : s.devInitialized = true) (hf : s.devMapFailed = false) :
    Inv (attemptMapping s) := by
  obtain ⟨-, -, -, hcb, -⟩ := attemptMapping_sameCollaborators s
  refine .of_initialised (by rw [attemptMapping_devInitialized]; exact hi) ?_
    (h.timerGood.congr (attemptMapping_sameCollaborators s)) (attemptMapping_failed_notMapped hf)
    ((h.initialised hi).congr (attemptMapping_cfg s) (attemptMapping_mem s) hcb (attemptMapping_push s))
  rw [attemptMapping_cfg, attemptMapping_mem]
  exact h.memGood

theorem execMapBuffer_inv {z : Word} {s t : State} (h : Inv s) (hx : execMapBuffer z s = .next t) : Inv t := by
  rcases execMapBuffer_cases hx with ⟨-, rfl⟩ | ⟨-, -, rfl⟩ | ⟨hi, hf, _, -, ⟨-, rfl⟩ | ⟨-, rfl⟩⟩
  · exact inv_refuse _ h
  · exact inv_refuse _ h
  · exact inv_fail _ h
  · exact attemptMapping_inv h hi hf

theorem execGetStatus_inv {s t : State} (h : Inv s) (hx : execGetStatus s = .next t) : Inv t := by
  rcases execGetStatus_cases hx with ⟨-, rfl⟩ | ⟨-, _, -, rfl⟩
  · exact inv_refuse _ h
  · exact inv_reply _ h

theorem execSetStatus_inv {v : Word} {s t : State} (h : Inv s) (hx : execSetStatus v s = .next t) : Inv t := by
  rw [execSetStatus_eq] at hx
  cases hx
  exact inv_refuse _ h

/-- Step 1 of a `PUSH` has stored nothing yet and holds the present cursor and capacity (R103). -/
theorem execPush_inv {d k m : Word} {s t : State} (h : Inv s) (hx : execPush d k m s = .next t) : Inv t := by
  rcases execPush_cases hx with ⟨-, rfl⟩ | ⟨-, -, rfl⟩ | ⟨-, -, -, rfl⟩ | ⟨hi, -, -, w, c, hw, hc, -, rfl⟩
  · exact inv_refuse _ h
  · exact inv_refuse _ h
  · exact inv_refuse _ h
  · obtain ⟨⟨q, hq⟩, ⟨st, hst, hcb⟩, -⟩ := h.initialised hi
    refine .of_initialised hi h.memGood (h.timerGood.congr ⟨rfl, rfl, rfl, rfl, rfl⟩) h.failedNotMapped
      ⟨⟨q, hq.congr rfl rfl⟩, ⟨st, hst, hcb⟩, fun p hpp => ?_⟩
    cases hpp
    exact ⟨hw, hc, trivial⟩

theorem execPop_inv {s t : State} (h : Inv s) (hx : execPop s = .next t) : Inv t := by
  rcases execPop_cases hx with ⟨-, rfl⟩ | ⟨-, -, rfl⟩ | ⟨hi, ⟨st, hst, hne⟩, u, x, hpop, rfl⟩
  · exact inv_refuse _ h
  · exact inv_refuse _ h
  · have hregion := h.initialised hi
    have hmem := h.memGood.after_pop hpop
    have hsame := popCell_sameCollaborators hpop
    have hframe := popCell_frame hpop
    have region : RegionGood u := by
      cases x with
      | some c => exact hregion.after_pop_some hpop
      | none =>
        obtain ⟨-, -, -, hcb, -⟩ := hsame
        exact hregion.after_pop_none hpop rfl rfl rfl (hcb.trans (hregion.callback_off hst hne))
    refine inv_reply _ (.of_initialised ?_ hmem (h.timerGood.congr hsame) ?_ region)
    · rw [hframe]; exact hi
    · rw [hframe]; exact h.failedNotMapped

theorem execTick_inv {s t : State} (h : Inv s) (hx : execTick s = .next t) : Inv t := by
  rcases execTick_cases hx with ⟨-, rfl⟩ | ⟨hi, rfl⟩
  · exact inv_refuse _ h
  · refine .of_initialised (by rw [timerTick_devInitialized]; exact hi) ?_ h.timerGood.tick ?_
      ((h.initialised hi).congr (timerTick_cfg s) (timerTick_mem s) (timerTick_cbEnable s) (timerTick_push s))
    · rw [timerTick_cfg, timerTick_mem]; exact h.memGood
    · rw [timerTick_devMapFailed, timerTick_devMapped]; exact h.failedNotMapped

/-- The handler leaves the timer loaded with the cell's delay and the callback on, or parked and off (R136). -/
theorem runHandler_inv {s t : State} (h : Inv s) (hi : s.devInitialized = true) (hcb : s.cbEnable = true)
    (hx : runHandler s = .ok t) : Inv t := by
  have hregion : RegionGood (timerAck s) := (h.initialised hi).congr rfl rfl rfl rfl
  have hmem : MemGood (timerAck s).cfg (timerAck s).mem := h.memGood
  rcases runHandler_cases hx with ⟨u, c, hpop, rfl⟩ | ⟨u, hpop, rfl⟩
  · have hframe := popCell_frame hpop
    have hu : u.devInitialized = true ∧ u.cbEnable = true ∧ u.tmrExpiryPending = false := by
      rw [hframe]; exact ⟨hi, hcb, rfl⟩
    obtain ⟨hui, hucb, hupending⟩ := hu
    refine .of_initialised (by rw [runCell_devInitialized]; exact hui) ?_
      (.of_load (runCell_tmrCount c u) (runCell_tmrArmed c u) ?_ ?_) ?_
      ((hregion.after_pop_some hpop).congr (runCell_cfg c u) (runCell_mem c u) (runCell_cbEnable c u) (runCell_push c u))
    · rw [runCell_cfg, runCell_mem]; exact hmem.after_pop hpop
    · rw [runCell_tmrExpiryPending, hupending, Bool.or_false]
    · rw [runCell_cbEnable]; exact hucb
    · rw [runCell_devMapFailed, runCell_devMapped, hframe]; exact h.failedNotMapped
  · have hframe := popCell_frame hpop
    have hmemu : MemGood u.cfg u.mem := hmem.after_pop hpop
    refine .of_initialised ?_ hmemu (.of_idle rfl rfl) ?_ (hregion.after_pop_none hpop rfl rfl rfl rfl)
    · rw [hframe]; exact hi
    · rw [hframe]; exact h.failedNotMapped

theorem execTimerExpiry_inv {s t : State} (h : Inv s) (hx : execTimerExpiry s = .next t) : Inv t := by
  rcases execTimerExpiry_cases hx with ⟨-, rfl⟩ | ⟨-, -, rfl⟩ | ⟨hi, henabled, hrun⟩
  · exact inv_refuse _ h
  · exact h
  · refine runHandler_inv h hi ?_ hrun
    by_contra hoff
    rw [handlerEnabled_of_callbackOff (by simpa using hoff)] at henabled
    cases henabled

/-- `START` meets the callback off, so nothing is pending when it loads the countdown (R40, R140). -/
theorem execStart_inv {s t : State} (h : Inv s) (hx : execStart s = .next t) : Inv t := by
  rcases execStart_cases hx with ⟨-, rfl⟩ | ⟨-, -, rfl⟩ | ⟨hi, hst, u, hset, rfl⟩
  · exact inv_refuse _ h
  · exact inv_fail _ h
  · have hregion := h.initialised hi
    obtain ⟨-, hpending⟩ := h.callbackOff (hregion.callback_off hst (by simp))
    have hloaded : MemGood (timerLoad s.cfg.initialTicks s).cfg (timerLoad s.cfg.initialTicks s).mem := by
      rw [timerLoad_cfg, timerLoad_mem]; exact h.memGood
    have hmem : MemGood u.cfg u.mem :=
      MemGood.after_store (s := callbackEnable true (timerLoad s.cfg.initialTicks s)) hloaded hset
    obtain ⟨-, rfl⟩ := setStatus_ok_iff.1 hset
    refine inv_reply _ (.of_initialised ((timerLoad_devInitialized _ s).trans hi) hmem
      (.of_load (timerLoad_tmrCount _ s) (timerLoad_tmrArmed _ s) ?_ rfl) ?_
      (hregion.store_status (st := .running) (timerLoad_cfg _ s) ?_ (timerLoad_push _ s) ⟨fun _ => rfl, fun _ => rfl⟩))
    · exact (timerLoad_tmrExpiryPending _ s).trans (by rw [hpending, Bool.or_false])
    · simpa using h.failedNotMapped
    · simp

theorem execStop_inv {s t : State} (h : Inv s) (hx : execStop s = .next t) : Inv t := by
  rcases execStop_cases hx with ⟨-, rfl⟩ | ⟨-, -, rfl⟩ | ⟨hi, -, u, hset, rfl⟩
  · exact inv_refuse _ h
  · exact inv_fail _ h
  · have hmem : MemGood u.cfg u.mem :=
      MemGood.after_store (s := callbackEnable false (timerPark s)) h.memGood hset
    obtain ⟨-, rfl⟩ := setStatus_ok_iff.1 hset
    exact inv_reply _ (.of_initialised hi hmem (.of_idle rfl rfl) h.failedNotMapped
      ((h.initialised hi).store_status (st := .stopped) rfl rfl rfl ⟨nofun, nofun⟩))

/-- Every operation of a stream keeps the invariant. `INIT` and `RESET` need that no `PUSH` is in progress, which R103
gives: they are the producer's. -/
theorem exec_inv {i : Instr} {s t : State} (h : Inv s) (hframe : i.isFrame = true)
    (hp : s.push ≠ none → agentOf i ≠ .producer) (hx : exec i s = .next t) : Inv t := by
  have hnone (ha : agentOf i = .producer) : s.push = none := by
    by_contra hne
    exact hp hne ha
  cases i with
  | init => exact execInit_inv h (hnone rfl) hx
  | mapBuffer => exact execMapBuffer_inv h hx
  | start => exact execStart_inv h hx
  | stop => exact execStop_inv h hx
  | reset => exact execReset_inv h (hnone rfl) hx
  | getStatus => exact execGetStatus_inv h hx
  | push => exact execPush_inv h hx
  | pop => exact execPop_inv h hx
  | setStatus v => exact execSetStatus_inv (v := v) h hx
  | tick => exact execTick_inv h hx
  | timerExpiry => exact execTimerExpiry_inv h hx
  | cell => cases hframe

/-! ## The steps of a `PUSH` -/

/-- The device of a `PUSH` in progress is initialised. -/
theorem Inv.initialised_of_push {s : State} (h : Inv s) {p : PushInProgress} (hp : s.push = some p) :
    s.devInitialized = true := by
  by_contra hi
  obtain ⟨-, -, -, hnone⟩ := h.uninitialised (by simpa using hi)
  rw [hp] at hnone
  cases hnone

/-- A `PUSH` in progress holds the present `write_index` and `capacity`. -/
theorem RegionGood.push_cursors {s : State} (h : RegionGood s) {p : PushInProgress} (hp : s.push = some p) :
    ∃ r, Cursors s r p.w p.c := by
  obtain ⟨r, w, c, hcur⟩ := h.cursors
  obtain ⟨hw, hc, -⟩ := h.push p hp
  have hcw := hcur.write
  have hcc := hcur.cap
  rw [hw] at hcw
  rw [hc] at hcc
  cases hcw
  cases hcc
  exact ⟨r, hcur⟩

/-- Which word of the slot the next step of a `PUSH` stores, and the stage it goes to (R103 steps 2 to 4; the cases of
`pushStep_store_iff`). -/
def StoresWord (p : PushInProgress) (off : Nat) (v : Word) (st : PushStage) : Prop :=
  (p.stage = .storeDelay ∧ off = offDelay p.w.toNat ∧ v = p.cell.delay ∧ st = .storeClear) ∨
  (p.stage = .storeClear ∧ off = offClear p.w.toNat ∧ v = p.cell.clearMask ∧ st = .storeSet) ∨
  (p.stage = .storeSet ∧ off = offSet p.w.toNat ∧ v = p.cell.setMask ∧ st = .publish)

/-- Everything one of the steps 2 to 4 of a `PUSH` can answer. -/
theorem continuePush_store_iff {p : PushInProgress} {s t : State} (h : p.stage ≠ .publish) :
    continuePush p s = .next t ↔ ∃ off v st, StoresWord p off v st ∧ off + 4 ≤ s.cfg.regionBytes ∧
      t = { s with mem := storeWord s.mem off v, push := some { p with stage := st } } :=
  finish_next_iff.trans (pushStep_store_iff h)

/-- Everything step 5 of a `PUSH` can answer. -/
theorem continuePush_publish_iff {p : PushInProgress} {s t : State} (h : p.stage = .publish) :
    continuePush p s = .next t ↔ offWr + 4 ≤ s.cfg.regionBytes ∧
      t = reply .ok { s with mem := storeWord s.mem offWr (nextIndex p.w p.c), push := none } :=
  finish_next_iff.trans (pushStep_publish_iff h)

/-- The stored word lies in the slot of the `PUSH`. -/
theorem StoresWord.inSlot {p : PushInProgress} {off : Nat} {v : Word} {st : PushStage} (h : StoresWord p off v st) :
    offCell p.w.toNat ≤ off ∧ off + 4 ≤ offCell p.w.toNat + 12 := by
  rcases h with ⟨-, rfl, -⟩ | ⟨-, rfl, -⟩ | ⟨-, rfl, -⟩ <;>
    simp only [offDelay, offClear, offSet, wordBytes] <;> omega

/-- What stands in the slot after the store. -/
theorem StoredPrefix.store_next {s : State} {p : PushInProgress} (h : StoredPrefix s p) {off : Nat} {v : Word}
    {st : PushStage} (hin : off + 4 ≤ s.cfg.regionBytes) (hstage : StoresWord p off v st) :
    StoredPrefix { s with mem := storeWord s.mem off v } { p with stage := st } := by
  have hstored := memRead_store_same v hin
  rcases hstage with ⟨hs, rfl, rfl, rfl⟩ | ⟨hs, rfl, rfl, rfl⟩ | ⟨hs, rfl, rfl, rfl⟩ <;>
    simp only [StoredPrefix, hs] at h ⊢
  · exact hstored
  · refine ⟨?_, hstored⟩
    rw [memRead_store_disjoint _ _ (by rw [offDelay_eq, offClear_eq]; omega)]; exact h
  · obtain ⟨hd, hk⟩ := h
    refine ⟨?_, ?_, hstored⟩
    · rw [memRead_store_disjoint _ _ (by rw [offDelay_eq, offSet_eq]; omega)]; exact hd
    · rw [memRead_store_disjoint _ _ (by rw [offClear_eq, offSet_eq]; omega)]; exact hk

/-- A store into the slot of the `PUSH` in progress keeps the region good, if the `PUSH` goes on with what it stored. -/
theorem RegionGood.store_slot {s : State} (h : RegionGood s) {p : PushInProgress} (hp : s.push = some p) {off : Nat}
    {v : Word} {st : PushStage} (h0 : offCell p.w.toNat ≤ off) (h1 : off + 4 ≤ offCell p.w.toNat + 12)
    (hsofar : StoredPrefix { s with mem := storeWord s.mem off v } { p with stage := st }) :
    RegionGood { s with mem := storeWord s.mem off v, push := some { p with stage := st } } := by
  have h16 : 16 ≤ off := by simp only [offCell, wordBytes] at h0; omega
  obtain ⟨r, hcur⟩ := h.push_cursors hp
  obtain ⟨⟨q, hq⟩, ⟨status, hst, hcb⟩, -⟩ := h
  refine ⟨⟨q, (hq.store_write_slot hcur v h0 h1).congr rfl rfl⟩, ⟨status, ?_, hcb⟩, fun p' hp' => ?_⟩
  · exact (readStatus_store_disjoint s v (.inr h16)).trans hst
  · cases hp'
    refine ⟨?_, ?_, hsofar⟩
    · exact (memRead_store_disjoint s v (by rw [offWr_eq]; omega)).trans hcur.write
    · exact (memRead_store_disjoint s v (by rw [offCap_eq]; omega)).trans hcur.cap

/-- The publishing store keeps the region good and ends the `PUSH` (R103 step 5). -/
theorem RegionGood.publish {s : State} (h : RegionGood s) {p : PushInProgress} (hp : s.push = some p)
    (hstage : p.stage = .publish) :
    RegionGood { s with mem := storeWord s.mem offWr (nextIndex p.w p.c), push := none } := by
  obtain ⟨r, hcur⟩ := h.push_cursors hp
  obtain ⟨⟨q, hq⟩, ⟨status, hst, hcb⟩, hpush⟩ := h
  obtain ⟨-, -, hsofar⟩ := hpush p hp
  have hcell : readCell s p.w = .ok p.cell := by
    simp only [StoredPrefix, hstage] at hsofar
    exact readCell_ok_iff.2 hsofar
  refine ⟨⟨_, (hq.store_write hcur hcell).congr rfl rfl⟩, ⟨status, ?_, hcb⟩, fun p' hp' => nomatch hp'⟩
  exact (readStatus_store_disjoint s _ (by simp [offWr_eq])).trans hst

theorem continuePush_inv {p : PushInProgress} {s t : State} (h : Inv s) (hp : s.push = some p)
    (hx : continuePush p s = .next t) : Inv t := by
  have hi := h.initialised_of_push hp
  have hregion := h.initialised hi
  by_cases hstage : p.stage = .publish
  · obtain ⟨hin, rfl⟩ := (continuePush_publish_iff hstage).1 hx
    exact inv_reply _ (.of_initialised hi (h.memGood.store _ hin) (h.timerGood.congr ⟨rfl, rfl, rfl, rfl, rfl⟩)
      h.failedNotMapped (hregion.publish hp hstage))
  · obtain ⟨off, v, st, hst, hin, rfl⟩ := (continuePush_store_iff hstage).1 hx
    obtain ⟨h0, h1⟩ := hst.inSlot
    obtain ⟨-, -, hsofar⟩ := hregion.push p hp
    exact .of_initialised hi (h.memGood.store v hin) (h.timerGood.congr ⟨rfl, rfl, rfl, rfl, rfl⟩) h.failedNotMapped
      (hregion.store_slot hp h0 h1 (hsofar.store_next hin hst))

/-! ## The step -/

theorem stepLoad_inv {addr : Word} {s t : State} (h : Inv s) (hx : stepLoad addr s = .next t) : Inv t := by
  rw [producerLoad_frame (finish_next_iff.1 hx)]
  exact h.congr rfl rfl rfl rfl rfl rfl rfl rfl rfl rfl

/-- Settles O55, by the four kinds of move: a step of the `PUSH` in progress, an operation, a load of the producer, a
refused frame. -/
theorem everyStepKeepsInv : Obligations.EveryStepKeepsInv := by
  intro s t h hx
  rcases nextMove_cases s with
    ⟨p, s', hp, hmove, hinputs⟩ | ⟨i, tr, pr, lo, hmove, hframe, hagent⟩ | ⟨addr, lo, -, hmove⟩ | ⟨why, tr, lo, hmove⟩
  · rw [step_of_pushOn hmove] at hx
    rcases hinputs with rfl | rfl
    · exact continuePush_inv h hp hx
    · exact continuePush_inv (h.inputs s.trace s.preempt.tail s.loads) hp hx
  · rw [step_of_run hmove] at hx
    exact exec_inv (h.inputs tr pr lo) hframe hagent hx
  · rw [step_of_load hmove] at hx
    exact stepLoad_inv (h.inputs s.trace s.preempt lo) hx
  · rw [step_of_reject hmove] at hx
    cases hx
    exact inv_refuse why (h.inputs tr s.preempt lo)

end Sys2Proof.Machine

/-! Refusals (R41, R102), the faults of undefined region states (R25, R113), and progress: from a state with the invariant
no operation and no step of a `PUSH` faults (R28, R42, R113). -/

namespace Sys2Proof.Machine

/-! ## Refusals -/

theorem finish_whenInitialised_of_not {s : State} (h : s.devInitialized = false) (k : Except Fault State) :
    finish (whenInitialised s k) = .next { s with refusals := s.refusals ++ [.notInitialised] } := by
  rw [whenInitialised_of_not h]
  rfl

/-- Settles O24: admission is the first thing each of these operations does. -/
theorem operationsBeforeInitAreRefused : Obligations.OperationsBeforeInitAreRefused := by
  intro s h i hi
  rcases hi with rfl | rfl | rfl | rfl | rfl | rfl | rfl | ⟨z, rfl⟩ | ⟨d, k, m, rfl⟩ <;>
    exact finish_whenInitialised_of_not h _

theorem execPush_of_mappingFailed {s : State} (hi : s.devInitialized = true) (hf : s.devMapFailed = true) (d k m : Word) :
    execPush d k m s = .next (refuse .mappingFailed s) := by
  simp only [execPush, whenInitialised_of_init hi, hf, if_true, finish_ok]

theorem execPush_of_session {s : State} (hi : s.devInitialized = true) (hf : s.devMapFailed = false) (d k m : Word) :
    execPush d k m s = finish (if s.devMapped then beginPush ⟨d, k, m⟩ s else .ok (refuse .notMapped s)) := by
  simp only [execPush, whenInitialised_of_init hi, hf, Bool.false_eq_true, if_false]

theorem execPush_of_notMapped {s : State} (hi : s.devInitialized = true) (hf : s.devMapFailed = false)
    (hm : s.devMapped = false) (d k m : Word) : execPush d k m s = .next (refuse .notMapped s) := by
  simp only [execPush_of_session hi hf, hm, Bool.false_eq_true, if_false, finish_ok]

theorem execPush_of_mapped {s : State} (hi : s.devInitialized = true) (hf : s.devMapFailed = false)
    (hm : s.devMapped = true) (d k m : Word) : execPush d k m s = finish (beginPush ⟨d, k, m⟩ s) := by
  simp only [execPush_of_session hi hf, hm, if_true]

/-- Settles O28: the two refusals come before step 1 of the `PUSH`. -/
theorem pushWithoutMappingIsRefused : Obligations.PushWithoutMappingIsRefused :=
  fun d k m _ hi => ⟨fun hf => execPush_of_mappingFailed hi hf d k m, fun hf hm => execPush_of_notMapped hi hf hm d k m⟩

/-! ## Faults -/

@[simp] theorem error_bind {α β : Type} (e : Fault) (f : α → Except Fault β) :
    ((.error e : Except Fault α) >>= f) = .error e := rfl

theorem statusOfWord_reserved {w : Word} (h : 3 ≤ w.toNat) : statusOfWord w = none := by
  have h0 : w ≠ 0#32 := by bv_omega
  have h1 : w ≠ 1#32 := by bv_omega
  have h2 : w ≠ 2#32 := by bv_omega
  simp only [statusOfWord, if_neg h0, if_neg h1, if_neg h2]

/-- A reserved status faults where it is read (R25, U4). -/
theorem readStatus_reserved {s : State} {w : Word} (hw : memRead s offSt = .ok w) (h : 3 ≤ w.toNat) :
    readStatus s = .error (.reservedStatus w) := by
  simp only [readStatus, hw, ok_bind, statusOfWord_reserved h]

theorem handlerEnabled_of_callbackOn {s : State} (hp : s.tmrExpiryPending = true) (hcb : s.cbEnable = true) :
    handlerEnabled s = readStatus s >>= fun st => .ok (decide (st = .running)) := by
  simp only [handlerEnabled, hp, hcb, Bool.and_self, if_true]

/-- The seven operations that read the status pass its fault on. -/
theorem exec_fault_of_readStatus {s : State} {f : Fault} (hi : s.devInitialized = true) (hf : readStatus s = .error f)
    {i : Instr} (h : i = .start ∨ i = .stop ∨ i = .reset ∨ i = .getStatus ∨ i = .pop ∨
      (∃ c, i = .init c ∧ c ≠ 0#32 ∧ c.toNat ≤ capMax s.cfg) ∨
      (i = .timerExpiry ∧ s.tmrExpiryPending = true ∧ s.cbEnable = true)) : exec i s = .fault f := by
  rcases h with rfl | rfl | rfl | rfl | rfl | ⟨c, rfl, h0, hmax⟩ | ⟨rfl, hp, hcb⟩
  · simp only [exec, execStart, whenInitialised_of_init hi, hf, error_bind, finish_error]
  · simp only [exec, execStop, whenInitialised_of_init hi, hf, error_bind, finish_error]
  · simp only [exec, execReset, whenInitialised_of_init hi, hf, error_bind, finish_error]
  · simp only [exec, execGetStatus, whenInitialised_of_init hi, hf, error_bind, finish_error]
  · simp only [exec, execPop, whenInitialised_of_init hi, hf, error_bind, finish_error]
  · simp only [exec, execInit, if_neg h0, if_neg (Nat.not_lt.2 hmax), initMeetsRunning, hi, if_true, hf, error_bind,
      finish_error]
  · simp only [exec, execTimerExpiry, whenInitialised_of_init hi, handlerEnabled_of_callbackOn hp hcb, hf, error_bind,
      finish_error]

theorem checkCursor_below {x c : Word} (h : x < c) : checkCursor x c = .ok () := if_pos h

theorem checkCursor_outOfRange {x c : Word} (h : c ≤ x) : checkCursor x c = .error (.cursorOutOfRange x c) :=
  if_neg (BitVec.not_lt.2 h)

theorem beginPush_outOfRange {s : State} {cell : Cell} {w c : Word} (hw : memRead s offWr = .ok w)
    (hc : memRead s offCap = .ok c) (h : c ≤ w) : beginPush cell s = .error (.cursorOutOfRange w c) := by
  simp only [beginPush, hw, hc, ok_bind, checkCursor_outOfRange h, error_bind]

theorem takeCell_read_outOfRange {s : State} {r w c : Word} (hc : memRead s offCap = .ok c) (h : c ≤ r) :
    takeCell r w s = .error (.cursorOutOfRange r c) := by
  simp only [takeCell, hc, ok_bind, checkCursor_outOfRange h, error_bind]

theorem takeCell_write_outOfRange {s : State} {r w c : Word} (hc : memRead s offCap = .ok c) (hr : r < c) (h : c ≤ w) :
    takeCell r w s = .error (.cursorOutOfRange w c) := by
  simp only [takeCell, hc, ok_bind, checkCursor_below hr, checkCursor_outOfRange h, error_bind]

/-- Where the cursors differ the body of `POP` goes on to take a cell (R104). -/
theorem popCell_eq_takeCell {s : State} {st : Status} {r w : Word} (hst : readStatus s = .ok st)
    (hne : st ≠ .errorUnderrun) (hr : memRead s offRd = .ok r) (hw : memRead s offWr = .ok w) (hrw : r ≠ w) :
    popCell s = takeCell r w s := by
  simp only [popCell, hst, ok_bind, if_neg hne, hr, memReadAcq_eq, hw, isEmpty, hrw, decide_false, Bool.false_eq_true,
    if_false]

/-- A direct `POP` outside RUNNING passes on the faults of its body. -/
theorem execPop_fault {s : State} {st : Status} {f : Fault} (hi : s.devInitialized = true) (hst : readStatus s = .ok st)
    (hne : st ≠ .running) (h : popCell s = .error f) : execPop s = .fault f := by
  simp only [execPop, whenInitialised_of_init hi, hst, ok_bind, if_neg hne, h, error_bind, finish_error]

/-- So does the handler. -/
theorem execTimerExpiry_fault {s : State} {f : Fault} (hi : s.devInitialized = true) (hp : s.tmrExpiryPending = true)
    (hcb : s.cbEnable = true) (hst : readStatus s = .ok .running) (h : popCell (timerAck s) = .error f) :
    execTimerExpiry s = .fault f := by
  simp only [execTimerExpiry, whenInitialised_of_init hi, handlerEnabled_of_callbackOn hp hcb, hst, ok_bind,
    decide_true, if_true, runHandler, enterHandler_eq, h, error_bind, finish_error]

/-- The fault of taking a cell is the fault of the direct `POP` and of the handler: the acknowledge before it leaves the
region (R136). -/
theorem exec_fault_of_takeCell {s : State} {i : Instr} {r w : Word} {f : Fault} (hi : s.devInitialized = true)
    (h : (i = .pop ∧ readStatus s = .ok .stopped) ∨
      (i = .timerExpiry ∧ s.tmrExpiryPending = true ∧ s.cbEnable = true ∧ readStatus s = .ok .running))
    (hr : memRead s offRd = .ok r) (hw : memRead s offWr = .ok w) (hrw : r ≠ w)
    (hf : ∀ u : State, u.cfg = s.cfg → u.mem = s.mem → takeCell r w u = .error f) : exec i s = .fault f := by
  have body {st : Status} (hst : readStatus s = .ok st) (hne : st ≠ .errorUnderrun) (u : State) (hcfg : u.cfg = s.cfg)
      (hmem : u.mem = s.mem) : popCell u = .error f := by
    rw [popCell_eq_takeCell (s := u) (r := r) (w := w) (by rw [readStatus_congr hcfg hmem]; exact hst) hne
      (by rw [memRead_congr hcfg hmem]; exact hr) (by rw [memRead_congr hcfg hmem]; exact hw) hrw]
    exact hf u hcfg hmem
  rcases h with ⟨rfl, hst⟩ | ⟨rfl, hp, hcb, hst⟩
  · exact execPop_fault hi hst (by simp) (body hst (by simp) s rfl rfl)
  · exact execTimerExpiry_fault hi hp hcb hst (body hst (by simp) (timerAck s) rfl rfl)

/-- Settles O52: the fault of the status read, the fault of the cursor check in `PUSH` and in the body of `POP`, and the
invariant's legal status and cursors. -/
theorem undefinedRegionStatesFault : Obligations.UndefinedRegionStatesFault := by
  refine ⟨fun s w hi hw h3 i => exec_fault_of_readStatus hi (readStatus_reserved hw h3), ?push, ?pop, ?inv⟩
  case push =>
    intro d k m w c s hi hm hf hw hc h
    exact (execPush_of_mapped hi hf hm d k m).trans (by rw [beginPush_outOfRange hw hc h, finish_error])
  case pop =>
    intro r w c s i hi hcase hr hw hrw hc
    have cap (u : State) (hcfg : u.cfg = s.cfg) (hmem : u.mem = s.mem) : memRead u offCap = .ok c := by
      rw [memRead_congr hcfg hmem]; exact hc
    exact ⟨fun h => exec_fault_of_takeCell hi hcase hr hw hrw fun u hcfg hmem =>
        takeCell_read_outOfRange (cap u hcfg hmem) h,
      fun hlt h => exec_fault_of_takeCell hi hcase hr hw hrw fun u hcfg hmem =>
        takeCell_write_outOfRange (cap u hcfg hmem) hlt h⟩
  case inv =>
    intro s hinv hi
    have hregion := hinv.initialised hi
    obtain ⟨st, hst, -⟩ := hregion.status
    obtain ⟨r, w, c, hcur⟩ := hregion.cursors
    exact ⟨st, r, w, c, hst, hcur.read, hcur.write, hcur.cap, hcur.readBelow, hcur.writeBelow⟩

/-! ## Progress: the shared operations -/

theorem RegionGood.regionBig {s : State} (h : RegionGood s) : 28 ≤ s.cfg.regionBytes := by
  obtain ⟨r, w, c, hcur⟩ := h.cursors
  exact hcur.regionBig

theorem setStatus_completes {s : State} (h : 28 ≤ s.cfg.regionBytes) (st : Status) : ∃ t, setStatus s st = .ok t :=
  ⟨_, setStatus_ok_iff.2 ⟨by rw [offSt_eq]; omega, rfl⟩⟩

/-- The body of `POP` completes: the cursors are legal and the head cell readable (R113). -/
theorem RegionGood.popCell_completes {s : State} (h : RegionGood s) : ∃ t x, popCell s = .ok (t, x) := by
  obtain ⟨st, hst, -⟩ := h.status
  obtain ⟨r, w, c, hcur⟩ := h.cursors
  obtain ⟨q, hq⟩ := h.queue
  by_cases hterminal : st = .errorUnderrun
  · exact ⟨s, none, popCell_terminal (hterminal ▸ hst)⟩
  · by_cases hrw : r = w
    · obtain ⟨t, ht⟩ := setStatus_completes h.regionBig .errorUnderrun
      exact ⟨t, none, popCell_empty hst hterminal hcur.read (hrw ▸ hcur.write) ht⟩
    · obtain ⟨x, -, -, hx⟩ := hq.head hcur hrw
      have hin : offRd + 4 ≤ s.cfg.regionBytes := by have := h.regionBig; rw [offRd_eq]; omega
      exact ⟨_, some x, popCell_some hst hterminal hcur.read hcur.write hrw hcur.cap hcur.readBelow hcur.writeBelow hx
        (memWrite_inside _ hin)⟩

/-- An operation behind admission completes if its body does on an initialised device; before `INIT` it is refused. -/
theorem whenInitialised_completes {s : State} {k : Except Fault State}
    (hk : s.devInitialized = true → ∃ t, k = .ok t) : ∃ t, finish (whenInitialised s k) = .next t := by
  cases hi : s.devInitialized
  · exact ⟨_, finish_whenInitialised_of_not hi k⟩
  · obtain ⟨t, rfl⟩ := hk hi
    exact ⟨t, by rw [whenInitialised_of_init hi, finish_ok]⟩

/-! ## Progress: the operations -/

theorem Inv.initMeetsRunning_completes {s : State} (h : Inv s) : ∃ b, initMeetsRunning s = .ok b := by
  cases hi : s.devInitialized
  · exact ⟨false, initMeetsRunning_ok_iff.2 (.inl ⟨hi, rfl⟩)⟩
  · obtain ⟨st, hst, -⟩ := (h.initialised hi).status
    exact ⟨_, initMeetsRunning_ok_iff.2 (.inr ⟨hi, st, hst, rfl⟩)⟩

/-- A legal capacity means that the region has room for the control words (R24), on any device. -/
theorem execInit_completes {s : State} (h : Inv s) (c : Word) : ∃ t, execInit c s = .next t := by
  unfold execInit
  split
  · exact ⟨_, rfl⟩
  · next h0 =>
    split
    · exact ⟨_, rfl⟩
    · next hmax =>
      obtain ⟨busy, hbusy⟩ := h.initMeetsRunning_completes
      simp only [hbusy, ok_bind]
      cases busy with
      | true => exact ⟨_, rfl⟩
      | false =>
        have hpos : 0 < c.toNat := by bv_omega
        have h16 : 16 ≤ s.cfg.regionBytes := by have := control_inside hpos (Nat.not_lt.1 hmax); omega
        simp only [Bool.false_eq_true, if_false, initRegion_ok_iff.2 ⟨h16, rfl⟩, ok_bind]
        exact ⟨_, rfl⟩

theorem execMapBuffer_completes {s : State} (h : Inv s) (z : Word) : ∃ t, execMapBuffer z s = .next t := by
  refine whenInitialised_completes fun hi => ?_
  obtain ⟨r, w, c, hcur⟩ := (h.initialised hi).cursors
  simp only [hcur.cap, ok_bind]
  split
  · exact ⟨_, rfl⟩
  · split <;> exact ⟨_, rfl⟩

theorem execStart_completes {s : State} (h : Inv s) : ∃ t, execStart s = .next t := by
  refine whenInitialised_completes fun hi => ?_
  have hregion := h.initialised hi
  obtain ⟨st, hst, -⟩ := hregion.status
  simp only [hst, ok_bind]
  split
  · obtain ⟨t, ht⟩ := setStatus_completes (s := callbackEnable true (timerLoad s.cfg.initialTicks s))
      (by simpa using hregion.regionBig) .running
    simp only [ht, ok_bind]
    exact ⟨_, rfl⟩
  · exact ⟨_, rfl⟩

theorem execStop_completes {s : State} (h : Inv s) : ∃ t, execStop s = .next t := by
  refine whenInitialised_completes fun hi => ?_
  have hregion := h.initialised hi
  obtain ⟨st, hst, -⟩ := hregion.status
  simp only [hst, ok_bind]
  split
  · obtain ⟨t, ht⟩ := setStatus_completes (s := callbackEnable false (timerPark s)) hregion.regionBig .stopped
    simp only [ht, ok_bind]
    exact ⟨_, rfl⟩
  · exact ⟨_, rfl⟩

theorem execReset_completes {s : State} (h : Inv s) : ∃ t, execReset s = .next t := by
  refine whenInitialised_completes fun hi => ?_
  have hregion := h.initialised hi
  obtain ⟨st, hst, -⟩ := hregion.status
  have h16 : 16 ≤ s.cfg.regionBytes := by have := hregion.regionBig; omega
  simp only [hst, ok_bind, zeroRegion_ok_iff.2 ⟨h16, rfl⟩]
  split <;> exact ⟨_, rfl⟩

theorem execGetStatus_completes {s : State} (h : Inv s) : ∃ t, execGetStatus s = .next t := by
  refine whenInitialised_completes fun hi => ?_
  obtain ⟨st, hst, -⟩ := (h.initialised hi).status
  simp only [hst, ok_bind]
  exact ⟨_, rfl⟩

theorem execPush_completes {s : State} (h : Inv s) (d k m : Word) : ∃ t, execPush d k m s = .next t := by
  refine whenInitialised_completes fun hi => ?_
  obtain ⟨r, w, c, hcur⟩ := (h.initialised hi).cursors
  split
  · exact ⟨_, rfl⟩
  · split
    · exact ⟨_, beginPush_ok_iff.2 ⟨w, c, hcur.write, hcur.cap, hcur.writeBelow, rfl⟩⟩
    · exact ⟨_, rfl⟩

theorem execPop_completes {s : State} (h : Inv s) : ∃ t, execPop s = .next t := by
  refine whenInitialised_completes fun hi => ?_
  have hregion := h.initialised hi
  obtain ⟨st, hst, -⟩ := hregion.status
  obtain ⟨t, x, hpop⟩ := hregion.popCell_completes
  simp only [hst, hpop, ok_bind]
  split <;> exact ⟨_, rfl⟩

theorem runHandler_completes {s : State} (h : RegionGood s) : ∃ t, runHandler s = .ok t := by
  have hack : RegionGood (timerAck s) := h.congr rfl rfl rfl rfl
  obtain ⟨t, x, hpop⟩ := hack.popCell_completes
  simp only [runHandler, enterHandler_eq, hpop, ok_bind]
  cases x <;> exact ⟨_, rfl⟩

theorem RegionGood.handlerEnabled_completes {s : State} (h : RegionGood s) : ∃ b, handlerEnabled s = .ok b := by
  obtain ⟨st, hst, -⟩ := h.status
  cases hdue : s.tmrExpiryPending && s.cbEnable
  · exact ⟨false, handlerEnabled_ok_iff.2 (.inl ⟨hdue, rfl⟩)⟩
  · exact ⟨_, handlerEnabled_ok_iff.2 (.inr ⟨hdue, st, hst, rfl⟩)⟩

theorem execTimerExpiry_completes {s : State} (h : Inv s) : ∃ t, execTimerExpiry s = .next t := by
  refine whenInitialised_completes fun hi => ?_
  have hregion := h.initialised hi
  obtain ⟨b, hb⟩ := hregion.handlerEnabled_completes
  simp only [hb, ok_bind]
  split
  · exact runHandler_completes hregion
  · exact ⟨_, rfl⟩

/-- From a state with the invariant every operation completes. -/
theorem exec_completes {s : State} (h : Inv s) (i : Instr) : ∃ t, exec i s = .next t := by
  cases i with
  | init c => exact execInit_completes h c
  | mapBuffer z => exact execMapBuffer_completes h z
  | start => exact execStart_completes h
  | stop => exact execStop_completes h
  | reset => exact execReset_completes h
  | getStatus => exact execGetStatus_completes h
  | push d k m => exact execPush_completes h d k m
  | pop => exact execPop_completes h
  | setStatus v => exact ⟨_, execSetStatus_eq v s⟩
  | tick => exact whenInitialised_completes fun _ => ⟨_, rfl⟩
  | timerExpiry => exact execTimerExpiry_completes h
  | cell d k m => exact ⟨_, execCell_eq d k m s⟩

/-! ## Progress: the steps of a `PUSH` and the loads of the producer -/

/-- The slot of a `PUSH` in progress and the control words lie inside the region (R24, R113). -/
theorem continuePush_completes {s : State} (h : Inv s) {p : PushInProgress} (hp : s.push = some p) :
    ∃ t, continuePush p s = .next t := by
  obtain ⟨r, hcur⟩ := (h.initialised (h.initialised_of_push hp)).push_cursors hp
  have hslot : offCell p.w.toNat + 12 ≤ s.cfg.regionBytes := slot_inside hcur.writeBelow hcur.capLegal
  have hcontrol := hcur.regionBig
  have store {off : Nat} {v : Word} {st : PushStage} (hst : StoresWord p off v st) (hne : p.stage ≠ .publish) :
      ∃ t, continuePush p s = .next t := by
    obtain ⟨-, hend⟩ := hst.inSlot
    exact ⟨_, (continuePush_store_iff hne).2 ⟨off, v, st, hst, by omega, rfl⟩⟩
  cases hstage : p.stage with
  | storeDelay => exact store (.inl ⟨hstage, rfl, rfl, rfl⟩) (by simp [hstage])
  | storeClear => exact store (.inr (.inl ⟨hstage, rfl, rfl, rfl⟩)) (by simp [hstage])
  | storeSet => exact store (.inr (.inr ⟨hstage, rfl, rfl, rfl⟩)) (by simp [hstage])
  | publish => exact ⟨_, (continuePush_publish_iff hstage).2 ⟨by rw [offWr_eq]; omega, rfl⟩⟩

/-- The structure lies inside the region: `BUFFER_BYTES` is the end of the last slot (R50, R51). -/
theorem Cursors.bufferBytes_le {s : State} {r w c : Word} (h : Cursors s r w c) : bufferBytes c ≤ s.cfg.regionBytes := by
  have hpos : r.toNat < c.toNat := h.readBelow
  have hlast := slot_inside (i := c.toNat - 1) (by omega) h.capLegal
  simp only [bufferBytes, offCell, wordBytes] at *
  omega

/-- The one fault of a load of the producer is an unwritten word (U10). -/
theorem stepLoad_completes_or_unwritten {s : State} (h : Inv s) (addr : Word) :
    (∃ t, stepLoad addr s = .next t) ∨ (loadWord s.mem (mappedOffset addr s) = none ∧
      stepLoad addr s = .fault (.unwrittenRead (mappedOffset addr s))) := by
  cases hi : s.devInitialized with
  | false => exact .inl ⟨_, finish_whenInitialised_of_not hi _⟩
  | true =>
    obtain ⟨r, w, c, hcur⟩ := (h.initialised hi).cursors
    simp only [stepLoad, producerLoad, whenInitialised_of_init hi, hcur.cap, ok_bind, producerRead_eq]
    split
    · split
      · exact .inl ⟨_, rfl⟩
      · split
        · exact .inl ⟨_, rfl⟩
        · next hinside =>
          have hin : inRegion s (mappedOffset addr s) = true := by
            have := hcur.bufferBytes_le
            simp only [wordBytes] at hinside
            rw [inRegion_iff]; omega
          simp only [memRead, hin, if_true]
          cases loadWord s.mem (mappedOffset addr s) with
          | none => exact .inr ⟨rfl, rfl⟩
          | some v => exact .inl ⟨_, rfl⟩
    · exact .inl ⟨_, rfl⟩

/-! ## Progress: the step -/

/-- The step completes unless it is a load of the producer. -/
theorem step_completes_or_load {s : State} (h : Inv s) :
    (∃ t, step s = .next t) ∨ ∃ addr lo, nextMove s = .load addr { s with loads := lo } := by
  rcases nextMove_cases s with
    ⟨p, s', hp, hmove, hinputs⟩ | ⟨i, tr, pr, lo, hmove, -, -⟩ | ⟨addr, lo, -, hmove⟩ | ⟨why, tr, lo, hmove⟩
  · left
    rw [step_of_pushOn hmove]
    rcases hinputs with rfl | rfl
    · exact continuePush_completes h hp
    · exact continuePush_completes (h.inputs s.trace s.preempt.tail s.loads) hp
  · left
    rw [step_of_run hmove]
    exact exec_completes (h.inputs tr pr lo) i
  · exact .inr ⟨addr, lo, hmove⟩
  · exact .inl ⟨_, step_of_reject hmove⟩

/-- Settles O56: every move completes but a load of the producer, whose one fault is an unwritten word. -/
theorem stepFromInvNeverFaults : Obligations.StepFromInvNeverFaults := by
  refine fun s h => ⟨fun hnoload => ?_, ?_⟩
  · rcases step_completes_or_load h with ⟨t, ht⟩ | ⟨addr, lo, hmove⟩
    · exact ⟨fun f hf => (by rw [ht] at hf; cases hf), t, ht⟩
    · exact absurd hmove (hnoload addr _)
  · rcases step_completes_or_load h with ⟨t, ht⟩ | ⟨addr, lo, hmove⟩
    · exact .inl ⟨t, ht⟩
    · rw [step_of_load hmove]
      rcases stepLoad_completes_or_unwritten (h.inputs s.trace s.preempt lo) addr with ht | ⟨hnone, hfault⟩
      · exact .inl ht
      · exact .inr ⟨addr, _, hmove, hnone, hfault⟩

end Sys2Proof.Machine

/-! The shared region (R51), the frame the next step takes (R63, R85, R87), and the buffer as a queue (R57, R107, R220):
what the body of `POP`, each operation and each step of a `PUSH` does to the pending cells, so that every step does one of
these. -/

namespace Sys2Proof.Machine

/-! ## Offsets (R51) -/

theorem bufferBytes_eq (c : Word) : bufferBytes c = 16 + 12 * c.toNat := rfl

/-- Settles O10, by the offset equations. -/
theorem regionLayoutOffsets : Obligations.RegionLayoutOffsets :=
  ⟨offRd_eq, offWr_eq, offCap_eq, offSt_eq, fun i => ⟨offDelay_eq i, offClear_eq i, offSet_eq i⟩, bufferBytes_eq⟩

/-! ## The frame at the head of the stream (R85, R87, R91) -/

theorem nextFrame_of_decoded {s : State} {i : Instr} {rest : List Word} (h : decode s.trace = .ok i rest) :
    nextFrame s = .run i { s with trace := rest } := by
  unfold nextFrame
  split
  · next hnil => rw [hnil] at h; cases h
  · simp only [h]

theorem nextFrame_of_rejected {s : State} {why : Reject} {rest : List Word} (hne : s.trace ≠ [])
    (h : decode s.trace = .reject why rest) : nextFrame s = .reject (refusedBy why) { s with trace := rest } := by
  unfold nextFrame
  split
  · contradiction
  · simp only [h]

/-- Between two `PUSH`es and with no load first, the next frame moves, and the entry of `loads` is used up (log 23). -/
theorem nextMove_of_noLoad {s : State} (hp : s.push = none) (hl : NoLoadNext s) :
    nextMove s = nextFrame { s with loads := s.loads.tail } := by
  rcases nextBetweenPushes_cases s with ⟨addr, more, hload, -⟩ | ⟨-, hnext⟩
  · exact absurd hload (hl addr more)
  · simp only [nextMove, hp, hnext]

/-- A code that fixes one operand word and has none (R87). -/
theorem decode_oneWord_truncated {code : Word} (h : code = 0x01#32 ∨ code = 0x02#32 ∨ code = 0x12#32) :
    decode [code] = .reject .truncated [] := by
  rcases h with rfl | rfl | rfl <;> rfl

/-- A `PUSH` frame with fewer than the three words of a Cell (R87). -/
theorem decode_push_truncated {ops : List Word} (h : ops.length < 3) :
    decode (0x10#32 :: ops) = .reject .truncated [] := by
  match ops, h with
  | [], _ => rfl
  | [_], _ => rfl
  | [_, _], _ => rfl

theorem decode_truncated {code : Word} {ops : List Word}
    (h : ((code = 0x01#32 ∨ code = 0x02#32 ∨ code = 0x12#32) ∧ ops.length < 1) ∨ (code = 0x10#32 ∧ ops.length < 3)) :
    decode (code :: ops) = .reject .truncated [] := by
  rcases h with ⟨hcode, hlen⟩ | ⟨rfl, hlen⟩
  · obtain rfl : ops = [] := List.length_eq_zero_iff.1 (by omega)
    exact decode_oneWord_truncated hcode
  · exact decode_push_truncated hlen

/-- Settles O5: the next move is the frame's, which runs where it decodes and is refused where it is cut short. -/
theorem stepRunsTheDecodedFrame : Obligations.StepRunsTheDecodedFrame := by
  intro s hp hl
  have hmove := nextMove_of_noLoad hp hl
  refine ⟨fun i rest hdec => ?_, fun code ops htrace hshort => ⟨[], ?_⟩⟩
  · exact step_of_run (hmove.trans (nextFrame_of_decoded hdec))
  · have hrej : decode s.trace = .reject .truncated [] := by rw [htrace]; exact decode_truncated hshort
    exact step_of_reject (hmove.trans (nextFrame_of_rejected (by simp [htrace]) hrej))

/-! ## The shared operations and the pending cells -/

/-- A good region with equal cursors holds no cell (R29). -/
theorem RegionGood.holds_nil {s : State} (h : RegionGood s) {x : Word} (hr : loadWord s.mem offRd = some x)
    (hw : loadWord s.mem offWr = some x) : HoldsQueue s [] := by
  obtain ⟨q, hq⟩ := h.queue
  obtain ⟨r, w, c, hcur⟩ := h.cursors
  obtain ⟨-, hread⟩ := memRead_ok_iff.1 hcur.read
  obtain ⟨-, hwrite⟩ := memRead_ok_iff.1 hcur.write
  have hrw : r = w := Option.some.inj (by rw [← hread, ← hwrite, hr, hw])
  rw [← (hq.nil_iff hcur).2 hrw]
  exact hq

theorem HoldsQueue.after_setStatus {s t : State} {q : List Cell} (h : HoldsQueue s q) {st : Status}
    (ht : setStatus s st = .ok t) : HoldsQueue t q := by
  obtain ⟨-, rfl⟩ := setStatus_ok_iff.1 ht
  exact h.store_status _

/-- The body of `POP` takes what it returns off the head of the queue: the first cell, or nothing (R104, R107). -/
theorem HoldsQueue.after_pop {s t : State} {q : List Cell} (h : HoldsQueue s q) {x : Option Cell}
    (hp : popCell s = .ok (t, x)) : ∃ q', q = x.toList ++ q' ∧ HoldsQueue t q' := by
  rcases popCell_cases hp with ⟨-, rfl, rfl⟩ | ⟨_, _, -, -, -, -, ht, rfl⟩ |
    ⟨_, r, w, c, cell, -, -, hr, hw, hrw, hc, hrc, hwc, hcell, ht, rfl⟩
  · exact ⟨q, rfl, h⟩
  · exact ⟨q, rfl, h.after_setStatus ht⟩
  · obtain ⟨-, rfl⟩ := memWrite_ok_iff.1 ht
    have hcur : Cursors s r w c := by
      obtain ⟨r', w', c', hcur, -⟩ := h
      have hcap := hcur.cap
      rw [hc] at hcap
      cases hcap
      exact ⟨hr, hw, hc, hrc, hwc, hcur.capLegal⟩
    obtain ⟨y, q', rfl, hy⟩ := h.head hcur hrw
    rw [hcell] at hy
    cases hy
    exact ⟨q', rfl, h.store_read hcur hrw⟩

/-! ## The operations and the pending cells -/

/-- What an operation may do to the pending cells: leave them, take the first one (`POP` or the handler), or empty the
buffer (`RESET`, `INIT`) (R57, R101, R100). -/
def QueueStep (i : Instr) (q q' : List Cell) : Prop :=
  q' = q ∨ ((i = .pop ∨ i = .timerExpiry) ∧ ∃ x, q = x :: q') ∨ ((i = .reset ∨ ∃ c, i = .init c) ∧ q' = [])

theorem QueueStep.of_taken {i : Instr} (hi : i = .pop ∨ i = .timerExpiry) {x : Option Cell} {q q' : List Cell}
    (h : q = x.toList ++ q') : QueueStep i q q' := by
  cases x with
  | none => exact .inl h.symm
  | some c => exact .inr (.inl ⟨hi, c, h⟩)

/-- `INIT` fails or leaves both cursors zero (R100). -/
theorem execInit_queue {c : Word} {s t : State} {q : List Cell} (h : Inv s) (hp : s.push = none) (hq : HoldsQueue s q)
    (hx : execInit c s = .next t) : ∃ q', HoldsQueue t q' ∧ QueueStep (.init c) q q' := by
  have hinv := execInit_inv h hp hx
  rcases execInit_cases hx with ⟨-, rfl⟩ | ⟨-, -, rfl⟩ | ⟨-, -, -, rfl⟩
  · exact ⟨q, hq.congr rfl rfl, .inl rfl⟩
  · exact ⟨q, hq.congr rfl rfl, .inl rfl⟩
  · obtain ⟨hr, hw, -, -⟩ := initMemory_loads c s.mem
    generalize initMemory c s.mem = m at *
    exact ⟨[], (hinv.initialised rfl).holds_nil hr hw, .inr (.inr ⟨.inr ⟨c, rfl⟩, rfl⟩)⟩

/-- `RESET` is refused, fails, or leaves both cursors zero (R101). -/
theorem execReset_queue {s t : State} {q : List Cell} (h : Inv s) (hp : s.push = none) (hq : HoldsQueue s q)
    (hx : execReset s = .next t) : ∃ q', HoldsQueue t q' ∧ QueueStep .reset q q' := by
  have hinv := execReset_inv h hp hx
  rcases execReset_cases hx with ⟨-, rfl⟩ | ⟨-, -, rfl⟩ | ⟨hi, -, -, rfl⟩
  · exact ⟨q, hq.congr rfl rfl, .inl rfl⟩
  · exact ⟨q, hq.congr rfl rfl, .inl rfl⟩
  · obtain ⟨hr, hw, -, -⟩ := zeroMemory_loads s.mem
    generalize zeroMemory s.mem = m at *
    exact ⟨[], (hinv.initialised hi).holds_nil hr hw, .inr (.inr ⟨.inl rfl, rfl⟩)⟩

theorem execStart_queue {s t : State} {q : List Cell} (hq : HoldsQueue s q) (hx : execStart s = .next t) :
    HoldsQueue t q := by
  rcases execStart_cases hx with ⟨-, rfl⟩ | ⟨-, -, rfl⟩ | ⟨-, -, u, hset, rfl⟩
  · exact hq.congr rfl rfl
  · exact hq.congr rfl rfl
  · have hloaded : HoldsQueue (callbackEnable true (timerLoad s.cfg.initialTicks s)) q :=
      hq.congr (timerLoad_cfg _ s) (timerLoad_mem _ s)
    exact (hloaded.after_setStatus hset).congr rfl rfl

theorem execStop_queue {s t : State} {q : List Cell} (hq : HoldsQueue s q) (hx : execStop s = .next t) :
    HoldsQueue t q := by
  rcases execStop_cases hx with ⟨-, rfl⟩ | ⟨-, -, rfl⟩ | ⟨-, -, u, hset, rfl⟩
  · exact hq.congr rfl rfl
  · exact hq.congr rfl rfl
  · have hparked : HoldsQueue (callbackEnable false (timerPark s)) q := hq.congr rfl rfl
    exact (hparked.after_setStatus hset).congr rfl rfl

theorem execPop_queue {s t : State} {q : List Cell} (hq : HoldsQueue s q) (hx : execPop s = .next t) :
    ∃ q', HoldsQueue t q' ∧ QueueStep .pop q q' := by
  rcases execPop_cases hx with ⟨-, rfl⟩ | ⟨-, -, rfl⟩ | ⟨-, -, u, x, hpop, rfl⟩
  · exact ⟨q, hq.congr rfl rfl, .inl rfl⟩
  · exact ⟨q, hq.congr rfl rfl, .inl rfl⟩
  · obtain ⟨q', htaken, hq'⟩ := hq.after_pop hpop
    exact ⟨q', hq'.congr rfl rfl, .of_taken (.inl rfl) htaken⟩

theorem execTimerExpiry_queue {s t : State} {q : List Cell} (hq : HoldsQueue s q) (hx : execTimerExpiry s = .next t) :
    ∃ q', HoldsQueue t q' ∧ QueueStep .timerExpiry q q' := by
  have hcfg := execTimerExpiry_cfg hx
  rcases execTimerExpiry_cases hx with ⟨-, rfl⟩ | ⟨-, -, rfl⟩ | ⟨-, -, hrun⟩
  · exact ⟨q, hq.congr rfl rfl, .inl rfl⟩
  · exact ⟨q, hq, .inl rfl⟩
  · obtain ⟨u, x, hpop, hmem⟩ := runHandler_popCell_mem hrun
    have hacked : HoldsQueue (timerAck s) q := hq.congr rfl rfl
    obtain ⟨q', htaken, hq'⟩ := hacked.after_pop hpop
    exact ⟨q', hq'.congr (hcfg.trans (popCell_cfg hpop).symm) hmem, .of_taken (.inr rfl) htaken⟩

/-- Every operation acts on the pending cells as on a queue. `INIT` and `RESET` need that no `PUSH` is in progress, which
R103 gives. -/
theorem exec_queue {i : Instr} {s t : State} {q : List Cell} (h : Inv s) (hp : s.push ≠ none → agentOf i ≠ .producer)
    (hq : HoldsQueue s q) (hx : exec i s = .next t) : ∃ q', HoldsQueue t q' ∧ QueueStep i q q' := by
  have hnone (ha : agentOf i = .producer) : s.push = none := by
    by_contra hne
    exact hp hne ha
  have kept (hmem : t.mem = s.mem) : ∃ q', HoldsQueue t q' ∧ QueueStep i q q' :=
    ⟨q, hq.congr (exec_cfg hx) hmem, .inl rfl⟩
  cases i with
  | init => exact execInit_queue h (hnone rfl) hq hx
  | mapBuffer => exact kept (execMapBuffer_mem hx)
  | start => exact ⟨q, execStart_queue hq hx, .inl rfl⟩
  | stop => exact ⟨q, execStop_queue hq hx, .inl rfl⟩
  | reset => exact execReset_queue h (hnone rfl) hq hx
  | getStatus => exact kept (execGetStatus_mem hx)
  | push => exact kept (execPush_mem hx)
  | pop => exact execPop_queue hq hx
  | setStatus v => exact kept (execSetStatus_mem (v := v) hx)
  | tick => exact kept (execTick_mem hx)
  | timerExpiry => exact execTimerExpiry_queue hq hx
  | cell => exact kept (execCell_mem hx)

/-! ## The steps of a `PUSH` and the pending cells -/

/-- Before its last step a `PUSH` has stored its whole cell (R103). -/
theorem StoredPrefix.readCell_of_publish {s : State} {p : PushInProgress} (h : StoredPrefix s p)
    (hstage : p.stage = .publish) : readCell s p.w = .ok p.cell := by
  simp only [StoredPrefix, hstage] at h
  exact readCell_ok_iff.2 h

/-- Steps 2 to 4 of a `PUSH` store into a slot that is not pending (R103, R221). -/
theorem continuePush_store_queue {p : PushInProgress} {s t : State} {q : List Cell} (h : RegionGood s)
    (hp : s.push = some p) (hstage : p.stage ≠ .publish) (hq : HoldsQueue s q) (hx : continuePush p s = .next t) :
    HoldsQueue t q := by
  obtain ⟨r, hcur⟩ := h.push_cursors hp
  obtain ⟨off, v, st, hst, -, rfl⟩ := (continuePush_store_iff hstage).1 hx
  obtain ⟨h0, h1⟩ := hst.inSlot
  exact (hq.store_write_slot hcur v h0 h1).congr rfl rfl

/-- Step 5 of a `PUSH` appends its cell, or loses every pending cell when it laps (R102, R220). -/
theorem continuePush_publish_queue {p : PushInProgress} {s t : State} {q : List Cell} (h : RegionGood s)
    (hp : s.push = some p) (hstage : p.stage = .publish) (hq : HoldsQueue s q) (hx : continuePush p s = .next t) :
    HoldsQueue t (if q.length + 1 < p.c.toNat then q ++ [p.cell] else []) := by
  obtain ⟨r, hcur⟩ := h.push_cursors hp
  obtain ⟨-, -, hsofar⟩ := h.push p hp
  obtain ⟨-, rfl⟩ := (continuePush_publish_iff hstage).1 hx
  exact (hq.store_write hcur (hsofar.readCell_of_publish hstage)).congr rfl rfl

/-! ## The step -/

/-- Settles O59, by the four kinds of move: a step of the `PUSH` in progress stores or publishes, an operation acts as
`exec_queue` says, a load of the producer and a refused frame leave the region as it was. -/
theorem everyStepActsOnTheBufferAsAQueue : Obligations.EveryStepActsOnTheBufferAsAQueue := by
  intro s t q h hi hq hx
  rcases nextMove_cases s with
    ⟨p, s', hp, hmove, hinputs⟩ | ⟨i, tr, pr, lo, hmove, -, hagent⟩ | ⟨addr, lo, -, hmove⟩ | ⟨why, tr, lo, hmove⟩
  · rw [step_of_pushOn hmove] at hx
    obtain ⟨hregion, hp', hq'⟩ : RegionGood s' ∧ s'.push = some p ∧ HoldsQueue s' q := by
      rcases hinputs with rfl | rfl
      · exact ⟨h.initialised hi, hp, hq⟩
      · exact ⟨(h.initialised hi).congr rfl rfl rfl rfl, hp, hq.congr rfl rfl⟩
    by_cases hstage : p.stage = .publish
    · exact ⟨_, continuePush_publish_queue hregion hp' hstage hq' hx, .inr (.inr (.inl ⟨p, s', hp, hstage, hmove, rfl⟩))⟩
    · exact ⟨q, continuePush_store_queue hregion hp' hstage hq' hx, .inl rfl⟩
  · rw [step_of_run hmove] at hx
    obtain ⟨q', hq', hstep⟩ := exec_queue (h.inputs tr pr lo) hagent (hq.congr rfl rfl) hx
    refine ⟨q', hq', ?_⟩
    rcases hstep with rfl | ⟨rfl | rfl, x, rfl⟩ | ⟨rfl | ⟨c, rfl⟩, rfl⟩
    · exact .inl rfl
    · exact .inr (.inl ⟨x, _, rfl, .inl hmove⟩)
    · exact .inr (.inl ⟨x, _, rfl, .inr hmove⟩)
    · exact .inr (.inr (.inr ⟨rfl, _, .inl hmove⟩))
    · exact .inr (.inr (.inr ⟨rfl, _, .inr ⟨c, hmove⟩⟩))
  · rw [step_of_load hmove] at hx
    rw [producerLoad_frame (finish_next_iff.1 hx)]
    exact ⟨q, hq.congr rfl rfl, .inl rfl⟩
  · rw [step_of_reject hmove] at hx
    cases hx
    exact ⟨q, hq.congr rfl rfl, .inl rfl⟩

end Sys2Proof.Machine

/-! The encodings (R84 to R91): every well-formed operation is read back from its words, what the decoder reads is a
well-formed frame and its words are that operation's encoding, and a word 0 outside the operation map is refused; the
numbers of the status values and of the result frames. -/

namespace Sys2Proof.Machine

/-! ## From an operation to its words and back (R85 to R87, R91) -/

/-- The round trip of each operation, put together. -/
theorem roundTrip (i : Instr) : Laws.RoundTrip.Statement i := by
  cases i with
  | init capacity => exact Laws.RoundTrip.init capacity
  | mapBuffer size => exact Laws.RoundTrip.mapBuffer size
  | start => exact Laws.RoundTrip.start
  | stop => exact Laws.RoundTrip.stop
  | reset => exact Laws.RoundTrip.reset
  | getStatus => exact Laws.RoundTrip.getStatus
  | push d k m => exact Laws.RoundTrip.push d k m
  | pop => exact Laws.RoundTrip.pop
  | setStatus s => exact Laws.RoundTrip.setStatus s
  | tick => exact Laws.RoundTrip.tick
  | timerExpiry => exact Laws.RoundTrip.timerExpiry
  | cell d k m => exact Laws.RoundTrip.cell d k m

/-- A well-formed frame at the head of any stream decodes to its operation (R91). -/
theorem decode_encode {i : Instr} (hwf : i.wf = true) (hframe : i.isFrame = true) (rest : List Word) :
    decode (encode i ++ rest) = .ok i rest := by
  have h := roundTrip i hwf rest
  rw [if_pos hframe] at h
  exact h.1

/-- Settles O1: a frame is read back by the decoder, a Cell by the Cell format. -/
theorem decodeReadsEveryEncodedOperation : Obligations.DecodeReadsEveryEncodedOperation := by
  intro i rest hwf
  by_cases hframe : i.isFrame = true
  · rw [if_pos hframe]
    exact decode_encode hwf hframe rest
  · have h := roundTrip i hwf rest
    rw [if_neg hframe] at h
    rwa [if_neg hframe]

/-! ## The operation map (R86) -/

/-- The codes of the operation map R86. -/
def operationCodes : List Word :=
  [0x01#32, 0x02#32, 0x03#32, 0x04#32, 0x05#32, 0x06#32, 0x10#32, 0x11#32, 0x12#32, 0x20#32, 0x21#32]

/-- Word 0 is compared whole: any other word is refused and one word is taken (R89, log 9). -/
theorem decodeFrame_of_not_operationCode {code : Word} (h : code ∉ operationCodes) (ops : List Word) :
    decodeFrame code ops = .reject .reservedCode ops := by
  simp only [operationCodes, List.mem_cons, List.not_mem_nil, or_false, not_or] at h
  simp only [decodeFrame, h, if_false]

/-! ## From words to an operation and back (R86, R87, R90) -/

/-- The stream begins with the encoding of a well-formed operation, and `rest` follows it. -/
def BeginsWith (ws : List Word) (i : Instr) (rest : List Word) : Prop := i.wf = true ∧ ws = encode i ++ rest

theorem beginsWith_of_noOperand {code : Word} {ops rest : List Word} {i j : Instr} (h : Decoded.ok j ops = .ok i rest)
    (hwf : j.wf = true) (henc : encode j = [code]) : BeginsWith (code :: ops) i rest := by
  cases h
  exact ⟨hwf, by rw [henc]; rfl⟩

theorem beginsWith_of_oneOperand {code : Word} {ops rest : List Word} {i : Instr} {k : Word → Instr}
    (h : oneOperand k ops = .ok i rest) (hwf : ∀ a, (k a).wf = true) (henc : ∀ a, encode (k a) = [code, a]) :
    BeginsWith (code :: ops) i rest := by
  match ops, h with
  | a :: _, rfl => exact ⟨hwf a, by rw [henc]; rfl⟩

theorem beginsWith_of_threeOperands {code : Word} {ops rest : List Word} {i : Instr} {k : Word → Word → Word → Instr}
    (h : threeOperands k ops = .ok i rest) (hwf : ∀ a b c, (k a b c).wf = true)
    (henc : ∀ a b c, encode (k a b c) = [code, a, b, c]) : BeginsWith (code :: ops) i rest := by
  match ops, h with
  | a :: b :: c :: _, rfl => exact ⟨hwf a b c, by rw [henc]; rfl⟩

/-- The operand check of `SET_STATUS` is its well-formedness (R90). -/
theorem beginsWith_of_statusOperand {ops rest : List Word} {i : Instr} (h : statusOperand ops = .ok i rest) :
    BeginsWith (0x12#32 :: ops) i rest := by
  match ops, h with
  | a :: _, h =>
    rw [statusOperand] at h
    split at h
    · next hwf => cases h; exact ⟨hwf, rfl⟩
    · cases h

/-- Every row of the operation map R86 reads its own operation's words; no other code is read. -/
theorem beginsWith_of_decodeFrame {code : Word} {ops rest : List Word} {i : Instr}
    (h : decodeFrame code ops = .ok i rest) : BeginsWith (code :: ops) i rest := by
  by_cases hcode : code ∈ operationCodes
  · simp only [operationCodes, List.mem_cons, List.not_mem_nil, or_false] at hcode
    rcases hcode with rfl | rfl | rfl | rfl | rfl | rfl | rfl | rfl | rfl | rfl | rfl
    · exact beginsWith_of_oneOperand (k := .init) h (fun _ => rfl) (fun _ => rfl)
    · exact beginsWith_of_oneOperand (k := .mapBuffer) h (fun _ => rfl) (fun _ => rfl)
    · exact beginsWith_of_noOperand (j := .start) h rfl rfl
    · exact beginsWith_of_noOperand (j := .stop) h rfl rfl
    · exact beginsWith_of_noOperand (j := .reset) h rfl rfl
    · exact beginsWith_of_noOperand (j := .getStatus) h rfl rfl
    · exact beginsWith_of_threeOperands (k := .push) h (fun _ _ _ => rfl) (fun _ _ _ => rfl)
    · exact beginsWith_of_noOperand (j := .pop) h rfl rfl
    · exact beginsWith_of_statusOperand h
    · exact beginsWith_of_noOperand (j := .tick) h rfl rfl
    · exact beginsWith_of_noOperand (j := .timerExpiry) h rfl rfl
  · rw [decodeFrame_of_not_operationCode hcode] at h
    cases h

/-- Settles O2, by the row of the operation map that word 0 selects. -/
theorem decodedFramesAreTheirOwnEncodings : Obligations.DecodedFramesAreTheirOwnEncodings := by
  intro ws rest i h
  match ws, h with
  | code :: ops, h =>
    obtain ⟨hwf, hwords⟩ := beginsWith_of_decodeFrame h
    exact ⟨hwf, decode_isFrame h, hwords⟩

/-! ## Reserved codes (R89) -/

/-- The four ranges R89 reserves. -/
def ReservedCode (n : Nat) : Prop := n = 0 ∨ (0x07 ≤ n ∧ n ≤ 0x0F) ∨ (0x13 ≤ n ∧ n ≤ 0x1F) ∨ 0x22 ≤ n

theorem ReservedCode.not_mem_operationCodes {code : Word} (h : ReservedCode code.toNat) : code ∉ operationCodes := by
  have hnone : ∀ c ∈ operationCodes, ¬ ReservedCode c.toNat := by simp [operationCodes, ReservedCode]
  exact fun hmem => hnone code hmem h

@[simp] theorem refusalMark_refuse (why : RefusedBy) (s : State) : refusalMark (refuse why s) = true := by
  simp [refusalMark, refuse]

/-- Settles O3: the frame of a code outside the operation map is rejected, and the next move refuses it. -/
theorem reservedCodesAreRefused : Obligations.ReservedCodesAreRefused := by
  intro s code ops hp hl htrace hcode
  have hrej : decode s.trace = .reject .reservedCode ops := by
    rw [htrace]
    exact decodeFrame_of_not_operationCode (ReservedCode.not_mem_operationCodes hcode) ops
  have hmove := (nextMove_of_noLoad hp hl).trans (nextFrame_of_rejected (by simp [htrace]) hrej)
  exact ⟨ops, _, step_of_reject hmove, rfl, refusalMark_refuse _ _⟩

/-! ## Words and numbers of the specification (R84, R86, R88) -/

/-- Settles O4: the first four are encodings with no word after them, the last has a bit set above the code. -/
theorem specWordsDecode : Obligations.SpecWordsDecode :=
  ⟨decode_encode (i := .init 4#32) rfl rfl [], decode_encode (i := .mapBuffer 64#32) rfl rfl [],
    decode_encode (i := .push 10#32 0#32 1#32) rfl rfl [], decode_encode (i := .timerExpiry) rfl rfl [],
    decodeFrame_of_not_operationCode (by decide) []⟩

/-- Settles O9: the three numbers, read back by the decoder of the status word, which knows no other. -/
theorem statusEncodingIsZeroOneTwo : Obligations.StatusEncodingIsZeroOneTwo :=
  ⟨rfl, rfl, rfl, statusOfWord_statusWord, fun _ => statusOfWord_reserved⟩

/-- Settles O11: the equations of `resultFrame`, an error's frame being its code alone. -/
theorem resultFramesCarryTheCodes : Obligations.ResultFramesCarryTheCodes :=
  ⟨rfl, fun _ => rfl, fun _ => rfl, fun _ => rfl, rfl, rfl, rfl, rfl, rfl⟩

end Sys2Proof.Machine

/-! What one store does to the bytes and words of the region, and `INIT` and `RESET` (R100, R101, R181): the exact state
each leaves where it is legal, and which operation answers `CapacityError`. -/

namespace Sys2Proof.Machine

/-! ## Stores and bytes -/

/-- A stored byte depends on the stored word only. -/
theorem readByte_storeWord_inside (m n : Memory) (off : Nat) (v : Word) {a : Nat} (h : off ≤ a ∧ a < off + 4) :
    readByte (storeWord m off v) a = readByte (storeWord n off v) a := by
  obtain rfl | rfl | rfl | rfl : a = off ∨ a = off + 1 ∨ a = off + 2 ∨ a = off + 3 := by omega
  all_goals simp [storeWord, readByte_writeByte]

/-- A state whose region is another's after one store reads the stored word there and every other byte as before. -/
theorem memRead_sameBytes_of_store {s t : State} {off : Nat} {v : Word} (hin : off + 4 ≤ t.cfg.regionBytes)
    (hmem : t.mem = storeWord s.mem off v) : memRead t off = .ok v ∧ SameBytes s t (outsideWord off) := by
  refine ⟨memRead_ok_iff.2 ⟨hin, ?_⟩, fun a ha => ?_⟩
  · rw [hmem]; exact loadWord_storeWord_same _ _ _
  · rw [hmem]; exact readByte_storeWord_outside _ _ _ ha

/-- A word whose four bytes are kept reads as before. -/
theorem SameBytes.memRead_eq {s t : State} {keep : Nat → Prop} (h : SameBytes s t keep) (hcfg : t.cfg = s.cfg) {off : Nat}
    (hkeep : ∀ a, off ≤ a → a < off + 4 → keep a) : memRead t off = memRead s off := by
  have hload : loadWord t.mem off = loadWord s.mem off := by
    simp only [loadWord, h off (hkeep _ (by omega) (by omega)), h (off + 1) (hkeep _ (by omega) (by omega)),
      h (off + 2) (hkeep _ (by omega) (by omega)), h (off + 3) (hkeep _ (by omega) (by omega))]
  unfold memRead inRegion
  rw [hcfg, hload]

/-! ## `INIT` (R100) -/

/-- A legal `INIT` that does not meet a running engine: the control words, the two flags and the result. -/
theorem execInit_of_idle {c : Word} {s : State} (h0 : c ≠ 0#32) (hmax : c.toNat ≤ capMax s.cfg)
    (hidle : initMeetsRunning s = .ok false) :
    execInit c s = .next (reply .ok
      { s with mem := initMemory c s.mem, devInitialized := true, devMapFailed := false }) := by
  have hpos : 0 < c.toNat := by bv_omega
  have h16 : 16 ≤ s.cfg.regionBytes := by have := control_inside hpos hmax; omega
  simp only [execInit, if_neg h0, if_neg (Nat.not_lt.2 hmax), hidle, ok_bind, Bool.false_eq_true, if_false,
    initRegion_ok_iff.2 ⟨h16, rfl⟩, finish_ok]

theorem initMeetsRunning_of_notRunning {s : State}
    (h : s.devInitialized = true → ∃ st, readStatus s = .ok st ∧ st ≠ .running) : initMeetsRunning s = .ok false := by
  cases hi : s.devInitialized with
  | false => exact initMeetsRunning_ok_iff.2 (.inl ⟨hi, rfl⟩)
  | true =>
    obtain ⟨st, hst, hne⟩ := h hi
    exact initMeetsRunning_ok_iff.2 (.inr ⟨hi, st, hst, (decide_eq_false hne).symm⟩)

/-- Settles O19: the control words of `INIT`'s memory, and no byte from the first cell up is stored to. -/
theorem initFixesTheRegion : Obligations.InitFixesTheRegion := by
  intro c s h0 hmax hstatus
  have hpos : 0 < c.toNat := by bv_omega
  have hbig := control_inside hpos hmax
  obtain ⟨hr, hw, hc, hst⟩ := initMemory_loads c s.mem
  have hcells : ∀ a, 16 ≤ a → readByte (initMemory c s.mem) a = readByte s.mem a :=
    fun a => readByte_initMemory c s.mem
  have hexec := execInit_of_idle h0 hmax (initMeetsRunning_of_notRunning hstatus)
  generalize initMemory c s.mem = m at *
  refine ⟨_, hexec, memRead_ok_iff.2 ⟨?_, hr⟩, memRead_ok_iff.2 ⟨?_, hw⟩, memRead_ok_iff.2 ⟨?_, hc⟩,
    readStatus_ok_iff.2 (memRead_ok_iff.2 ⟨?_, hst⟩), hcells, rfl⟩ <;>
    simp only [reply_cfg, offRd_eq, offWr_eq, offCap_eq, offSt_eq] <;> omega

/-! ## `RESET` (R101) -/

/-- A region whose status can be read has room for the control words. -/
theorem regionBytes_of_readStatus {s : State} {st : Status} (h : readStatus s = .ok st) : 16 ≤ s.cfg.regionBytes :=
  (memRead_ok_iff.1 (readStatus_ok_iff.1 h)).1

/-- `RESET` outside RUNNING: the control words but the capacity, and the result. -/
theorem execReset_of_notRunning {s : State} {st : Status} (hi : s.devInitialized = true) (hst : readStatus s = .ok st)
    (hne : st ≠ .running) : execReset s = .next (reply .ok { s with mem := zeroMemory s.mem }) := by
  simp only [execReset, whenInitialised_of_init hi, hst, ok_bind, if_neg hne,
    zeroRegion_ok_iff.2 ⟨regionBytes_of_readStatus hst, rfl⟩, finish_ok]

/-- What `RESET` leaves reads as STOPPED. -/
theorem readStatus_zeroMemory {s : State} (h16 : 16 ≤ s.cfg.regionBytes) :
    readStatus { s with mem := zeroMemory s.mem } = .ok .stopped := by
  obtain ⟨-, -, -, hst⟩ := zeroMemory_loads s.mem
  exact readStatus_ok_iff.2 (memRead_ok_iff.2 ⟨h16, hst⟩)

/-- Settles O22: the control words of `RESET`'s memory; the capacity and the cells are not stored to. -/
theorem resetEmptiesTheBuffer : Obligations.ResetEmptiesTheBuffer := by
  intro s st hi hst hne
  have h16 := regionBytes_of_readStatus hst
  obtain ⟨hr, hw, -, -⟩ := zeroMemory_loads s.mem
  have hstopped := readStatus_zeroMemory h16
  have hkept : ∀ a, (8 ≤ a ∧ a < 12) ∨ 16 ≤ a → readByte (zeroMemory s.mem) a = readByte s.mem a :=
    fun a => readByte_zeroMemory s.mem
  have hexec := execReset_of_notRunning hi hst hne
  generalize zeroMemory s.mem = m at *
  refine ⟨_, hexec, memRead_ok_iff.2 ⟨?_, hr⟩, memRead_ok_iff.2 ⟨?_, hw⟩, hstopped, hkept, rfl⟩ <;>
    simp only [reply_cfg, offRd_eq, offWr_eq] <;> omega

/-- The bytes `RESET` stores do not depend on the region it meets. -/
theorem readByte_zeroMemory_stored (m n : Memory) {a : Nat} (h : a < 8 ∨ (12 ≤ a ∧ a < 16)) :
    readByte (zeroMemory m) a = readByte (zeroMemory n) a := by
  simp only [zeroMemory, offRd_eq, offWr_eq, offSt_eq]
  by_cases hst : 12 ≤ a
  · exact readByte_storeWord_inside _ _ _ _ (by omega)
  · rw [readByte_storeWord_outside _ _ _ (by omega), readByte_storeWord_outside _ 12 _ (by omega)]
    by_cases hwr : 4 ≤ a
    · exact readByte_storeWord_inside _ _ _ _ (by omega)
    · rw [readByte_storeWord_outside _ _ _ (by omega), readByte_storeWord_outside _ 4 _ (by omega)]
      exact readByte_storeWord_inside _ _ _ _ (by omega)

/-- Every byte reads the same after a second `RESET`. -/
theorem readByte_zeroMemory_twice (m : Memory) (a : Nat) :
    readByte (zeroMemory (zeroMemory m)) a = readByte (zeroMemory m) a := by
  by_cases h : a < 8 ∨ (12 ≤ a ∧ a < 16)
  · exact readByte_zeroMemory_stored _ _ h
  · exact readByte_zeroMemory _ (by omega)

/-- Settles O23: the first `RESET` leaves STOPPED, so the second completes, and it stores what is there. -/
theorem resetIsIdempotent : Obligations.ResetIsIdempotent := by
  intro s st hi hst hne
  have hstopped := readStatus_zeroMemory (regionBytes_of_readStatus hst)
  have hsame := readByte_zeroMemory_twice s.mem
  have hfirst := execReset_of_notRunning hi hst hne
  have hsecond := execReset_of_notRunning (s := reply .ok { s with mem := zeroMemory s.mem }) hi hstopped (by simp)
  rw [reply_mem] at hsecond
  generalize zeroMemory (zeroMemory s.mem) = m' at *
  generalize zeroMemory s.mem = m at *
  exact ⟨_, _, hfirst, hsecond, fun a _ => hsame a, rfl⟩

/-! ## Which operation returns which result (R88, R180) -/

/-- The results an operation can return (R88); a `PUSH` returns in its last step, an event and a Cell return nothing. -/
def MayReturn (i : Instr) (r : Result) : Prop :=
  match i with
  | .init _ => r = .ok ∨ r = .failed .capacity ∨ r = .failed .invalidState
  | .mapBuffer _ => (∃ b, r = .okHandle b) ∨ r = .failed .size ∨ r = .failed .mapping
  | .start => r = .ok ∨ r = .failed .invalidState
  | .stop => r = .ok ∨ r = .failed .invalidState
  | .reset => r = .ok ∨ r = .failed .invalidState
  | .getStatus => ∃ v, r = .okStatus v
  | .push _ _ _ => False
  | .pop => r = .okNone ∨ ∃ c, r = .okSome c
  | .setStatus _ => False
  | .tick => False
  | .timerExpiry => False
  | .cell _ _ _ => False

/-- The operation returned nothing, or one result it can return. -/
def ReturnsLegally (i : Instr) (s t : State) : Prop :=
  t.results = s.results ∨ ∃ r, MayReturn i r ∧ t.results = s.results ++ [r]

theorem popCell_results {s t : State} {x : Option Cell} (h : popCell s = .ok (t, x)) : t.results = s.results := by
  rw [popCell_frame h]

theorem setStatus_results {s t : State} {st : Status} (h : setStatus s st = .ok t) : t.results = s.results := by
  rw [setStatus_frame h]

theorem execInit_returns {c : Word} {s t : State} (h : execInit c s = .next t) : ReturnsLegally (.init c) s t := by
  rcases execInit_cases h with ⟨-, rfl⟩ | ⟨-, -, rfl⟩ | ⟨-, -, -, rfl⟩
  · exact .inr ⟨_, .inr (.inl rfl), rfl⟩
  · exact .inr ⟨_, .inr (.inr rfl), rfl⟩
  · exact .inr ⟨_, .inl rfl, rfl⟩

theorem attemptMapping_returns (z : Word) (s : State) : ReturnsLegally (.mapBuffer z) s (attemptMapping s) := by
  unfold attemptMapping
  split
  · exact .inr ⟨_, .inl ⟨_, rfl⟩, rfl⟩
  · exact .inr ⟨_, .inr (.inr rfl), rfl⟩

theorem execMapBuffer_returns {z : Word} {s t : State} (h : execMapBuffer z s = .next t) :
    ReturnsLegally (.mapBuffer z) s t := by
  rcases execMapBuffer_cases h with ⟨-, rfl⟩ | ⟨-, -, rfl⟩ | ⟨-, -, _, -, ⟨-, rfl⟩ | ⟨-, rfl⟩⟩
  · exact .inl rfl
  · exact .inl rfl
  · exact .inr ⟨_, .inr (.inl rfl), rfl⟩
  · exact attemptMapping_returns z s

theorem execStart_returns {s t : State} (h : execStart s = .next t) : ReturnsLegally .start s t := by
  rcases execStart_cases h with ⟨-, rfl⟩ | ⟨-, -, rfl⟩ | ⟨-, -, u, hset, rfl⟩
  · exact .inl rfl
  · exact .inr ⟨_, .inr rfl, rfl⟩
  · exact .inr ⟨_, .inl rfl, by simp [setStatus_results hset]⟩

theorem execStop_returns {s t : State} (h : execStop s = .next t) : ReturnsLegally .stop s t := by
  rcases execStop_cases h with ⟨-, rfl⟩ | ⟨-, -, rfl⟩ | ⟨-, -, u, hset, rfl⟩
  · exact .inl rfl
  · exact .inr ⟨_, .inr rfl, rfl⟩
  · exact .inr ⟨_, .inl rfl, by simp [setStatus_results hset]⟩

theorem execReset_returns {s t : State} (h : execReset s = .next t) : ReturnsLegally .reset s t := by
  rcases execReset_cases h with ⟨-, rfl⟩ | ⟨-, -, rfl⟩ | ⟨-, -, -, rfl⟩
  · exact .inl rfl
  · exact .inr ⟨_, .inr rfl, rfl⟩
  · exact .inr ⟨_, .inl rfl, rfl⟩

theorem execGetStatus_returns {s t : State} (h : execGetStatus s = .next t) : ReturnsLegally .getStatus s t := by
  rcases execGetStatus_cases h with ⟨-, rfl⟩ | ⟨-, st, -, rfl⟩
  · exact .inl rfl
  · exact .inr ⟨_, ⟨_, rfl⟩, rfl⟩

theorem execPop_returns {s t : State} (h : execPop s = .next t) : ReturnsLegally .pop s t := by
  rcases execPop_cases h with ⟨-, rfl⟩ | ⟨-, -, rfl⟩ | ⟨-, -, u, x, hpop, rfl⟩
  · exact .inl rfl
  · exact .inl rfl
  · refine .inr ⟨popResult x, ?_, by simp [popCell_results hpop]⟩
    cases x with
    | none => exact .inl rfl
    | some c => exact .inr ⟨c, rfl⟩

theorem execPush_results {d k m : Word} {s t : State} (h : execPush d k m s = .next t) : t.results = s.results := by
  rcases execPush_cases h with ⟨-, rfl⟩ | ⟨-, -, rfl⟩ | ⟨-, -, -, rfl⟩ | ⟨-, -, -, _, _, -, -, -, rfl⟩ <;> rfl

theorem execSetStatus_results {v : Word} {s t : State} (h : execSetStatus v s = .next t) : t.results = s.results := by
  rw [execSetStatus_eq] at h
  cases h
  rfl

theorem execTick_results {s t : State} (h : execTick s = .next t) : t.results = s.results := by
  rcases execTick_cases h with ⟨-, rfl⟩ | ⟨-, rfl⟩
  · rfl
  · exact timerTick_results s

theorem runHandler_results {s t : State} (h : runHandler s = .ok t) : t.results = s.results := by
  rcases runHandler_cases h with ⟨u, c, hpop, rfl⟩ | ⟨u, hpop, rfl⟩
  · simpa using popCell_results hpop
  · simpa using popCell_results hpop

theorem execTimerExpiry_results {s t : State} (h : execTimerExpiry s = .next t) : t.results = s.results := by
  rcases execTimerExpiry_cases h with ⟨-, rfl⟩ | ⟨-, -, rfl⟩ | ⟨-, -, hrun⟩
  · rfl
  · rfl
  · exact runHandler_results hrun

theorem execCell_results {d k m : Word} {s t : State} (h : execCell d k m s = .next t) : t.results = s.results := by
  rw [execCell_eq] at h
  cases h
  exact runCell_results _ s

/-- Every operation returns at most one result, one of its own (R88). -/
theorem exec_returns {i : Instr} {s t : State} (h : exec i s = .next t) : ReturnsLegally i s t := by
  cases i with
  | init => exact execInit_returns h
  | mapBuffer => exact execMapBuffer_returns h
  | start => exact execStart_returns h
  | stop => exact execStop_returns h
  | reset => exact execReset_returns h
  | getStatus => exact execGetStatus_returns h
  | push => exact .inl (execPush_results h)
  | pop => exact execPop_returns h
  | setStatus v => exact .inl (execSetStatus_results (v := v) h)
  | tick => exact .inl (execTick_results h)
  | timerExpiry => exact .inl (execTimerExpiry_results h)
  | cell => exact .inl (execCell_results h)

/-- A result that was returned is one the operation can return. -/
theorem mayReturn_of_results {i : Instr} {s t : State} {r : Result} (h : exec i s = .next t)
    (hr : t.results = s.results ++ [r]) : MayReturn i r := by
  rcases exec_returns h with hnone | ⟨r', hmay, hr'⟩
  · rw [hr] at hnone
    exact absurd hnone (by simp)
  · rw [hr] at hr'
    obtain rfl : r = r' := by simpa using hr'
    exact hmay

/-! ## `CapacityError` (R181) -/

theorem execInit_of_illegal {c : Word} {s : State} (h : c = 0#32 ∨ capMax s.cfg < c.toNat) :
    execInit c s = .next (fail .capacity s) := by
  by_cases h0 : c = 0#32
  · simp only [execInit, if_pos h0, finish_ok]
  · simp only [execInit, if_neg h0, if_pos (h.resolve_left h0), finish_ok]

theorem mayReturn_capacity {i : Instr} (h : MayReturn i (.failed .capacity)) : ∃ c, i = .init c := by
  cases i with
  | init c => exact ⟨c, rfl⟩
  | _ => simp [MayReturn] at h

/-- Only the first branch of `INIT` returns `CapacityError`. -/
theorem illegal_of_capacityError {c : Word} {s t : State} (h : execInit c s = .next t)
    (hr : t.results = s.results ++ [.failed .capacity]) : c = 0#32 ∨ capMax s.cfg < c.toNat := by
  rcases execInit_cases h with ⟨hillegal, -⟩ | ⟨-, -, rfl⟩ | ⟨-, -, -, rfl⟩
  · exact hillegal
  · simp at hr
  · simp at hr

/-- Settles O20: the capacity is checked first, only `INIT` can return this error, and only from that check. -/
theorem capacityErrorOnlyFromIllegalInit : Obligations.CapacityErrorOnlyFromIllegalInit := by
  refine ⟨fun c s => execInit_of_illegal, fun i s t h hr => ?_⟩
  obtain ⟨c, rfl⟩ := mayReturn_capacity (mayReturn_of_results h hr)
  exact ⟨c, rfl, illegal_of_capacityError h hr⟩

end Sys2Proof.Machine

/-! `PUSH` (R102, R103): who moves while one is in progress, what each of its five steps does, and what the steps do to the
pending cells (R220, R221). -/

namespace Sys2Proof.Machine

/-! ## Who moves during a `PUSH` (R103) -/

theorem nextMove_of_push {s : State} {p : PushInProgress} (hp : s.push = some p) :
    nextMove s = nextDuringPush p s := by
  simp only [nextMove, hp]

theorem nextDuringPush_of_waiting {s : State} {p : PushInProgress}
    (h : ∀ i rest, decode s.trace = .ok i rest → agentOf i = .producer) : nextDuringPush p s = .pushOn p s := by
  unfold nextDuringPush
  split
  · next i rest hdec => rw [if_pos (h i rest hdec)]
  · rfl

/-- Settles O6: neither a frame of P nor a rejected one is a move while the `PUSH` is in progress. -/
theorem producerFramesWaitForThePush : Obligations.ProducerFramesWaitForThePush :=
  fun _ _ hp h => step_of_pushOn ((nextMove_of_push hp).trans (nextDuringPush_of_waiting h))

/-- For a frame of C or T the head of `preempt` decides: `true` lets it fall here (log 10). -/
theorem nextDuringPush_of_preempting {s : State} {p : PushInProgress} {i : Instr} {rest : List Word} {more : List Bool}
    (hdec : decode s.trace = .ok i rest) (hi : agentOf i ≠ .producer) (hpre : s.preempt = true :: more) :
    nextDuringPush p s = .run i { s with trace := rest, preempt := more } := by
  simp only [nextDuringPush, hdec, if_neg hi, hpre]

theorem nextDuringPush_of_deferring {s : State} {p : PushInProgress} {i : Instr} {rest : List Word}
    (hdec : decode s.trace = .ok i rest) (hi : agentOf i ≠ .producer) (hpre : s.preempt.head? ≠ some true) :
    nextDuringPush p s = .pushOn p { s with preempt := s.preempt.tail } := by
  simp only [nextDuringPush, hdec, if_neg hi]
  split
  · next more heq => exact absurd (by rw [heq]; rfl) hpre
  · rfl

/-- Settles O7, by the head of `preempt`. -/
theorem eventsMayFallInsideAPush : Obligations.EventsMayFallInsideAPush :=
  fun _ _ _ _ hp hdec hi =>
    ⟨fun _ hpre => step_of_run ((nextMove_of_push hp).trans (nextDuringPush_of_preempting hdec hi hpre)),
      fun hpre => step_of_pushOn ((nextMove_of_push hp).trans (nextDuringPush_of_deferring hdec hi hpre))⟩

/-! ## The five steps -/

/-- Settles O25: an admitted `PUSH` is its step 1. -/
theorem pushLoadsCursorAndCapacity : Obligations.PushLoadsCursorAndCapacity := by
  intro d k m w c s hi hm hf hw hc hlt
  exact (execPush_of_mapped hi hf hm d k m).trans (finish_next_iff.2 (beginPush_ok_iff.2 ⟨w, c, hw, hc, hlt, rfl⟩))

theorem StoresWord.stage_ne_publish {p : PushInProgress} {off : Nat} {v : Word} {st : PushStage}
    (h : StoresWord p off v st) : p.stage ≠ .publish := by
  rcases h with ⟨hs, -⟩ | ⟨hs, -⟩ | ⟨hs, -⟩ <;> simp [hs]

/-- The slot of a `PUSH` and the control words lie inside the region (R24, R113). -/
structure PushInside (cfg : Config) (w : Word) : Prop where
  slot : offCell w.toNat + 12 ≤ cfg.regionBytes
  control : 16 ≤ cfg.regionBytes

theorem PushInside.of_below {cfg : Config} {w c : Word} (hlt : w < c) (hmax : c.toNat ≤ capMax cfg) :
    PushInside cfg w := by
  have hw : w.toNat < c.toNat := hlt
  have hslot := slot_inside hw hmax
  exact ⟨hslot, by simp only [offCell, wordBytes] at hslot; omega⟩

/-- Steps 2 to 4 complete. -/
theorem continuePush_stores {p : PushInProgress} {s : State} {off : Nat} {v : Word} {st : PushStage}
    (hin : PushInside s.cfg p.w) (h : StoresWord p off v st) :
    continuePush p s = .next { s with mem := storeWord s.mem off v, push := some { p with stage := st } } := by
  obtain ⟨-, hend⟩ := h.inSlot
  exact (continuePush_store_iff h.stage_ne_publish).2 ⟨off, v, st, h, hend.trans hin.slot, rfl⟩

/-- Step 5 completes. -/
theorem continuePush_publishes {p : PushInProgress} {s : State} (hin : PushInside s.cfg p.w) (h : p.stage = .publish) :
    continuePush p s =
      .next (reply .ok { s with mem := storeWord s.mem offWr (nextIndex p.w p.c), push := none }) :=
  (continuePush_publish_iff h).2 ⟨by have := hin.control; rw [offWr_eq]; omega, rfl⟩

/-- Settles O26, by the stage of the `PUSH`. -/
theorem pushStepStoresOneWord : Obligations.PushStepStoresOneWord := by
  intro p s hlt hmax
  have hin := PushInside.of_below hlt hmax
  have store {off : Nat} {v : Word} {st : PushStage} (h : StoresWord p off v st) :
      ∃ t, continuePush p s = .next t ∧ memRead t off = .ok v ∧ SameBytes s t (outsideWord off) ∧
        t = { s with mem := t.mem, push := some { p with stage := st } } := by
    obtain ⟨-, hend⟩ := h.inSlot
    obtain ⟨hread, hkept⟩ := memRead_sameBytes_of_store (s := s)
      (t := { s with mem := storeWord s.mem off v, push := some { p with stage := st } }) (hend.trans hin.slot) rfl
    exact ⟨_, continuePush_stores hin h, hread, hkept, rfl⟩
  cases hstage : p.stage with
  | storeDelay => exact store (.inl ⟨hstage, rfl, rfl, rfl⟩)
  | storeClear => exact store (.inr (.inl ⟨hstage, rfl, rfl, rfl⟩))
  | storeSet => exact store (.inr (.inr ⟨hstage, rfl, rfl, rfl⟩))
  | publish =>
    have hend : offWr + 4 ≤ s.cfg.regionBytes := by have := hin.control; rw [offWr_eq]; omega
    obtain ⟨hread, hkept⟩ := memRead_sameBytes_of_store (s := s)
      (t := reply .ok { s with mem := storeWord s.mem offWr (nextIndex p.w p.c), push := none }) hend rfl
    exact ⟨_, continuePush_publishes hin hstage, hread, hkept, rfl⟩

/-! ## A whole `PUSH` (R102, R103) -/

/-- The region after the three stores of the cell. -/
def cellMemory (w : Word) (cell : Cell) (m : Memory) : Memory :=
  storeWord (storeWord (storeWord m (offDelay w.toNat) cell.delay) (offClear w.toNat) cell.clearMask)
    (offSet w.toNat) cell.setMask

/-- The region after the four stores of a `PUSH`. -/
def pushMemory (w c : Word) (cell : Cell) (m : Memory) : Memory :=
  storeWord (cellMemory w cell m) offWr (nextIndex w c)

theorem loadWord_cellMemory (w : Word) (cell : Cell) (m : Memory) :
    loadWord (cellMemory w cell m) (offDelay w.toNat) = some cell.delay ∧
      loadWord (cellMemory w cell m) (offClear w.toNat) = some cell.clearMask ∧
      loadWord (cellMemory w cell m) (offSet w.toNat) = some cell.setMask := by
  simp only [cellMemory, offDelay_eq, offClear_eq, offSet_eq]
  refine ⟨?_, ?_, loadWord_storeWord_same _ _ _⟩
  · rw [loadWord_storeWord_disjoint _ _ _ (by omega), loadWord_storeWord_disjoint _ _ _ (by omega),
      loadWord_storeWord_same]
  · rw [loadWord_storeWord_disjoint _ _ _ (by omega), loadWord_storeWord_same]

theorem readByte_cellMemory (w : Word) (cell : Cell) (m : Memory) {a : Nat}
    (h : a < offCell w.toNat ∨ offCell w.toNat + 12 ≤ a) : readByte (cellMemory w cell m) a = readByte m a := by
  simp only [offCell, wordBytes] at h
  simp only [cellMemory, offDelay_eq, offClear_eq, offSet_eq]
  repeat rw [readByte_storeWord_outside _ _ _ (by omega)]

theorem readByte_pushMemory (w c : Word) (cell : Cell) (m : Memory) {a : Nat}
    (h : outsideWord offWr a ∧ (a < offCell w.toNat ∨ offCell w.toNat + 12 ≤ a)) :
    readByte (pushMemory w c cell m) a = readByte m a :=
  (readByte_storeWord_outside _ _ _ h.1).trans (readByte_cellMemory w cell m h.2)

/-- The slot after a `PUSH` holds its cell: the store of `write_index` leaves every slot. -/
theorem readCell_pushMemory {s : State} {w : Word} (hin : PushInside s.cfg w) (c : Word) (cell : Cell) :
    readCell { s with mem := pushMemory w c cell s.mem } w = .ok cell := by
  obtain ⟨hd, hk, hm⟩ := loadWord_cellMemory w cell s.mem
  have hslot := hin.slot
  have hcell : readCell { s with mem := cellMemory w cell s.mem } w = .ok cell := by
    refine readCell_ok_iff.2 ⟨memRead_ok_iff.2 ⟨?_, hd⟩, memRead_ok_iff.2 ⟨?_, hk⟩, memRead_ok_iff.2 ⟨?_, hm⟩⟩ <;>
      simp only [offCell, offDelay, offClear, offSet, wordBytes] at * <;> omega
  exact (readCell_store_control { s with mem := cellMemory w cell s.mem } _ (by decide) w).trans hcell

/-- A run begins with its first step. -/
theorem run_succ_of_next {M : Host.Core} {s t : M.State} (h : M.step s = .next t) (n : Nat) :
    M.run (n + 1) s = M.run n t := by
  simp only [Host.Core.run, h]

theorem run_succ_of_step {s t : State} (h : step s = .next t) (n : Nat) :
    Host.Core.run Sys2Proof.core (n + 1) s = Host.Core.run Sys2Proof.core n t :=
  run_succ_of_next (M := Sys2Proof.core) h n

/-- With an empty stream a `PUSH` in progress goes on (R103, log 10). -/
theorem step_of_emptyStream {s : State} {p : PushInProgress} (hp : s.push = some p) (htrace : s.trace = []) :
    step s = continuePush p s :=
  producerFramesWaitForThePush s p hp fun i rest hdec => by rw [htrace] at hdec; cases hdec

/-- With an empty stream the next step of the machine is one of the steps 2 to 4 of the `PUSH` in progress. -/
theorem step_pushStores {s : State} {p : PushInProgress} {off : Nat} {v : Word} {st : PushStage}
    (htrace : s.trace = []) (hin : PushInside s.cfg p.w) (h : StoresWord p off v st) (hp : s.push = some p) :
    step s = .next { s with mem := storeWord s.mem off v, push := some { p with stage := st } } :=
  (step_of_emptyStream hp htrace).trans (continuePush_stores hin h)

/-- Steps 2 to 5 one after the other. -/
theorem run_pushSteps {s : State} {w c : Word} {cell : Cell} (hin : PushInside s.cfg w) (htrace : s.trace = [])
    (hp : s.push = some ⟨.storeDelay, w, c, cell⟩) :
    Host.Core.run Sys2Proof.core 4 s =
      .next (reply .ok { s with mem := pushMemory w c cell s.mem, push := none }) := by
  have hdelay := step_pushStores htrace hin (.inl ⟨rfl, rfl, rfl, rfl⟩) hp
  refine (run_succ_of_step hdelay 3).trans ?_
  have hclear := step_pushStores (s := { s with
      mem := storeWord s.mem (offDelay w.toNat) cell.delay, push := some ⟨.storeClear, w, c, cell⟩ })
    htrace hin (.inr (.inl ⟨rfl, rfl, rfl, rfl⟩)) rfl
  refine (run_succ_of_step hclear 2).trans ?_
  have hset := step_pushStores (s := { s with
      mem := storeWord (storeWord s.mem (offDelay w.toNat) cell.delay) (offClear w.toNat) cell.clearMask,
      push := some ⟨.storeSet, w, c, cell⟩ })
    htrace hin (.inr (.inr ⟨rfl, rfl, rfl, rfl⟩)) rfl
  refine (run_succ_of_step hset 1).trans ?_
  have hpublish := (step_of_emptyStream (s := { s with
      mem := cellMemory w cell s.mem, push := some ⟨.publish, w, c, cell⟩ }) rfl htrace).trans
    (continuePush_publishes hin rfl)
  exact run_succ_of_step hpublish 0

/-- Settles O27: step 1 takes the frame and loads, steps 2 to 5 leave `pushMemory`. -/
theorem pushTakesFiveSteps : Obligations.PushTakesFiveSteps := by
  intro d k m w c s hp hl htrace hi hm hf hw hc hlt hmax
  have hin : PushInside s.cfg w := .of_below hlt hmax
  have hdec : decode s.trace = .ok (.push d k m) [] := by rw [htrace]; rfl
  have hfirst : step s = .next { s with
      trace := [], loads := s.loads.tail, push := some ⟨.storeDelay, w, c, ⟨d, k, m⟩⟩ } :=
    ((stepRunsTheDecodedFrame s hp hl).1 _ _ hdec).trans
      (pushLoadsCursorAndCapacity d k m w c _ hi hm hf hw hc hlt)
  have hcell := readCell_pushMemory hin c ⟨d, k, m⟩
  have hnext : loadWord (pushMemory w c ⟨d, k, m⟩ s.mem) offWr = some (nextIndex w c) := loadWord_storeWord_same _ _ _
  have hkept := fun a => readByte_pushMemory w c ⟨d, k, m⟩ s.mem (a := a)
  have hrun := (run_succ_of_step hfirst 4).trans (run_pushSteps hin rfl rfl)
  simp only at hrun
  generalize pushMemory w c ⟨d, k, m⟩ s.mem = mem at *
  refine ⟨_, hrun, hcell, memRead_ok_iff.2 ⟨?_, hnext⟩, hkept, ?_⟩
  · have := hin.control
    simp only [reply_cfg, offWr_eq]
    omega
  · rw [hp]; rfl

/-! ## The pending cells during a `PUSH` (R220, R221) -/

/-- The region of a device with a `PUSH` in progress is good. -/
theorem Inv.regionGood_of_push {s : State} (h : Inv s) {p : PushInProgress} (hp : s.push = some p) : RegionGood s :=
  h.initialised (h.initialised_of_push hp)

/-- Settles O57: the slot being stored is not pending. -/
theorem unpublishedPushLeavesThePendingCells : Obligations.UnpublishedPushLeavesThePendingCells :=
  fun _ _ _ _ h hp hstage hq hx => continuePush_store_queue (h.regionGood_of_push hp) hp hstage hq hx

/-- Settles O58: the two branches of the queue the publishing store leaves. -/
theorem publishAppendsOrLaps : Obligations.PublishAppendsOrLaps := by
  intro s t p q h hp hstage hq hx
  have hqueue := continuePush_publish_queue (h.regionGood_of_push hp) hp hstage hq hx
  refine ⟨fun hroom => ?_, fun hfull => ?_⟩
  · rwa [if_pos hroom] at hqueue
  · rwa [if_neg (by omega)] at hqueue

end Sys2Proof.Machine

/-! `POP`, `SET_STATUS` and `GET_STATUS` (R104, R105, R109, R110), and what ERROR_UNDERRUN holds fast (R112). -/

namespace Sys2Proof.Machine

/-! ## `POP` (R104, R105) -/

/-- A direct `POP` outside RUNNING returns what its body takes. -/
theorem execPop_of_popCell {s u : State} {st : Status} {x : Option Cell} (hi : s.devInitialized = true)
    (hst : readStatus s = .ok st) (hne : st ≠ .running) (h : popCell s = .ok (u, x)) :
    execPop s = .next (reply (popResult x) u) := by
  simp only [execPop, whenInitialised_of_init hi, hst, ok_bind, if_neg hne, h, finish_ok]

/-- Settles O29: the cursors differ, so the body takes the cell in slot `read_index`, the head of the queue. -/
theorem popReturnsTheHeadCell : Obligations.PopReturnsTheHeadCell := by
  intro s x q hi hst hq
  obtain ⟨r, w, c, hcur, -⟩ := id hq
  have hrw : r ≠ w := fun heq => by simpa using (hq.nil_iff hcur).2 heq
  obtain ⟨_, _, heq, hx⟩ := hq.head hcur hrw
  cases heq
  have hin : offRd + 4 ≤ s.cfg.regionBytes := (memRead_ok_iff.1 hcur.read).1
  have hstore := memWrite_inside (nextIndex r c) hin
  have hpop := popCell_some hst (by simp) hcur.read hcur.write hrw hcur.cap hcur.readBelow hcur.writeBelow hx hstore
  have hkept := memWrite_sameBytes hstore
  exact ⟨_, r, c, hcur.read, hcur.cap, execPop_of_popCell hi hst (by simp) hpop, memRead_store_same _ hin,
    (hq.store_read hcur hrw).congr rfl rfl, hkept, rfl⟩

/-- The status store where the status word lies inside the region (R109). -/
theorem setStatus_stores {s : State} (st : Status) (hin : offSt + 4 ≤ s.cfg.regionBytes) :
    ∃ t, setStatus s st = .ok t ∧ readStatus t = .ok st ∧ SameBytes s t (outsideWord offSt) ∧
      t = { s with mem := t.mem } := by
  have hset := (setStatus_ok_iff (st := st)).2 ⟨hin, rfl⟩
  exact ⟨_, hset, readStatus_ok_iff.2 (memRead_store_same _ hin), setStatus_sameBytes hset, rfl⟩

/-- Settles O30: the body stores the status and takes nothing. -/
theorem popOnEmptyBufferUnderruns : Obligations.PopOnEmptyBufferUnderruns := by
  intro s r hi hst hr hw
  have hin := (memRead_ok_iff.1 (readStatus_ok_iff.1 hst)).1
  obtain ⟨u, hset, hu, hkept, hframe⟩ := setStatus_stores .errorUnderrun hin
  have hpop := popCell_empty hst (by simp) hr hw hset
  refine ⟨_, execPop_of_popCell hi hst (by simp) hpop, hu, hkept, ?_⟩
  rw [hframe]
  rfl

/-- Settles O31. -/
theorem popIsTerminalAfterUnderrun : Obligations.PopIsTerminalAfterUnderrun :=
  fun _ hi hst => execPop_of_popCell hi hst (by simp) (popCell_terminal hst)

/-- Settles O32: the status is tested before the body. -/
theorem popWhileRunningIsRefused : Obligations.PopWhileRunningIsRefused := by
  intro s hi hst
  show execPop s = .next (refuse .popWhileRunning s)
  simp only [execPop, whenInitialised_of_init hi, hst, ok_bind, if_true, finish_ok]

/-! ## `SET_STATUS` and `GET_STATUS` (R109, R110, R90) -/

theorem decode_setStatus_legal {v : Word} (h : v.toNat ≤ 2) (ops : List Word) :
    decode (0x12#32 :: v :: ops) = .ok (.setStatus v) ops :=
  decode_encode (i := .setStatus v) (decide_eq_true h) rfl ops

theorem decode_setStatus_reserved {v : Word} (h : 2 < v.toNat) (ops : List Word) :
    decode (0x12#32 :: v :: ops) = .reject .reservedStatus ops := by
  have hwf : ¬ (Instr.setStatus v).wf = true := by simp only [Instr.wf, decide_eq_true_eq]; omega
  show statusOperand (v :: ops) = _
  rw [statusOperand, if_neg hwf]

/-- Settles O33: a legal operand reaches the refusal of `exec`, a reserved one the refusal of the decoder. -/
theorem standAloneSetStatusIsRefused : Obligations.StandAloneSetStatusIsRefused := by
  refine ⟨fun v ops s hp hl htrace => ?_, fun v s => execSetStatus_eq v s, fun st s => setStatus_stores st⟩
  by_cases hreserved : 2 < v.toNat
  · have hrej : decode s.trace = .reject .reservedStatus ops := by
      rw [htrace]; exact decode_setStatus_reserved hreserved ops
    have hmove := (nextMove_of_noLoad hp hl).trans (nextFrame_of_rejected (by simp [htrace]) hrej)
    rw [if_pos hreserved]
    exact step_of_reject hmove
  · have hdec : decode s.trace = .ok (.setStatus v) ops := by
      rw [htrace]; exact decode_setStatus_legal (Nat.not_lt.1 hreserved) ops
    rw [if_neg hreserved]
    exact ((stepRunsTheDecodedFrame s hp hl).1 _ _ hdec).trans (execSetStatus_eq v _)

/-- Settles O34. -/
theorem getStatusReturnsTheStatusWord : Obligations.GetStatusReturnsTheStatusWord := by
  intro s st hi hst
  show execGetStatus s = .next (reply (.okStatus (statusWord st)) s)
  simp only [execGetStatus, whenInitialised_of_init hi, readStatus_ok_iff.2 hst, ok_bind, finish_ok]

/-! ## ERROR_UNDERRUN (R112) -/

/-- A status reads as one value. -/
theorem readStatus_unique {s : State} {a b : Status} (ha : readStatus s = .ok a) (hb : readStatus s = .ok b) : a = b := by
  rw [ha] at hb
  cases hb
  rfl

theorem execStart_mem_of_underrun {s t : State} (hs : readStatus s = .ok .errorUnderrun) (h : execStart s = .next t) :
    t.mem = s.mem := by
  rcases execStart_cases h with ⟨-, rfl⟩ | ⟨-, -, rfl⟩ | ⟨-, hst, -⟩
  · rfl
  · rfl
  · cases readStatus_unique hs hst

theorem execStop_mem_of_underrun {s t : State} (hs : readStatus s = .ok .errorUnderrun) (h : execStop s = .next t) :
    t.mem = s.mem := by
  rcases execStop_cases h with ⟨-, rfl⟩ | ⟨-, -, rfl⟩ | ⟨-, hst, -⟩
  · rfl
  · rfl
  · cases readStatus_unique hs hst

theorem execPop_mem_of_underrun {s t : State} (hs : readStatus s = .ok .errorUnderrun) (h : execPop s = .next t) :
    t.mem = s.mem := by
  rcases execPop_cases h with ⟨-, rfl⟩ | ⟨-, -, rfl⟩ | ⟨-, -, u, x, hpop, rfl⟩
  · rfl
  · rfl
  · rw [popCell_terminal hs] at hpop
    cases hpop
    rfl

/-- The handler is enabled in RUNNING only (R135). -/
theorem readStatus_of_handlerEnabled {s : State} (h : handlerEnabled s = .ok true) : readStatus s = .ok .running := by
  rcases handlerEnabled_ok_iff.1 h with ⟨-, hfalse⟩ | ⟨-, st, hst, hrun⟩
  · cases hfalse
  · rw [hst, of_decide_eq_true hrun.symm]

theorem execTimerExpiry_mem_of_underrun {s t : State} (hs : readStatus s = .ok .errorUnderrun)
    (h : execTimerExpiry s = .next t) : t.mem = s.mem := by
  rcases execTimerExpiry_cases h with ⟨-, rfl⟩ | ⟨-, -, rfl⟩ | ⟨-, henabled, -⟩
  · rfl
  · rfl
  · cases readStatus_unique hs (readStatus_of_handlerEnabled henabled)

/-- In ERROR_UNDERRUN no operation but `RESET` and `INIT` stores anything. -/
theorem exec_mem_of_underrun {i : Instr} {s t : State} (hs : readStatus s = .ok .errorUnderrun) (h : exec i s = .next t)
    (hreset : i ≠ .reset) (hinit : ∀ c, i ≠ .init c) : t.mem = s.mem := by
  cases i with
  | init c => exact absurd rfl (hinit c)
  | reset => exact absurd rfl hreset
  | mapBuffer => exact execMapBuffer_mem h
  | start => exact execStart_mem_of_underrun hs h
  | stop => exact execStop_mem_of_underrun hs h
  | getStatus => exact execGetStatus_mem h
  | push => exact execPush_mem h
  | pop => exact execPop_mem_of_underrun hs h
  | setStatus v => exact execSetStatus_mem (v := v) h
  | tick => exact execTick_mem h
  | timerExpiry => exact execTimerExpiry_mem_of_underrun hs h
  | cell => exact execCell_mem h

/-- No step of a `PUSH` changes `read_index` or the status (R103). -/
theorem continuePush_keeps_control {p : PushInProgress} {s t : State} (h : continuePush p s = .next t) :
    memRead t offRd = memRead s offRd ∧ memRead t offSt = memRead s offSt := by
  have hkept := continuePush_sameBytes h
  have hcfg := continuePush_cfg h
  exact ⟨hkept.memRead_eq hcfg fun a _ ha => .inl (by rw [offRd_eq] at ha; omega),
    hkept.memRead_eq hcfg fun a hle ha => .inr (by rw [offSt_eq] at hle ha; omega)⟩

/-- Settles O47: the other operations leave the whole region, a step of a `PUSH` leaves these two words. -/
theorem underrunIsTerminalUntilResetOrInit : Obligations.UnderrunIsTerminalUntilResetOrInit := by
  refine ⟨fun i s t hs h hreset hinit => ?_, fun p s t hs h => ?_⟩
  · have hmem := exec_mem_of_underrun hs h hreset hinit
    exact ⟨(readStatus_congr (exec_cfg h) hmem).trans hs, memRead_congr (exec_cfg h) hmem offRd⟩
  · obtain ⟨hrd, hst⟩ := continuePush_keeps_control h
    exact ⟨readStatus_ok_iff.2 (hst.trans (readStatus_ok_iff.1 hs)), hrd⟩

end Sys2Proof.Machine

/-! The Consumer Engine (R131 to R142): the Cell and the tick as whole next states, `START`, `STOP`, the handler on a
pending cell and on an empty buffer, the ticks between two expiries, and the transition table of the status (R130). -/

namespace Sys2Proof.Machine

/-! ## The Cell and the tick (R131, R133, R134) -/

/-- A load as one state, in both branches of R33. -/
theorem timerLoad_eq (v : Reg) (s : State) :
    timerLoad v s = { s with
      tmrCount := v, tmrArmed := decide (v ≠ 0#32), tmrExpiryPending := decide (v = 0#32) || s.tmrExpiryPending } := by
  by_cases h : v = 0#32
  · subst h; rfl
  · rw [timerLoad_of_ne_zero h]; simp [h]

/-- At `W = 32` a Cell is executed with its own words (R83). -/
theorem runCell_eq (c : Cell) (s : State) :
    runCell c s = outSet c.setMask (outClear c.clearMask (timerLoad c.delay s)) := by
  simp only [runCell, regOfField_eq]

/-- Settles O17: the three register writes in their order, then the three cases of a line. -/
theorem cellSetsTimerAndLines : Obligations.CellSetsTimerAndLines := by
  intro d k m s
  have hexec : exec (.cell d k m) s = .next (outSet m (outClear k (timerLoad d s))) :=
    (execCell_eq d k m s).trans (congrArg _ (runCell_eq ⟨d, k, m⟩ s))
  have hclear : (outClear k (timerLoad d s)).outLevel = s.outLevel &&& ~~~k := by
    rw [outClear_outLevel, timerLoad_outLevel]
  have hlevel : (outSet m (outClear k (timerLoad d s))).outLevel = (s.outLevel &&& ~~~k) ||| m := by
    rw [outSet_outLevel, hclear]
  refine ⟨_, hexec, ?_, rfl, hclear, fun i hi => ?_⟩
  · rw [← hlevel]; rfl
  · rw [hlevel, BitVec.getLsbD_or, BitVec.getLsbD_and, BitVec.getLsbD_not, decide_eq_true hi, Bool.true_and]
    refine ⟨fun hm => ?_, fun hm hk => ?_, fun hm hk => ?_⟩
    · rw [hm, Bool.or_true]
    · rw [hm, hk, Bool.not_true, Bool.and_false, Bool.or_false]
    · rw [hm, hk, Bool.not_false, Bool.and_true, Bool.or_false]

/-- One tick changes the three registers of the timer only (R34). -/
theorem timerTick_frame (s : State) : timerTick s = { s with
    tmrCount := (timerTick s).tmrCount, tmrArmed := (timerTick s).tmrArmed,
    tmrExpiryPending := (timerTick s).tmrExpiryPending } := by
  cases ha : s.tmrArmed
  · rw [timerTick_of_idle ha]
  · by_cases hc : s.tmrCount - 1#32 = 0#32
    · rw [timerTick_of_expiring ha hc]
    · rw [timerTick_of_counting ha hc]

/-- Settles O18: a count of 1 is the one that the tick takes to 0. -/
theorem tickCountsDownByOne : Obligations.TickCountsDownByOne := by
  intro s hi
  refine ⟨_, execTick_eq hi, timerTick_frame s, timerTick_of_idle, fun ha => ?_, fun ha hc => ?_, fun ha hc => ?_⟩
  · rw [timerTick_tmrCount, if_pos ha]
  · have hzero : s.tmrCount - 1#32 = 0#32 := by bv_omega
    rw [timerTick_of_expiring ha hzero]
    exact ⟨rfl, rfl⟩
  · have hleft : s.tmrCount - 1#32 ≠ 0#32 := by bv_omega
    rw [timerTick_of_counting ha hleft]
    exact ⟨ha, rfl⟩

/-! ## When the handler is enabled (R135) -/

theorem handlerEnabled_of_notPending {s : State} (h : s.tmrExpiryPending = false) : handlerEnabled s = .ok false :=
  handlerEnabled_ok_iff.2 (.inl ⟨by rw [h, Bool.false_and], rfl⟩)

theorem handlerEnabled_of_running {s : State} (hp : s.tmrExpiryPending = true) (hcb : s.cbEnable = true)
    (hst : readStatus s = .ok .running) : handlerEnabled s = .ok true :=
  handlerEnabled_ok_iff.2 (.inr ⟨by rw [hp, hcb, Bool.and_self], .running, hst, rfl⟩)

/-- Outside RUNNING one of the conditions of R135 fails, whatever the timer and the callback. -/
theorem handlerEnabled_of_notRunning {s : State} {st : Status} (hst : readStatus s = .ok st) (hne : st ≠ .running) :
    handlerEnabled s = .ok false := by
  refine handlerEnabled_ok_iff.2 ?_
  cases hdue : s.tmrExpiryPending && s.cbEnable
  · exact .inl ⟨rfl, rfl⟩
  · exact .inr ⟨rfl, st, hst, (decide_eq_false hne).symm⟩

theorem execTimerExpiry_of_disabled {s : State} (hi : s.devInitialized = true) (h : handlerEnabled s = .ok false) :
    execTimerExpiry s = .next s := by
  simp only [execTimerExpiry, whenInitialised_of_init hi, h, ok_bind, Bool.false_eq_true, if_false, finish_ok]

theorem execTimerExpiry_of_enabled {s t : State} (hi : s.devInitialized = true) (h : handlerEnabled s = .ok true)
    (hrun : runHandler s = .ok t) : execTimerExpiry s = .next t := by
  simp only [execTimerExpiry, whenInitialised_of_init hi, h, ok_bind, if_true, hrun, finish_ok]

/-- Settles O43: each of the three conditions alone disables the handler. -/
theorem handlerTakesNoStepUnlessEnabled : Obligations.HandlerTakesNoStepUnlessEnabled :=
  fun _ hi => ⟨fun hp => execTimerExpiry_of_disabled hi (handlerEnabled_of_notPending hp),
    fun hcb => execTimerExpiry_of_disabled hi (handlerEnabled_of_callbackOff hcb),
    fun _ hst hne => execTimerExpiry_of_disabled hi (handlerEnabled_of_notRunning hst hne)⟩

/-! ## The engine with an empty stream (R132) -/

theorem nextFrame_of_empty {s : State} (h : s.trace = []) : nextFrame s = idleMove s := by
  unfold nextFrame
  rw [h]

theorem idleMove_of_handlerEnabled {s : State} {b : Bool} (h : handlerEnabled s = .ok b) :
    idleMove s = .run (if b then .timerExpiry else .tick) s := by
  unfold idleMove
  rw [h]
  cases b <;> rfl

/-- Settles O8: using up the entry of `loads` does not change whether the handler is enabled. -/
theorem idleMachineRunsTheEngine : Obligations.IdleMachineRunsTheEngine := by
  intro s hp hl htrace
  have hmove : nextMove s = idleMove { s with loads := s.loads.tail } :=
    (nextMove_of_noLoad hp hl).trans (nextFrame_of_empty htrace)
  have hrun {b : Bool} (h : handlerEnabled s = .ok b) :
      step s = exec (if b then .timerExpiry else .tick) { s with loads := s.loads.tail } :=
    step_of_run (hmove.trans (idleMove_of_handlerEnabled h))
  exact ⟨hrun, hrun⟩

/-! ## `START` and `STOP` (R140, R142) -/

theorem execStart_of_stopped {s u : State} (hi : s.devInitialized = true) (hst : readStatus s = .ok .stopped)
    (hset : setStatus (callbackEnable true (timerLoad s.cfg.initialTicks s)) .running = .ok u) :
    execStart s = .next (reply .ok u) := by
  simp only [execStart, whenInitialised_of_init hi, hst, ok_bind, if_true, hset, finish_ok]

theorem execStop_of_running {s u : State} (hi : s.devInitialized = true) (hst : readStatus s = .ok .running)
    (hset : setStatus (callbackEnable false (timerPark s)) .stopped = .ok u) : execStop s = .next (reply .ok u) := by
  simp only [execStop, whenInitialised_of_init hi, hst, ok_bind, if_true, hset, finish_ok]

/-- Settles O38: the status store falls into the region of the state with the timer loaded and the callback on. -/
theorem startArmsTheEngine : Obligations.StartArmsTheEngine := by
  intro s hi hst
  have hin : offSt + 4 ≤ s.cfg.regionBytes := regionBytes_of_readStatus hst
  obtain ⟨u, hset, hu, hkept, hframe⟩ := setStatus_stores (s := callbackEnable true (timerLoad s.cfg.initialTicks s))
    .running (by rw [callbackEnable_cfg, timerLoad_cfg]; exact hin)
  have hsame : SameBytes s u (outsideWord offSt) := fun a ha => by
    rw [hkept a ha, callbackEnable_mem, timerLoad_mem]
  refine ⟨_, execStart_of_stopped hi hst hset, hu, hsame, ?_⟩
  rw [hframe, timerLoad_eq]
  rfl

/-- Settles O39: parking discards the expiry before the status store. -/
theorem stopParksTheEngine : Obligations.StopParksTheEngine := by
  intro s hi hst
  obtain ⟨u, hset, hu, hkept, hframe⟩ := setStatus_stores (s := callbackEnable false (timerPark s))
    .stopped (regionBytes_of_readStatus hst)
  refine ⟨_, execStop_of_running hi hst hset, hu, hkept, ?_⟩
  rw [hframe]
  rfl

/-! ## The handler (R136) -/

theorem runHandler_of_cell {s u : State} {c : Cell} (h : popCell (timerAck s) = .ok (u, some c)) :
    runHandler s = .ok (runCell c u) := by
  simp only [runHandler, enterHandler_eq, h, ok_bind, leaveHandler_eq]

theorem runHandler_of_none {s u : State} (h : popCell (timerAck s) = .ok (u, none)) :
    runHandler s = .ok (callbackEnable false (timerPark u)) := by
  simp only [runHandler, enterHandler_eq, h, ok_bind, leaveHandler_eq]

/-- The body of `POP` where cells are pending: it takes the head and stores `read_index` only (R104). -/
theorem popCell_of_pending {s : State} {st : Status} {x : Cell} {q : List Cell} (hst : readStatus s = .ok st)
    (hne : st ≠ .errorUnderrun) (hq : HoldsQueue s (x :: q)) :
    ∃ t r c, memRead s offRd = .ok r ∧ memRead s offCap = .ok c ∧ popCell s = .ok (t, some x) ∧
      memWrite s offRd (nextIndex r c) = .ok t ∧ HoldsQueue t q := by
  obtain ⟨r, w, c, hcur, -⟩ := id hq
  have hrw : r ≠ w := fun heq => List.cons_ne_nil x q ((hq.nil_iff hcur).2 heq)
  obtain ⟨_, _, heq, hx⟩ := hq.head hcur hrw
  cases heq
  have hstore := memWrite_inside (nextIndex r c) (memRead_ok_iff.1 hcur.read).1
  exact ⟨_, r, c, hcur.read, hcur.cap, popCell_some hst hne hcur.read hcur.write hrw hcur.cap hcur.readBelow
    hcur.writeBelow hx hstore, hstore, hq.store_read hcur hrw⟩

theorem memRead_of_memWrite {s t : State} {off : Nat} {v : Word} (h : memWrite s off v = .ok t) :
    memRead t off = .ok v := by
  obtain ⟨hin, rfl⟩ := memWrite_ok_iff.1 h
  exact memRead_store_same v hin

/-- The status is another word than `read_index`. -/
theorem readStatus_of_memWrite_offRd {s t : State} {v : Word} (h : memWrite s offRd v = .ok t) :
    readStatus t = readStatus s := by
  obtain ⟨-, rfl⟩ := memWrite_ok_iff.1 h
  exact readStatus_store_disjoint s v (.inl (by rw [offRd_eq]; omega))

/-- Settles O41: the acknowledge leaves the region, so the body takes the head cell, and executing it touches no byte. -/
theorem handlerExecutesTheHeadCell : Obligations.HandlerExecutesTheHeadCell := by
  intro s x q hi hpend hcb hst hq
  have hack : HoldsQueue (timerAck s) (x :: q) := hq.congr rfl rfl
  obtain ⟨u, r, c, hr, hc, hpop, hstore, htail⟩ := popCell_of_pending (s := timerAck s) hst (by simp) hack
  have hexec := execTimerExpiry_of_enabled hi (handlerEnabled_of_running hpend hcb hst) (runHandler_of_cell hpop)
  have hcfg : (runCell x u).cfg = u.cfg := runCell_cfg x u
  have hmem : (runCell x u).mem = u.mem := runCell_mem x u
  refine ⟨_, r, c, hr, hc, hexec, ?_, htail.congr hcfg hmem, ?_, ?_, ?_⟩
  · rw [memRead_congr hcfg hmem]; exact memRead_of_memWrite hstore
  · rw [readStatus_congr hcfg hmem, readStatus_of_memWrite_offRd hstore]; exact hst
  · intro a ha; rw [hmem]; exact memWrite_sameBytes hstore a ha
  · rw [hmem, runCell_eq, timerLoad_eq, popCell_frame hpop]
    simp [outSet, outClear, timerAck]

/-- Settles O42: the body stores the status, and the handler then parks the timer and disables the callback. -/
theorem handlerUnderrunsOnEmptyBuffer : Obligations.HandlerUnderrunsOnEmptyBuffer := by
  intro s r hi hpend hcb hst hr hw
  obtain ⟨u, hset, hu, hkept, hframe⟩ := setStatus_stores (s := timerAck s) .errorUnderrun (regionBytes_of_readStatus hst)
  have hpop : popCell (timerAck s) = .ok (u, none) := popCell_empty hst (by simp) hr hw hset
  have hexec := execTimerExpiry_of_enabled hi (handlerEnabled_of_running hpend hcb hst) (runHandler_of_none hpop)
  refine ⟨_, hexec, hu, hkept, ?_⟩
  rw [hframe]
  rfl

/-! ## From one expiry to the next (R138) -/

theorem ticks_cfg (n : Nat) (s : State) : (ticks n s).cfg = s.cfg := by
  induction n generalizing s with
  | zero => rfl
  | succ n ih => rw [ticks, ih, timerTick_cfg]

theorem ticks_mem (n : Nat) (s : State) : (ticks n s).mem = s.mem := by
  induction n generalizing s with
  | zero => rfl
  | succ n ih => rw [ticks, ih, timerTick_mem]

theorem ticks_cbEnable (n : Nat) (s : State) : (ticks n s).cbEnable = s.cbEnable := by
  induction n generalizing s with
  | zero => rfl
  | succ n ih => rw [ticks, ih, timerTick_cbEnable]

/-- A timer as a load leaves it that met no pending expiry: it counts, or its count is 0 and it expired at once (R33). -/
structure FreshlyLoaded (s : State) : Prop where
  armed : s.tmrArmed = decide (s.tmrCount ≠ 0#32)
  pending : s.tmrExpiryPending = decide (s.tmrCount = 0#32)

/-- Such a timer makes its expiry pending at tick number `count`, and not before (R34). -/
theorem FreshlyLoaded.ticks_pending {s : State} (h : FreshlyLoaded s) :
    (∀ n < s.tmrCount.toNat, (ticks n s).tmrExpiryPending = false) ∧
      (ticks s.tmrCount.toNat s).tmrExpiryPending = true := by
  obtain ⟨harmed, hpending⟩ := h
  by_cases hzero : s.tmrCount = 0#32
  · have hnow : s.tmrCount.toNat = 0 := by bv_omega
    rw [hnow]
    exact ⟨fun n hn => absurd hn (Nat.not_lt_zero n), by rw [ticks, hpending, decide_eq_true hzero]⟩
  · rw [decide_eq_true hzero] at harmed
    rw [decide_eq_false hzero] at hpending
    refine ⟨fun n hn => ?_, ?_⟩
    · rw [ticks_of_counting harmed n hn]; exact hpending
    · rw [ticks_of_expiring harmed hzero]

/-- In RUNNING with the callback on, the handler is enabled when the timer has expired and not before (R135, R138). -/
theorem FreshlyLoaded.handlerEnabled_after {s : State} (h : FreshlyLoaded s) (hcb : s.cbEnable = true)
    (hst : readStatus s = .ok .running) :
    (∀ n < s.tmrCount.toNat, handlerEnabled (ticks n s) = .ok false) ∧
      handlerEnabled (ticks s.tmrCount.toNat s) = .ok true := by
  obtain ⟨hbefore, hthen⟩ := h.ticks_pending
  exact ⟨fun n hn => handlerEnabled_of_notPending (hbefore n hn),
    handlerEnabled_of_running hthen ((ticks_cbEnable _ s).trans hcb)
      ((readStatus_congr (ticks_cfg _ s) (ticks_mem _ s)).trans hst)⟩

/-- Settles O44: the handler loads the delay after it acknowledged the expiry. -/
theorem nextExpiryComesExactlyDelayTicksLater : Obligations.NextExpiryComesExactlyDelayTicksLater := by
  intro s x q hi hpend hcb hst hq
  obtain ⟨t, r, c, -, -, hexec, -, -, hrun, -, ht⟩ := handlerExecutesTheHeadCell s x q hi hpend hcb hst hq
  have hcount : t.tmrCount = x.delay := congrArg State.tmrCount ht
  have hloaded : FreshlyLoaded t :=
    ⟨by rw [hcount]; exact congrArg State.tmrArmed ht, by rw [hcount]; exact congrArg State.tmrExpiryPending ht⟩
  rw [← hcount]
  exact ⟨t, hexec, hloaded.handlerEnabled_after ((congrArg State.cbEnable ht).trans hcb) hrun⟩

/-- Settles O45: `START` loads `INITIAL_TICKS`, with no expiry pending. -/
theorem firstExpiryComesInitialTicksAfterStart : Obligations.FirstExpiryComesInitialTicksAfterStart := by
  intro s hi hst hidle
  obtain ⟨t, hexec, hrun, -, ht⟩ := startArmsTheEngine s hi hst
  rw [timerLoad_eq, hidle, Bool.or_false] at ht
  have hcount : t.tmrCount = s.cfg.initialTicks := congrArg State.tmrCount ht
  have hloaded : FreshlyLoaded t :=
    ⟨by rw [hcount]; exact congrArg State.tmrArmed ht, by rw [hcount]; exact congrArg State.tmrExpiryPending ht⟩
  rw [← hcount]
  exact ⟨t, hexec, hloaded.handlerEnabled_after (congrArg State.cbEnable ht) hrun⟩

/-! ## The transition table (R130) -/

theorem readStatus_of_setStatus {s t : State} {st : Status} (h : setStatus s st = .ok t) : readStatus t = .ok st :=
  readStatus_ok_iff.2 (memRead_of_memWrite h)

theorem readStatus_of_loadWord {s : State} {st : Status} (h16 : 16 ≤ s.cfg.regionBytes)
    (h : loadWord s.mem offSt = some (statusWord st)) : readStatus s = .ok st :=
  readStatus_ok_iff.2 (memRead_ok_iff.2 ⟨h16, h⟩)

/-- A result returned is no store. -/
theorem readStatus_reply (r : Result) (s : State) : readStatus (reply r s) = readStatus s := readStatus_congr rfl rfl

/-- The body of `POP` keeps the status where it takes a cell and leaves ERROR_UNDERRUN where it takes none (R104). -/
theorem popCell_readStatus {s t : State} {st : Status} {x : Option Cell} (hst : readStatus s = .ok st)
    (h : popCell s = .ok (t, x)) : readStatus t = .ok (if x.isSome then st else .errorUnderrun) := by
  rcases popCell_cases h with ⟨hs, rfl, rfl⟩ | ⟨_, _, -, -, -, -, hset, rfl⟩ |
    ⟨_, _, _, _, _, -, -, -, -, -, -, -, -, -, hstore, rfl⟩
  · exact hs
  · exact readStatus_of_setStatus hset
  · exact (readStatus_of_memWrite_offRd hstore).trans hst

/-- The next state's status is one the transition table allows. -/
def StatusAllowed (i : Instr) (st : Status) (t : State) : Prop := ∃ st', readStatus t = .ok st' ∧ st' ∈ statusAfter i st

/-- An operation that leaves the region leaves the status: its row must allow that it stays. -/
theorem StatusAllowed.of_kept {i : Instr} {s t : State} {st : Status} (hst : readStatus s = .ok st)
    (hcfg : t.cfg = s.cfg) (hmem : t.mem = s.mem) (hstay : st ∈ statusAfter i st) : StatusAllowed i st t :=
  ⟨st, (readStatus_congr hcfg hmem).trans hst, hstay⟩

theorem execInit_status {c : Word} {s t : State} {st : Status} (hi : s.devInitialized = true)
    (hst : readStatus s = .ok st) (h : execInit c s = .next t) : StatusAllowed (.init c) st t := by
  have hstay : st ∈ statusAfter (.init c) st := by cases st <;> simp [statusAfter]
  rcases execInit_cases h with ⟨-, rfl⟩ | ⟨-, -, rfl⟩ | ⟨-, hidle, h16, rfl⟩
  · exact .of_kept hst rfl rfl hstay
  · exact .of_kept hst rfl rfl hstay
  · have hne : st ≠ .running := fun hrun => by
      rcases initMeetsRunning_ok_iff.1 hidle with ⟨hnot, -⟩ | ⟨-, st', hst', hfalse⟩
      · rw [hi] at hnot; cases hnot
      · rw [readStatus_unique hst' hst, hrun] at hfalse; cases hfalse
    obtain ⟨-, -, -, hload⟩ := initMemory_loads c s.mem
    exact ⟨.stopped, (readStatus_reply _ _).trans (readStatus_of_loadWord h16 hload), by simp [statusAfter, hne]⟩

theorem execStart_status {s t : State} {st : Status} (hi : s.devInitialized = true) (hst : readStatus s = .ok st)
    (h : execStart s = .next t) : StatusAllowed .start st t := by
  rcases execStart_cases h with ⟨hnot, -⟩ | ⟨-, ⟨st', hst', hne⟩, rfl⟩ | ⟨-, hstopped, u, hset, rfl⟩
  · rw [hi] at hnot; cases hnot
  · cases readStatus_unique hst hst'
    exact .of_kept hst rfl rfl (by simp [statusAfter, hne])
  · cases readStatus_unique hst hstopped
    exact ⟨.running, (readStatus_reply _ u).trans (readStatus_of_setStatus hset), by simp [statusAfter]⟩

theorem execStop_status {s t : State} {st : Status} (hi : s.devInitialized = true) (hst : readStatus s = .ok st)
    (h : execStop s = .next t) : StatusAllowed .stop st t := by
  rcases execStop_cases h with ⟨hnot, -⟩ | ⟨-, ⟨st', hst', hne⟩, rfl⟩ | ⟨-, hrunning, u, hset, rfl⟩
  · rw [hi] at hnot; cases hnot
  · cases readStatus_unique hst hst'
    exact .of_kept hst rfl rfl (by simp [statusAfter, hne])
  · cases readStatus_unique hst hrunning
    exact ⟨.stopped, (readStatus_reply _ u).trans (readStatus_of_setStatus hset), by simp [statusAfter]⟩

theorem execReset_status {s t : State} {st : Status} (hi : s.devInitialized = true) (hst : readStatus s = .ok st)
    (h : execReset s = .next t) : StatusAllowed .reset st t := by
  rcases execReset_cases h with ⟨hnot, -⟩ | ⟨-, hrunning, rfl⟩ | ⟨-, ⟨st', hst', hne⟩, h16, rfl⟩
  · rw [hi] at hnot; cases hnot
  · cases readStatus_unique hst hrunning
    exact .of_kept hst rfl rfl (by simp [statusAfter])
  · cases readStatus_unique hst hst'
    exact ⟨.stopped, (readStatus_reply _ _).trans (readStatus_zeroMemory h16), by simp [statusAfter, hne]⟩

/-- `POP` outside RUNNING leaves the status its body leaves; from ERROR_UNDERRUN both of these are ERROR_UNDERRUN. -/
theorem execPop_status {s t : State} {st : Status} (hi : s.devInitialized = true) (hst : readStatus s = .ok st)
    (h : execPop s = .next t) : StatusAllowed .pop st t := by
  rcases execPop_cases h with ⟨hnot, -⟩ | ⟨-, hrunning, rfl⟩ | ⟨-, ⟨st', hst', hne⟩, u, x, hpop, rfl⟩
  · rw [hi] at hnot; cases hnot
  · cases readStatus_unique hst hrunning
    exact .of_kept hst rfl rfl (by simp [statusAfter])
  · cases readStatus_unique hst hst'
    refine ⟨_, (readStatus_reply _ u).trans (popCell_readStatus hst hpop), ?_⟩
    cases st with
    | running => exact absurd rfl hne
    | stopped => cases x <;> simp [statusAfter]
    | errorUnderrun => cases x <;> simp [statusAfter]

/-- The handler runs in RUNNING only and leaves the status the body of `POP` leaves: the rest of it touches no byte. -/
theorem execTimerExpiry_status {s t : State} {st : Status} (hi : s.devInitialized = true) (hst : readStatus s = .ok st)
    (h : execTimerExpiry s = .next t) : StatusAllowed .timerExpiry st t := by
  rcases execTimerExpiry_cases h with ⟨hnot, -⟩ | ⟨-, -, rfl⟩ | ⟨-, henabled, hrun⟩
  · rw [hi] at hnot; cases hnot
  · exact .of_kept hst rfl rfl (by cases st <;> simp [statusAfter])
  · cases readStatus_unique hst (readStatus_of_handlerEnabled henabled)
    obtain ⟨u, x, hpop, hmem⟩ := runHandler_popCell_mem hrun
    have hcfg : t.cfg = u.cfg := (runHandler_cfg hrun).trans (popCell_cfg hpop).symm
    have hu := popCell_readStatus (s := timerAck s) hst hpop
    refine ⟨_, (readStatus_congr hcfg hmem).trans hu, ?_⟩
    cases x <;> simp [statusAfter]

/-- Every operation of an initialised device keeps to its row of the table. -/
theorem exec_status {i : Instr} {s t : State} {st : Status} (hi : s.devInitialized = true) (hst : readStatus s = .ok st)
    (h : exec i s = .next t) : StatusAllowed i st t := by
  have kept (hmem : t.mem = s.mem) (hrow : statusAfter i st = [st]) : StatusAllowed i st t :=
    .of_kept hst (exec_cfg h) hmem (by rw [hrow]; exact List.mem_singleton_self st)
  cases i with
  | init => exact execInit_status hi hst h
  | mapBuffer => exact kept (execMapBuffer_mem h) rfl
  | start => exact execStart_status hi hst h
  | stop => exact execStop_status hi hst h
  | reset => exact execReset_status hi hst h
  | getStatus => exact kept (execGetStatus_mem h) rfl
  | push => exact kept (execPush_mem h) rfl
  | pop => exact execPop_status hi hst h
  | setStatus v => exact kept (execSetStatus_mem (v := v) h) rfl
  | tick => exact kept (execTick_mem h) rfl
  | timerExpiry => exact execTimerExpiry_status hi hst h
  | cell => exact kept (execCell_mem h) rfl

/-- Settles O46: each operation by its row; a step of a `PUSH` does not store to the status word. -/
theorem statusFollowsTheTransitionTable : Obligations.StatusFollowsTheTransitionTable := by
  refine ⟨fun i s t st hi hst h => exec_status hi hst h, fun p s t h => ?_⟩
  obtain ⟨-, hsame⟩ := continuePush_keeps_control h
  simp only [readStatus, hsame]

end Sys2Proof.Machine

/-! The producer's control surface: `MAP_BUFFER` and the end of a session (R165, R184, R41), and the loads of the producer
through its mapping (R166). -/

namespace Sys2Proof.Machine

/-! ## `MAP_BUFFER` (R165) -/

theorem attemptMapping_of_ok {s : State} (h : mapOkInput s = true) :
    attemptMapping s = reply (.okHandle s.cfg.baseU) { consumeMapOk s with devMapped := true } := by
  rw [attemptMapping, if_pos h]

theorem attemptMapping_of_failure {s : State} (h : mapOkInput s = false) :
    attemptMapping s = fail .mapping { consumeMapOk s with devMapFailed := true, devMapped := false } := by
  simp only [attemptMapping, h, Bool.false_eq_true, if_false]

theorem execMapBuffer_of_mappingFailed {s : State} (hi : s.devInitialized = true) (hf : s.devMapFailed = true) (z : Word) :
    execMapBuffer z s = .next (refuse .mappingFailed s) := by
  simp only [execMapBuffer, whenInitialised_of_init hi, hf, if_true, finish_ok]

/-- A size that fits reaches the platform attempt. -/
theorem execMapBuffer_of_fitting {z c : Word} {s : State} (hi : s.devInitialized = true) (hf : s.devMapFailed = false)
    (hc : memRead s offCap = .ok c) (hfit : z.toNat ≤ bufferBytes c) :
    execMapBuffer z s = .next (attemptMapping s) := by
  simp only [execMapBuffer, whenInitialised_of_init hi, hf, hc, Bool.false_eq_true, if_false, ok_bind,
    if_neg (Nat.not_lt.2 hfit), finish_ok]

/-- Settles O35: the size fits and the platform attempt succeeds. -/
theorem mapBufferReturnsTheHandle : Obligations.MapBufferReturnsTheHandle := by
  intro z c s hi hf hc hfit hok
  exact (execMapBuffer_of_fitting hi hf hc hfit).trans (congrArg _ (attemptMapping_of_ok hok))

/-! ## Which operations touch the mark of a failed mapping (R41) -/

/-- `INIT` clears the mark exactly where it completes (R100). -/
theorem execInit_devMapFailed_cases {c : Word} {s t : State} (h : execInit c s = .next t) :
    (t.devMapFailed = false ∧ t.results = s.results ++ [.ok]) ∨
    (t.devMapFailed = s.devMapFailed ∧ t.results ≠ s.results ++ [.ok]) := by
  rcases execInit_cases h with ⟨-, rfl⟩ | ⟨-, -, rfl⟩ | ⟨-, -, -, rfl⟩
  · exact .inr ⟨rfl, by simp⟩
  · exact .inr ⟨rfl, by simp⟩
  · exact .inl ⟨rfl, rfl⟩

/-- With the mark set `MAP_BUFFER` never reaches the platform attempt, so it cannot change it. -/
theorem execMapBuffer_keeps_mapFailed {z : Word} {s t : State} (h : execMapBuffer z s = .next t)
    (hf : s.devMapFailed = true) : t.devMapFailed = true := by
  rcases execMapBuffer_cases h with ⟨-, rfl⟩ | ⟨-, -, rfl⟩ | ⟨-, hlive, -⟩
  · exact hf
  · exact hf
  · rw [hf] at hlive; cases hlive

theorem setStatus_devMapFailed {s t : State} {st : Status} (h : setStatus s st = .ok t) :
    t.devMapFailed = s.devMapFailed := by
  rw [setStatus_frame h]

theorem popCell_devMapFailed {s t : State} {x : Option Cell} (h : popCell s = .ok (t, x)) :
    t.devMapFailed = s.devMapFailed := by
  rw [popCell_frame h]

theorem execStart_devMapFailed {s t : State} (h : execStart s = .next t) : t.devMapFailed = s.devMapFailed := by
  rcases execStart_cases h with ⟨-, rfl⟩ | ⟨-, -, rfl⟩ | ⟨-, -, u, hset, rfl⟩
  · rfl
  · rfl
  · simpa using setStatus_devMapFailed hset

theorem execStop_devMapFailed {s t : State} (h : execStop s = .next t) : t.devMapFailed = s.devMapFailed := by
  rcases execStop_cases h with ⟨-, rfl⟩ | ⟨-, -, rfl⟩ | ⟨-, -, u, hset, rfl⟩
  · rfl
  · rfl
  · simpa using setStatus_devMapFailed hset

theorem execReset_devMapFailed {s t : State} (h : execReset s = .next t) : t.devMapFailed = s.devMapFailed := by
  rcases execReset_cases h with ⟨-, rfl⟩ | ⟨-, -, rfl⟩ | ⟨-, -, -, rfl⟩ <;> rfl

theorem execGetStatus_devMapFailed {s t : State} (h : execGetStatus s = .next t) : t.devMapFailed = s.devMapFailed := by
  rcases execGetStatus_cases h with ⟨-, rfl⟩ | ⟨-, _, -, rfl⟩ <;> rfl

theorem execPush_devMapFailed {d k m : Word} {s t : State} (h : execPush d k m s = .next t) :
    t.devMapFailed = s.devMapFailed := by
  rcases execPush_cases h with ⟨-, rfl⟩ | ⟨-, -, rfl⟩ | ⟨-, -, -, rfl⟩ | ⟨-, -, -, _, _, -, -, -, rfl⟩ <;> rfl

theorem execPop_devMapFailed {s t : State} (h : execPop s = .next t) : t.devMapFailed = s.devMapFailed := by
  rcases execPop_cases h with ⟨-, rfl⟩ | ⟨-, -, rfl⟩ | ⟨-, -, u, x, hpop, rfl⟩
  · rfl
  · rfl
  · simpa using popCell_devMapFailed hpop

theorem execSetStatus_devMapFailed {v : Word} {s t : State} (h : execSetStatus v s = .next t) :
    t.devMapFailed = s.devMapFailed := by
  rw [execSetStatus_eq] at h
  cases h
  rfl

theorem execTick_devMapFailed {s t : State} (h : execTick s = .next t) : t.devMapFailed = s.devMapFailed := by
  rcases execTick_cases h with ⟨-, rfl⟩ | ⟨-, rfl⟩
  · rfl
  · exact timerTick_devMapFailed s

theorem runHandler_devMapFailed {s t : State} (h : runHandler s = .ok t) : t.devMapFailed = s.devMapFailed := by
  rcases runHandler_cases h with ⟨u, c, hpop, rfl⟩ | ⟨u, hpop, rfl⟩
  · simpa using popCell_devMapFailed hpop
  · simpa using popCell_devMapFailed hpop

theorem execTimerExpiry_devMapFailed {s t : State} (h : execTimerExpiry s = .next t) :
    t.devMapFailed = s.devMapFailed := by
  rcases execTimerExpiry_cases h with ⟨-, rfl⟩ | ⟨-, -, rfl⟩ | ⟨-, -, hrun⟩
  · rfl
  · rfl
  · exact runHandler_devMapFailed hrun

theorem execCell_devMapFailed {d k m : Word} {s t : State} (h : execCell d k m s = .next t) :
    t.devMapFailed = s.devMapFailed := by
  rw [execCell_eq] at h
  cases h
  exact runCell_devMapFailed _ s

/-- No operation but a successful `INIT` ends a dead session (R41). -/
theorem successful_init_of_mapFailed_cleared {i : Instr} {s t : State} (h : exec i s = .next t)
    (hf : s.devMapFailed = true) (ht : t.devMapFailed = false) :
    ∃ c, i = .init c ∧ t.results = s.results ++ [.ok] := by
  have kept (hkeep : t.devMapFailed = s.devMapFailed) : ∃ c, i = .init c ∧ t.results = s.results ++ [.ok] := by
    rw [hkeep, hf] at ht; cases ht
  cases i with
  | init c =>
    rcases execInit_devMapFailed_cases h with ⟨-, hok⟩ | ⟨hkeep, -⟩
    · exact ⟨c, rfl, hok⟩
    · exact kept hkeep
  | mapBuffer => exact kept ((execMapBuffer_keeps_mapFailed h hf).trans hf.symm)
  | start => exact kept (execStart_devMapFailed h)
  | stop => exact kept (execStop_devMapFailed h)
  | reset => exact kept (execReset_devMapFailed h)
  | getStatus => exact kept (execGetStatus_devMapFailed h)
  | push => exact kept (execPush_devMapFailed h)
  | pop => exact kept (execPop_devMapFailed h)
  | setStatus v => exact kept (execSetStatus_devMapFailed (v := v) h)
  | tick => exact kept (execTick_devMapFailed h)
  | timerExpiry => exact kept (execTimerExpiry_devMapFailed h)
  | cell => exact kept (execCell_devMapFailed h)

theorem devMapFailed_cleared_of_successful_init {c : Word} {s t : State} (h : execInit c s = .next t)
    (hok : t.results = s.results ++ [.ok]) : t.devMapFailed = false := by
  rcases execInit_devMapFailed_cases h with ⟨hcleared, -⟩ | ⟨-, hne⟩
  · exact hcleared
  · exact absurd hok hne

theorem continuePush_devMapFailed {p : PushInProgress} {s t : State} (h : continuePush p s = .next t) :
    t.devMapFailed = s.devMapFailed := by
  rw [pushStep_frame (finish_next_iff.1 h)]

/-- Settles O37: the state the failed attempt leaves has the mark set, so the refusals of every marked state hold there. -/
theorem mappingErrorKillsTheSession : Obligations.MappingErrorKillsTheSession := by
  refine ⟨fun s hi hf => ⟨execPush_of_mappingFailed hi hf, execMapBuffer_of_mappingFailed hi hf⟩,
    fun i s t h => successful_init_of_mapFailed_cleared h, fun p s t => continuePush_devMapFailed, ?_⟩
  intro z c s hi hf hc hfit hfail
  have hexec := (execMapBuffer_of_fitting hi hf hc hfit).trans (congrArg _ (attemptMapping_of_failure hfail))
  exact ⟨_, hexec, rfl, execPush_of_mappingFailed hi rfl, execMapBuffer_of_mappingFailed hi rfl,
    fun n u => devMapFailed_cleared_of_successful_init⟩

/-! ## Loads through the mapping (R166) -/

theorem nextMove_of_loading {s : State} {addr : Word} {more : List (Option Word)} (hp : s.push = none)
    (hl : s.loads = some addr :: more) : nextMove s = .load addr { s with loads := more } := by
  simp only [nextMove, hp, nextBetweenPushes, hl]

theorem stepLoad_of_notMapped {s : State} (hi : s.devInitialized = true) (hm : s.devMapped = false) (addr : Word) :
    stepLoad addr s = .next (refuse .notMapped s) := by
  simp only [stepLoad, producerLoad, whenInitialised_of_init hi, hm, Bool.false_eq_true, if_false, finish_ok]

section
variable {s : State} {addr c : Word} (hi : s.devInitialized = true) (hm : s.devMapped = true)
  (hc : memRead s offCap = .ok c)
include hi hm hc

/-- With a mapping a load is checked for alignment, then against the structure, and then made (log 29). -/
theorem stepLoad_of_mapped (addr : Word) :
    stepLoad addr s = finish (
      if mappedOffset addr s % wordBytes ≠ 0 then .ok (refuse .misalignedLoad s)
      else if bufferBytes c < mappedOffset addr s + wordBytes then .ok (refuse .outsideMapping s)
      else do
        let v ← memRead s (mappedOffset addr s)
        .ok { s with loaded := s.loaded ++ [v] }) := by
  simp only [stepLoad, producerLoad, whenInitialised_of_init hi, hm, if_true, hc, ok_bind, producerRead_eq]

theorem stepLoad_of_inside {v : Word} (haligned : mappedOffset addr s % wordBytes = 0)
    (hinside : mappedOffset addr s + wordBytes ≤ bufferBytes c) (hv : memRead s (mappedOffset addr s) = .ok v) :
    stepLoad addr s = .next { s with loaded := s.loaded ++ [v] } := by
  rw [stepLoad_of_mapped hi hm hc, if_neg (not_not.2 haligned), if_neg (Nat.not_lt.2 hinside), hv, ok_bind, finish_ok]

theorem stepLoad_of_misaligned (h : mappedOffset addr s % wordBytes ≠ 0) :
    stepLoad addr s = .next (refuse .misalignedLoad s) := by
  rw [stepLoad_of_mapped hi hm hc, if_pos h, finish_ok]

theorem stepLoad_of_outside (haligned : mappedOffset addr s % wordBytes = 0)
    (houtside : bufferBytes c < mappedOffset addr s + wordBytes) :
    stepLoad addr s = .next (refuse .outsideMapping s) := by
  rw [stepLoad_of_mapped hi hm hc, if_neg (not_not.2 haligned), if_pos houtside, finish_ok]

end

/-- Settles O60: the load is the next move, and then the five outcomes by where it falls, and the frame. -/
theorem producerLoadsAnyWordOfTheStructure : Obligations.ProducerLoadsAnyWordOfTheStructure :=
  ⟨fun _ _ _ hp hl => step_of_load (nextMove_of_loading hp hl),
    fun _ _ _ hi hm hc => ⟨fun _ => stepLoad_of_inside hi hm hc, stepLoad_of_misaligned hi hm hc,
      stepLoad_of_outside hi hm hc⟩,
    fun _ addr => ⟨fun hi hm => stepLoad_of_notMapped hi hm addr, fun hi => finish_whenInitialised_of_not hi _⟩,
    fun _ _ _ h => producerLoad_frame (finish_next_iff.1 h)⟩

end Sys2Proof.Machine

/-! The synchronous errors (R180 to R183): where a control command is illegal, and a size above the structure's. -/

namespace Sys2Proof.Machine

/-! ## `InvalidStateError` (R182) -/

section
variable {s : State} {st : Status} (hi : s.devInitialized = true)
include hi

theorem execStart_of_notStopped (hst : readStatus s = .ok st) (hne : st ≠ .stopped) :
    execStart s = .next (fail .invalidState s) := by
  simp only [execStart, whenInitialised_of_init hi, hst, ok_bind, if_neg hne, finish_ok]

theorem execStop_of_notRunning (hst : readStatus s = .ok st) (hne : st ≠ .running) :
    execStop s = .next (fail .invalidState s) := by
  simp only [execStop, whenInitialised_of_init hi, hst, ok_bind, if_neg hne, finish_ok]

theorem execReset_of_running (hrun : readStatus s = .ok .running) : execReset s = .next (fail .invalidState s) := by
  simp only [execReset, whenInitialised_of_init hi, hrun, ok_bind, if_true, finish_ok]

/-- `INIT` with a legal capacity comes to the status check, and a running engine fails it (R100). -/
theorem execInit_of_running {c : Word} (hrun : readStatus s = .ok .running) (h0 : c ≠ 0#32)
    (hmax : c.toNat ≤ capMax s.cfg) : execInit c s = .next (fail .invalidState s) := by
  have hbusy : initMeetsRunning s = .ok true := initMeetsRunning_ok_iff.2 (.inr ⟨hi, .running, hrun, rfl⟩)
  simp only [execInit, if_neg h0, if_neg (Nat.not_lt.2 hmax), hbusy, ok_bind, if_true, finish_ok]

end

/-- Settles O21: each control command checks the status before it stores anything. -/
theorem invalidStateErrorHasNoSideEffect : Obligations.InvalidStateErrorHasNoSideEffect := by
  refine ⟨rfl, fun s st hi hst => ⟨execStart_of_notStopped hi hst, execStop_of_notRunning hi hst, ?_, ?_⟩⟩
  · rintro rfl
    exact execReset_of_running hi hst
  · rintro rfl c
    exact execInit_of_running hi hst

/-! ## `SizeError` (R183) -/

theorem execMapBuffer_of_oversized {z c : Word} {s : State} (hi : s.devInitialized = true) (hf : s.devMapFailed = false)
    (hc : memRead s offCap = .ok c) (hbig : bufferBytes c < z.toNat) :
    execMapBuffer z s = .next (fail .size s) := by
  simp only [execMapBuffer, whenInitialised_of_init hi, hf, hc, Bool.false_eq_true, if_false, ok_bind, if_pos hbig,
    finish_ok]

theorem mayReturn_size {i : Instr} (h : MayReturn i (.failed .size)) : ∃ z, i = .mapBuffer z := by
  cases i with
  | mapBuffer z => exact ⟨z, rfl⟩
  | _ => simp [MayReturn] at h

/-- The platform attempt returns the handle or `MappingError` (R165, R184). -/
theorem attemptMapping_results_ne_size (s : State) : (attemptMapping s).results ≠ s.results ++ [.failed .size] := by
  cases h : mapOkInput s
  · simp [attemptMapping_of_failure h, consumeMapOk]
  · simp [attemptMapping_of_ok h, consumeMapOk]

/-- Only the size check of `MAP_BUFFER` returns `SizeError`. -/
theorem oversized_of_sizeError {z : Word} {s t : State} (h : execMapBuffer z s = .next t)
    (hr : t.results = s.results ++ [.failed .size]) :
    ∃ c, memRead s offCap = .ok c ∧ bufferBytes c < z.toNat := by
  rcases execMapBuffer_cases h with ⟨-, rfl⟩ | ⟨-, -, rfl⟩ | ⟨-, -, c, hc, ⟨hbig, -⟩ | ⟨-, rfl⟩⟩
  · simp at hr
  · simp at hr
  · exact ⟨c, hc, hbig⟩
  · exact absurd hr (attemptMapping_results_ne_size s)

/-- Settles O36: only `MAP_BUFFER` can return this error, and only from its size check. -/
theorem sizeErrorOnlyFromOversizedMapping : Obligations.SizeErrorOnlyFromOversizedMapping := by
  refine ⟨rfl, fun z c s => execMapBuffer_of_oversized, fun i s t h hr => ?_⟩
  obtain ⟨z, rfl⟩ := mayReturn_size (mayReturn_of_results h hr)
  obtain ⟨c, hc, hbig⟩ := oversized_of_sizeError h hr
  exact ⟨z, c, rfl, hc, hbig⟩

end Sys2Proof.Machine

/-! The output level (R214): no operation but the two that execute a Cell changes it, and the handler executes the Cell it
popped. -/

namespace Sys2Proof.Machine

theorem SameCollaborators.outLevel {s t : State} (h : SameCollaborators s t) : t.outLevel = s.outLevel := by
  obtain ⟨-, -, -, -, hout⟩ := h
  exact hout

theorem setStatus_outLevel {s t : State} {st : Status} (h : setStatus s st = .ok t) : t.outLevel = s.outLevel := by
  rw [setStatus_frame h]

theorem execStart_outLevel {s t : State} (h : execStart s = .next t) : t.outLevel = s.outLevel := by
  rcases execStart_cases h with ⟨-, rfl⟩ | ⟨-, -, rfl⟩ | ⟨-, -, u, hset, rfl⟩
  · rfl
  · rfl
  · simpa using setStatus_outLevel hset

/-- `STOP` parks the timer and leaves the lines as they are (R142). -/
theorem execStop_outLevel {s t : State} (h : execStop s = .next t) : t.outLevel = s.outLevel := by
  rcases execStop_cases h with ⟨-, rfl⟩ | ⟨-, -, rfl⟩ | ⟨-, -, u, hset, rfl⟩
  · rfl
  · rfl
  · simpa using setStatus_outLevel hset

theorem execTick_outLevel {s t : State} (h : execTick s = .next t) : t.outLevel = s.outLevel := by
  rcases execTick_cases h with ⟨-, rfl⟩ | ⟨-, rfl⟩
  · rfl
  · exact timerTick_outLevel s

/-- Only the two operations that execute a Cell can change the output level. -/
theorem exec_outLevel {i : Instr} {s t : State} (h : exec i s = .next t) (hexpiry : i ≠ .timerExpiry)
    (hcell : ∀ d k m, i ≠ .cell d k m) : t.outLevel = s.outLevel := by
  cases i with
  | start => exact execStart_outLevel h
  | stop => exact execStop_outLevel h
  | tick => exact execTick_outLevel h
  | timerExpiry => exact absurd rfl hexpiry
  | cell d k m => exact absurd rfl (hcell d k m)
  | init | mapBuffer | reset | getStatus | push | pop | setStatus =>
    exact (producerNeverTouchesTheCollaborators.1 _ s t h (by simp) (by simp) (by simp) (by simp) (by simp)).outLevel

/-- The output level a Cell gives: clear, then set (R133, R223). -/
theorem runCell_outLevel_word (c : Cell) (s : State) :
    (runCell c s).outLevel = (s.outLevel &&& ~~~c.clearMask) ||| c.setMask := by
  rw [runCell_outLevel, regOfField_eq, regOfField_eq]

/-- A popped cell is the one in slot `read_index` of a buffer whose cursors differ (R104). -/
theorem popCell_some_slot {s t : State} {x : Cell} (h : popCell s = .ok (t, some x)) :
    ∃ r w, memRead s offRd = .ok r ∧ memRead s offWr = .ok w ∧ r ≠ w ∧ readCell s r = .ok x := by
  rcases popCell_cases h with
    ⟨-, -, hx⟩ | ⟨_, _, -, -, -, -, -, hx⟩ | ⟨_, r, w, _, _, -, -, hr, hw, hrw, -, -, -, hcell, -, hx⟩
  · cases hx
  · cases hx
  · cases hx
    exact ⟨r, w, hr, hw, hrw, hcell⟩

/-- The handler keeps the output level, or executes the cell in slot `read_index` (R136). -/
theorem runHandler_outLevel_cases {s t : State} (h : runHandler s = .ok t) :
    t.outLevel = s.outLevel ∨
    ∃ x r w, t.outLevel = (s.outLevel &&& ~~~x.clearMask) ||| x.setMask ∧
      memRead s offRd = .ok r ∧ memRead s offWr = .ok w ∧ r ≠ w ∧ readCell s r = .ok x := by
  rcases runHandler_cases h with ⟨u, x, hpop, rfl⟩ | ⟨u, hpop, rfl⟩
  · have hlevel : u.outLevel = s.outLevel := (popCell_sameCollaborators hpop).outLevel
    obtain ⟨r, w, hr, hw, hrw, hcell⟩ := popCell_some_slot hpop
    rw [memRead_congr (timerAck_cfg s) (timerAck_mem s)] at hr hw
    rw [readCell_congr (timerAck_cfg s) (timerAck_mem s)] at hcell
    exact .inr ⟨x, r, w, by rw [runCell_outLevel_word, hlevel], hr, hw, hrw, hcell⟩
  · exact .inl (popCell_sameCollaborators hpop).outLevel

/-- Settles O50: a Cell is executed as such or by the enabled handler; the rest keeps the level. -/
theorem outputsChangeOnlyByExecutingACell : Obligations.OutputsChangeOnlyByExecutingACell := by
  refine ⟨fun i s t h hne => ?_, fun p s t h => (continuePush_sameCollaborators h).outLevel⟩
  cases i with
  | cell d k m =>
    cases (execCell_eq d k m s).symm.trans h
    exact ⟨⟨d, k, m⟩, runCell_outLevel_word _ s, .inl rfl⟩
  | timerExpiry =>
    rcases execTimerExpiry_cases h with ⟨-, rfl⟩ | ⟨-, -, rfl⟩ | ⟨-, henabled, hrun⟩
    · exact absurd rfl hne
    · exact absurd rfl hne
    · rcases runHandler_outLevel_cases hrun with hkept | ⟨x, r, w, hlevel, hr, hw, hrw, hcell⟩
      · exact absurd hkept hne
      · exact ⟨x, hlevel, .inr ⟨rfl, henabled, r, w, hr, hw, hrw, hcell⟩⟩
  | _ => exact absurd (exec_outLevel h (by simp) (by simp)) hne

end Sys2Proof.Machine
